-- ==== Sys2Proof/Word.lean ====
section
/-! DEFINITION. The word types of HUFFCORE: registers, bytes, codeword values and the 256-entry tables.
All quantities are unsigned (00_scope.md R12, R13). -/

namespace Sys2Proof

/-- A 32-bit register, bus word or command word (10_state.md R22). -/
abbrev Word := BitVec 32

/-- A buffer byte; also a Symbol, "one byte value, 0–255" (00_scope.md R6, R19). -/
abbrev Byte := BitVec 8

/-- A codeword value, an entry of the CODE table (10_state.md R45). -/
abbrev CodeWord := BitVec 128

/-- A table with one entry per symbol or per alphabet index, 0 to 255 (10_state.md R42 to R45). -/
abbrev Table (α : Type) := Vector α 256

/-- A bit string, the leftmost bit first (00_scope.md R14). -/
abbrev BitStr := List Bool

end Sys2Proof
end

