-- ==== Sys2Proof/Config.lean ====
section
/-! DEFINITION. What is fixed for one instance of the block, and the free values the spec leaves unspecified.
Every `opaque` constant here has no body: a claim about it is a claim for every value. -/

namespace Sys2Proof.Config

/-- The largest alphabet a container may carry (00_scope.md R7). -/
abbrev maxAlpha : Nat := 128

/-- The largest code length the engine assigns, stores or accepts (00_scope.md R9). -/
abbrev maxCodeLen : Nat := 127

/-- The size of the register window in bytes, 64 MiB (00_scope.md R11). -/
abbrev windowBytes : Nat := 0x04000000

/-- One admitted choice of BUF_BYTES: `extra` words above the least size, so that the values
`4 * extra + 512` are exactly the multiples of 4 from 512 to 2^24 (00_scope.md R8).
The default is the test vectors' reference value 65536; it fixes nothing, since the instance's choice is opaque. -/
structure BufChoice where
  extra : Fin 4194177 := 16256
  deriving DecidableEq, Repr, Inhabited

/-- The instance's choice of BUF_BYTES, left OPEN by the spec (92_eei_decisions.md D4). Log 1. -/
opaque bufChoice : BufChoice

/-- The byte capacity a choice gives, `4 * extra + 512`. The sum stands in two parts so that it can be compared with
a small number although `extra` is opaque. -/
def BufChoice.bytes (c : BufChoice) : Nat := (480 + 4 * c.extra.val) + 32

/-- BUF_BYTES, the byte capacity of each of IBUF and OBUF (00_scope.md R8). -/
def bufBytes : Nat := bufChoice.bytes

/-- The platform's choice of BASE in units of the window size, left OPEN (92_eei_decisions.md D2). Log 2. -/
opaque baseChoice : Nat

/-- BASE, the host-bus address of the window, a multiple of 0x0400_0000 (00_scope.md R11). -/
def base : Nat := windowBytes * baseChoice

/-- FREE VALUE: the byte at index `addr` of a buffer whose bytes became unspecified at draw `draw`
(10_state.md R48 and R49, 60_exceptions.md R147). Log 3 and log 4. -/
opaque freeByte (draw addr : Nat) : Byte

/-- FREE VALUE: an unspecified 32-bit word: a read of a result register, table or OBUF while BUSY
(70_reset_and_hazards.md R167), or LCMD after a reset (10_state.md R21). Log 5 and log 6. -/
opaque freeWord (draw : Nat) : Word

end Sys2Proof.Config
end

