-- ==== Sys2Proof/Syntax.lean ====
section
/-! DEFINITION. The command words' instructions (30_encoding.md R72) and the host-program notation (R85). -/

namespace Sys2Proof

/-- The nine commands of spec/opcode_table.json. No command has an operand field (30_encoding.md R71). -/
inductive Instr where
  /-- NOP, word 0x0000_0000 (45_composite.md R129). -/
  | nop
  /-- COUNT, word 0x0000_0001 (40_frequency.md R88). -/
  | count
  /-- BUILD, word 0x0000_0002 (41_tree_builder.md R95). -/
  | build
  /-- ASSIGN, word 0x0000_0003 (42_canonical_assign.md R102). -/
  | assign
  /-- SERIALIZE, word 0x0000_0004 (43_container.md R110). -/
  | serialize
  /-- DESERIALIZE, word 0x0000_0005 (43_container.md R117). -/
  | deserialize
  /-- MATCH, word 0x0000_0006 (44_bit_matcher.md R124). -/
  | matchBits
  /-- ENCODE, word 0x0000_0007 (45_composite.md R130). -/
  | encode
  /-- DECODE, word 0x0000_0008 (45_composite.md R132). -/
  | decode
  deriving DecidableEq, Repr

/-- A host access width that the spec leaves undefined (20_memory.md R56). -/
inductive OddWidth where
  | byte
  | half
  | burst
  deriving DecidableEq, Repr

/-- One operation of a host program (30_encoding.md R85). Offsets are window offsets (00_scope.md R11). -/
inductive HostOp where
  /-- `STW off, v`: MemWrite(off, 4, v). -/
  | stw (off : Nat) (v : Word)
  /-- `LDW off -> name`: MemRead(off, 4); the word read joins the host's record of reads. -/
  | ldw (off : Nat)
  /-- `WAIT`: repeat LDW STATUS until bit 0 (BUSY) of the word read is 0. -/
  | wait
  /-- Wait for the IRQ output to be 1 (70_reset_and_hazards.md R168). -/
  | waitIrq
  /-- An access of another width than 32 bits, a read or a write, which R56 leaves undefined. -/
  | oddAccess (width : OddWidth) (isWrite : Bool) (off : Nat)
  deriving DecidableEq, Repr

/-- A bus transaction, the encoding of one host-program line (30_encoding.md R85). -/
inductive Transaction where
  | write (off : Nat) (v : Word)
  | read (off : Nat)
  deriving DecidableEq, Repr

/-- Who takes the next step (20_memory.md R66, 60_exceptions.md R150): the host, the engine, or the hard reset
input `rst_n` (10_state.md R51). -/
inductive Turn where
  | host
  | engine
  | reset
  deriving DecidableEq, Repr

end Sys2Proof
end

