-- ==== Sys2Proof/WellFormed.lean ====
section
/-! DEFINITION. What is well formed: instructions, command words, host operations, the parameter BUF_BYTES.
Each check is a Bool, so that a smoke test can run it. -/

namespace Sys2Proof

/-- Every command is well formed: a command has no operand, mode or immediate field (30_encoding.md R71). -/
def Instr.wellFormed : Instr → Bool
  | .nop | .count | .build | .assign | .serialize | .deserialize | .matchBits | .encode | .decode => true

/-- A legal command word: bits 31:4 zero and OP at most 8 (30_encoding.md R73, R74). -/
def legalCommandWord (w : Word) : Bool := w.toNat / 16 == 0 && decide (w.toNat % 16 ≤ 8)

/-- A window offset the host may access: aligned to 4 and inside the 64 MiB window (20_memory.md R55). -/
def accessibleOffset (off : Nat) : Bool := off % 4 == 0 && decide (off < Config.windowBytes)

/-- A host operation that the spec defines (20_memory.md R55, R56). -/
def HostOp.wellFormed : HostOp → Bool
  | .stw off _ => accessibleOffset off
  | .ldw off => accessibleOffset off
  | .wait => true
  | .waitIrq => true
  | .oddAccess _ _ _ => false

/-- An admitted value of BUF_BYTES: a multiple of 4 from 512 to 2^24 (00_scope.md R8). -/
def bufBytesAdmitted (n : Nat) : Bool := n % 4 == 0 && decide (512 ≤ n) && decide (n ≤ 2 ^ 24)

end Sys2Proof
end

