-- ==== Sys2Proof/Decode.lean ====
section
/-! DEFINITION. The decoder of command words and, after it, the encoder; the bus encoding of a host operation.
Decoding is total on all 2^32 words (30_encoding.md R73). -/

namespace Sys2Proof

/-- Why a word selects no command (30_encoding.md R73). -/
inductive DecodeError where
  /-- A bit of RSV, bits 31:4, is set. -/
  | reservedBits
  /-- OP is 9 to 15. -/
  | reservedOp
  deriving DecidableEq, Repr

/-- OP, bits 3:0 of a command word (30_encoding.md R71). -/
def opField (w : Word) : BitVec 4 := w.extractLsb' 0 4

/-- RSV, bits 31:4 of a command word (30_encoding.md R71). -/
def rsvField (w : Word) : BitVec 28 := w.extractLsb' 4 28

/-- The command whose number is `op` (30_encoding.md R72). -/
def commandOfOp (op : BitVec 4) : Except DecodeError Instr :=
  match op.toNat with
  | 0 => .ok .nop
  | 1 => .ok .count
  | 2 => .ok .build
  | 3 => .ok .assign
  | 4 => .ok .serialize
  | 5 => .ok .deserialize
  | 6 => .ok .matchBits
  | 7 => .ok .encode
  | 8 => .ok .decode
  | _ => .error .reservedOp

/-- The command a latched word selects (30_encoding.md R73). -/
def decode (w : Word) : Except DecodeError Instr :=
  if rsvField w = 0 then commandOfOp (opField w) else .error .reservedBits

/-- The command number of an instruction (30_encoding.md R72). -/
def opOf : Instr → BitVec 4
  | .nop => 0x0
  | .count => 0x1
  | .build => 0x2
  | .assign => 0x3
  | .serialize => 0x4
  | .deserialize => 0x5
  | .matchBits => 0x6
  | .encode => 0x7
  | .decode => 0x8

/-- The word of an instruction: RSV zero above OP (30_encoding.md R71, R72). -/
def encode (i : Instr) : Word := (0 : BitVec 28) ++ opOf i

/-- The bus transaction of a host operation (30_encoding.md R85). `WAIT` reads STATUS; waiting for IRQ and
accesses of another width have none. -/
def transactionOf : HostOp → Option Transaction
  | .stw off v => some (.write off v)
  | .ldw off => some (.read off)
  | .wait => some (.read 0x0014)
  | .waitIrq => none
  | .oddAccess _ _ _ => none

/-- The command word that the low `nbits` bits of `w` lay out; every bit above them is 0. A command word is one
32-bit word, so its numbering is the register's own. -/
def commandWordOf (nbits w : Nat) : Word := BitVec.ofNat 32 (w % 2 ^ nbits)

/-- The instruction the decoder reads from a word of the opcode table. -/
def decodeTableWord (nbits w : Nat) : Option Instr :=
  match decode (commandWordOf nbits w) with
  | .ok i => some i
  | .error _ => none

end Sys2Proof
end

