-- ==== Sys2Proof/Machine/State.lean ====
section
/-! DEFINITION. The state of the block and of its environment, as plain data; faults, refusals and status codes. -/

namespace Sys2Proof.Machine

/-- The engine state ENG (10_state.md R21). -/
inductive Engine where
  | idle
  | busy
  deriving DecidableEq, Repr

/-- The status codes that STATUS.CODE can hold (60_exceptions.md R144). Codes 12 to 15 are never produced
(93_implementation_defined.md V2), so they have no constructor. -/
inductive Status where
  | ok
  | emptyAlphabet
  | alphabetTooLarge
  | truncatedHeader
  | corruptPadding
  | unmatchedBits
  | codeOverflow
  | corruptTable
  | symbolUncoded
  | outputOverflow
  | badLength
  | badCommand
  deriving DecidableEq, Repr

/-- `raise X(info)` of the pseudocode: the status code and the ERR_INFO value (60_exceptions.md R146). -/
structure Failure where
  status : Status
  info   : Word
  deriving DecidableEq, Repr

/-- Reasons the machine stops with a fault. -/
inductive Fault where
  /-- Raised by MATCH when PAY_OFF and PAY_BITS locate payload bytes outside IBUF, bytes that do not exist.
  Safe: 10_state.md R41 rules such states out, so no run from reset reaches it. Log 13. -/
  | payloadOutsideBuffer
  deriving DecidableEq, Repr

/-- Reasons a step is refused: it has no meaning in the spec. -/
inductive Refusal where
  /-- Raised by no meaning: the answer of an arm of `exec` that has none yet. Safe. -/
  | notModelled (mnemonic : String)
  /-- Raised by a host access of 8 or 16 bits or a burst (20_memory.md R56: "A model refuses such an access"). Safe. -/
  | undefinedWidth (width : OddWidth)
  /-- Raised by a host access at an offset that is not a multiple of 4 (20_memory.md R56). Safe. -/
  | misalignedAccess (off : Nat)
  /-- Raised by a host access outside the 64 MiB window, which is not the block's (93_implementation_defined.md S8). Safe. -/
  | outsideWindow (off : Nat)
  deriving DecidableEq, Repr

/-- One entry of the ALPHA table, or one (length, symbol) pair of an alphabet (10_state.md R44). -/
structure AlphaEntry where
  sym : Byte
  len : Byte
  deriving DecidableEq, Repr

/-- A byte buffer, IBUF or OBUF (10_state.md R48, R49): the bytes that hold a specified value, at strictly rising
addresses, and the draw that every other byte's unspecified value comes from. -/
structure Memory where
  cells : List Host.Cell
  draw  : Nat
  deriving DecidableEq, Repr

/-- The complete state (10_state.md R20), then the model's own fields. Registers that are a mirror or a constant
(STATUS.BUSY, STATUS.ERR, ID, PARAM, IRQ) have no field: each is computed where it is read. -/
structure State where
  /-- The parameter BUF_BYTES of this instance, which BUFSZ reads (00_scope.md R8, 10_state.md R25). No step writes it. -/
  bufBytes   : Nat
  /-- ENG (10_state.md R21). -/
  eng        : Engine
  /-- LCMD, the latched command word (10_state.md R21). -/
  lcmd       : Word
  /-- CTRL.IE (10_state.md R26). -/
  ie         : Bool
  /-- STATUS.DONE (10_state.md R30). -/
  done       : Bool
  /-- STATUS.OVR (10_state.md R32). -/
  ovr        : Bool
  /-- STATUS.CODE (10_state.md R33). -/
  statusCode : Status
  /-- IN_LEN (10_state.md R34). -/
  inLen      : Word
  /-- OUT_LEN (10_state.md R35). -/
  outLen     : Word
  /-- ERR_INFO (10_state.md R36). -/
  errInfo    : Word
  /-- ALPHA_N, bits 8:0 (10_state.md R37). -/
  alphaN     : BitVec 9
  /-- MAXLEN, bits 7:0 (10_state.md R38). -/
  maxLen     : Byte
  /-- PAD, bits 2:0 (10_state.md R39). -/
  pad        : BitVec 3
  /-- PAY_OFF (10_state.md R40). -/
  payOff     : Word
  /-- PAY_BITS (10_state.md R41). -/
  payBits    : Word
  /-- FREQ (10_state.md R42). -/
  freq       : Table Word
  /-- LEN (10_state.md R43). -/
  len        : Table Byte
  /-- ALPHA (10_state.md R44). -/
  alpha      : Table AlphaEntry
  /-- CODE (10_state.md R45). -/
  code       : Table CodeWord
  /-- IBUF (10_state.md R48). -/
  ibuf       : Memory
  /-- OBUF (10_state.md R49). -/
  obuf       : Memory
  /-- MODEL'S OWN: the index of the next free value. Log 7. -/
  draws      : Nat
  /-- MODEL'S OWN: the host's pending operations, in the order it issues them (20_memory.md R66). Log 9. -/
  host       : List HostOp
  /-- MODEL'S OWN: the words the host's LDW operations have returned, newest first. Log 9. -/
  reads      : List Word
  /-- MODEL'S OWN: who takes each of the next steps; a list of any length, so that every interleaving of host,
  engine and reset is some state (70_reset_and_hazards.md R170, R172). Log 8. -/
  sched      : List Turn
  deriving DecidableEq, Repr

/-- The state a hard reset leaves (10_state.md R53), in an instance of `bufBytes` bytes a buffer, when the next free
value has index `draws`: IBUF, OBUF and LCMD, which R53 calls unspecified, each take a fresh one. -/
def State.afterReset (bufBytes draws : Nat) : State where
  bufBytes   := bufBytes
  eng        := .idle
  lcmd       := Config.freeWord (draws + 2)
  ie         := false
  done       := false
  ovr        := false
  statusCode := .ok
  inLen      := 0
  outLen     := 0
  errInfo    := 0
  alphaN     := 0
  maxLen     := 0
  pad        := 0
  payOff     := 0
  payBits    := 0
  freq       := Vector.replicate 256 0
  len        := Vector.replicate 256 0
  alpha      := Vector.replicate 256 ⟨0, 0⟩
  code       := Vector.replicate 256 0
  ibuf       := ⟨[], draws⟩
  obuf       := ⟨[], draws + 1⟩
  draws      := draws + 3
  host       := []
  reads      := []
  sched      := []

/-- The machine right after a hard reset of this instance (10_state.md R53, 70_reset_and_hazards.md R162). -/
def State.reset : State := State.afterReset Config.bufBytes 0

end Sys2Proof.Machine
end

