-- ==== Sys2Proof/Machine/Ops.lean ====
section
/-! DEFINITION. The shared operations over tables, buffers and the completion registers: reading and writing bytes,
issuing a command, completing it with success or with an error, and the two resets. -/

namespace Sys2Proof.Machine

/-- The entry of a table for the symbol or index `s`. -/
def tableAt {α : Type} (t : Table α) (s : Byte) : α := t[s.toNat]'(s.isLt)

/-- The table whose entry for each `s` in 0..255 is `f s`. -/
def tableOf {α : Type} (f : Byte → α) : Table α :=
  ⟨⟨(List.finRange 256).map fun i => f (BitVec.ofFin i)⟩, by simp⟩

/-- The canonical form of a buffer: strictly rising addresses. A byte stands in `cells` exactly when its value is
specified; an unlisted byte's value is the free value of `Memory.read`, which no listed byte can be known to equal. -/
abbrev Memory.wf (m : Memory) : Prop := m.cells.Pairwise fun x y => x.1 < y.1

/-- Every listed byte lies below `n`, the buffer's capacity (20_memory.md R54). -/
abbrev Memory.within (m : Memory) (n : Nat) : Prop := ∀ c ∈ m.cells, c.1 < n

/-- Byte `a` of a buffer: its specified value, or else the free value of the draw that left it unspecified
(10_state.md R48, R49). -/
def Memory.read (m : Memory) (a : Nat) : Byte :=
  (m.cells.lookup a).getD (Config.freeByte m.draw a)

/-- The cells with byte `a` set to `v`, addresses kept strictly rising. -/
def putCell (a : Nat) (v : Byte) : List Host.Cell → List Host.Cell
  | [] => [(a, v)]
  | (b, w) :: rest =>
    if a < b then (a, v) :: (b, w) :: rest
    else if a = b then (a, v) :: rest
    else (b, w) :: putCell a v rest

/-- Buffer `m` with byte `a` set to `v`. -/
def Memory.write (m : Memory) (a : Nat) (v : Byte) : Memory := { m with cells := putCell a v m.cells }

/-- Byte lane `j` of a bus word, bits 8j+7 to 8j (20_memory.md R58). -/
def byteLane (v : Word) (j : Nat) : Byte := v.extractLsb' (8 * j) 8

/-- The bus word at byte index `a` of a buffer: little-endian byte lanes (20_memory.md R58). -/
def Memory.readWord (m : Memory) (a : Nat) : Word :=
  m.read (a + 3) ++ m.read (a + 2) ++ m.read (a + 1) ++ m.read a

/-- Buffer `m` after the bus word `v` is written at byte index `a`: little-endian byte lanes (20_memory.md R58). -/
def Memory.writeWord (m : Memory) (a : Nat) (v : Word) : Memory :=
  (((m.write a (byteLane v 0)).write (a + 1) (byteLane v 1)).write (a + 2) (byteLane v 2)).write
    (a + 3) (byteLane v 3)

/-- The bytes of index `a` to `a + n - 1`, in order. -/
def Memory.bytes (m : Memory) (a n : Nat) : List Byte := (List.range n).map fun i => m.read (a + i)

/-- The buffer whose bytes 0 .. |bs|-1 are `bs` and whose other bytes are unspecified, from draw `draw`
(10_state.md R49). -/
def Memory.ofBytes (draw : Nat) (bs : List Byte) : Memory := ⟨bs.zipIdx.map fun p => (p.2, p.1), draw⟩

/-- Issue of the command word `w` (60_exceptions.md R142): LCMD is latched, ENG is BUSY, DONE and CODE are cleared. -/
def issue (w : Word) (s : State) : State :=
  { s with lcmd := w, eng := .busy, done := false, statusCode := .ok }

/-- The status part of a completion (60_exceptions.md R143, R146): ERR_INFO, CODE, DONE, BUSY and ENG. -/
def complete (status : Status) (info : Word) (s : State) : State :=
  { s with eng := .idle, done := true, statusCode := status, errInfo := info }

/-- OBUF and OUT_LEN after an output command's error (60_exceptions.md R147): OUT_LEN 0, every OBUF byte unspecified. -/
def discardOutput (s : State) : State :=
  { s with outLen := 0, obuf := Memory.ofBytes s.draws [], draws := s.draws + 1 }

/-- OBUF and OUT_LEN after an output command's success (10_state.md R35, R49): the output at the start of OBUF,
OUT_LEN its length, every byte at or beyond OUT_LEN unspecified. -/
def storeOutput (out : List Byte) (s : State) : State :=
  { s with outLen := BitVec.ofNat 32 out.length, obuf := Memory.ofBytes s.draws out, draws := s.draws + 1 }

/-- TAKING AN ERROR, for a command that is no output command (60_exceptions.md R141, R147): the working copy is
discarded, and the state before the command completes with the status code and ERR_INFO. There is no trap, no
handler and no return (R141, R153). -/
def takeError (f : Failure) (s : State) : State := complete f.status f.info s

/-- TAKING AN ERROR, for an output command (60_exceptions.md R147). -/
def takeOutputError (f : Failure) (s : State) : State := complete f.status f.info (discardOutput s)

/-- The completion step of a command that is no output command, from the state `s` before it and the outcome of its
pseudocode on a working copy (60_exceptions.md R143, R146). -/
def finish (s : State) : Except Failure State → State
  | .ok t => complete .ok 0 t
  | .error f => takeError f s

/-- The completion step of an output command (60_exceptions.md R143, R147). -/
def finishOutput (s : State) : Except Failure State → State
  | .ok t => complete .ok 0 t
  | .error f => takeOutputError f s

/-- Hard reset (70_reset_and_hazards.md R162): every piece of the block's state at its reset value. The instance's
parameter and the environment (host, its reads, the schedule) are not the block's and stay. A running command is
abandoned, since ENG is IDLE afterwards (R164). -/
def hardReset (s : State) : State :=
  { State.afterReset s.bufBytes s.draws with host := s.host, reads := s.reads, sched := s.sched }

/-- Soft reset (70_reset_and_hazards.md R163): the hard reset of every piece of state except IBUF. -/
def softReset (s : State) : State := { hardReset s with ibuf := s.ibuf }

end Sys2Proof.Machine
end

