-- ==== Sys2Proof/Machine/Operands.lean ====
section
/-! DEFINITION. The implicit operands of the commands (30_encoding.md R75) and the bit strings they are made of. -/

namespace Sys2Proof.Machine

/-- The symbols 0 to 255 in ascending order (00_scope.md R6). -/
def allSymbols : List Byte := (List.range 256).map fun i => BitVec.ofNat 8 i

/-- `IBUF[0 .. IN_LEN-1]`, the input bytes of COUNT, SERIALIZE and ENCODE (10_state.md R34). -/
def inputBytes (s : State) : List Byte := s.ibuf.bytes 0 s.inLen.toNat

/-- The check of every command that reads IN_LEN, made before any other (60_exceptions.md R145). -/
def checkLength (s : State) : Except Failure Unit :=
  if s.inLen.toNat > s.bufBytes then .error ⟨.badLength, s.inLen⟩ else .ok ()

/-- `ALPHA[0 .. ALPHA_N-1]`, the alphabet (10_state.md R44). -/
def alphabet (s : State) : List AlphaEntry := s.alpha.toList.take s.alphaN.toNat

/-- `bin_l(v)`: the l-bit string of `v`, most significant bit first (00_scope.md R14). -/
def bin (l v : Nat) : BitStr := (List.range l).map fun k => v.testBit (l - 1 - k)

/-- `val(a)`: the number whose l-bit string is `a` (00_scope.md R14). -/
def val (a : BitStr) : Nat := a.foldl (fun v b => 2 * v + b.toNat) 0

/-- The codeword of an alphabet entry, `bin_len(CODE[sym])` (10_state.md R45, 30_encoding.md R81). -/
def codewordOf (code : Table CodeWord) (e : AlphaEntry) : BitStr := bin e.len.toNat (tableAt code e.sym).toNat

/-- Bit `k` of a payload that begins at buffer index `off`: bit 7 - (k mod 8) of payload byte k div 8
(20_memory.md R64, 44_bit_matcher.md R122). -/
def payloadBit (m : Memory) (off k : Nat) : Bool := (m.read (off + k / 8)).getLsbD (7 - k % 8)

/-- The payload bits `PBit(0) .. PBit(PAY_BITS-1)` (44_bit_matcher.md R122). -/
def payloadBits (s : State) : BitStr :=
  (List.range s.payBits.toNat).map fun k => payloadBit s.ibuf s.payOff.toNat k

/-- The payload bytes lie in IBUF: `PAY_OFF + ceil(PAY_BITS/8) <= BUF_BYTES` (10_state.md R41). -/
def payloadInBuffer (s : State) : Bool :=
  decide (s.payOff.toNat + (s.payBits.toNat + 7) / 8 ≤ s.bufBytes)

end Sys2Proof.Machine
end

