-- ==== Sys2Proof/Machine/BitMatcher.lean ====
section
/-! DEFINITION. The bit-stream matcher: MATCH (44_bit_matcher.md). -/

namespace Sys2Proof.Machine

/-- The alphabet entry of length `l` whose codeword value is `v` (44_bit_matcher.md R123). -/
def entryFor (entries : List AlphaEntry) (code : Table CodeWord) (l v : Nat) : Option AlphaEntry :=
  entries.find? fun e => e.len.toNat == l && (tableAt code e.sym).toNat == v

/-- The first, shortest match at the cursor, whose remaining payload bits are `bits`: lengths
1 .. min(MAXLEN, remaining bits), "never past the last bit" (44_bit_matcher.md R123). -/
def shortestMatch (entries : List AlphaEntry) (code : Table CodeWord) (maxLen : Nat) (bits : BitStr) :
    Option (Byte × Nat) :=
  ((List.range (min maxLen bits.length)).map (· + 1)).findSome? fun l =>
    (entryFor entries code l (val (bits.take l))).map fun e => (e.sym, l)

/-- `Match()` from cursor `c` on, with `emitted` symbols already out and the remaining payload bits `bits`
(44_bit_matcher.md R123). Every match takes at least one bit, so `fuel`, the count of bits, never runs out. -/
def matchFrom (entries : List AlphaEntry) (code : Table CodeWord) (maxLen cap : Nat) :
    Nat → Nat → Nat → BitStr → Except Failure (List Byte)
  | _, _, _, [] => .ok []
  | 0, c, _, _ :: _ => .error ⟨.unmatchedBits, BitVec.ofNat 32 c⟩
  | fuel + 1, c, emitted, b :: bits =>
    match shortestMatch entries code maxLen (b :: bits) with
    | none => .error ⟨.unmatchedBits, BitVec.ofNat 32 c⟩
    | some (sym, l) =>
      if emitted = cap then .error ⟨.outputOverflow, BitVec.ofNat 32 c⟩
      else
        match matchFrom entries code maxLen cap fuel (c + l) (emitted + 1) ((b :: bits).drop l) with
        | .ok out => .ok (sym :: out)
        | .error f => .error f

/-- `Match()` over the payload bits `bits` (44_bit_matcher.md R123). -/
def matchAll (entries : List AlphaEntry) (code : Table CodeWord) (maxLen cap : Nat) (bits : BitStr) :
    Except Failure (List Byte) :=
  matchFrom entries code maxLen cap bits.length 0 0 bits

/-- The pseudocode of MATCH on a working copy (44_bit_matcher.md R124). -/
def matchStage (s : State) : Except Failure State :=
  match matchAll (alphabet s) s.code s.maxLen.toNat s.bufBytes (payloadBits s) with
  | .error f => .error f
  | .ok out => .ok (storeOutput out s)

/-- MATCH (44_bit_matcher.md R124). A payload range outside IBUF, which no run from reset can leave
(10_state.md R41), names bytes that do not exist: a fault (log 13). -/
def execMatch (s : State) : Host.Outcome State Fault Refusal :=
  if payloadInBuffer s then .next (finishOutput s (matchStage s)) else .fault .payloadOutsideBuffer

end Sys2Proof.Machine
end

