-- ==== Sys2Proof/Machine/CanonicalAssign.lean ====
section
/-! DEFINITION. The canonical codeword assigner: ASSIGN (42_canonical_assign.md). -/

namespace Sys2Proof.Machine

/-- The canonical order: "first by length ascending, then by symbol value ascending" (00_scope.md R16). -/
abbrev canonicalLe (a b : AlphaEntry) : Prop :=
  a.len.toNat < b.len.toNat ∨ (a.len = b.len ∧ a.sym.toNat ≤ b.sym.toNat)

/-- `sortLS` (00_scope.md R16). -/
def sortLS (ps : List AlphaEntry) : List AlphaEntry := ps.insertionSort canonicalLe

/-- `Pairs(LEN)`: the present symbols with their lengths, in canonical order (42_canonical_assign.md R100). -/
def lenPairs (len : Table Byte) : List AlphaEntry :=
  sortLS ((allSymbols.filter fun s => tableAt len s != 0).map fun s => ⟨s, tableAt len s⟩)

/-- `CanonAssign` from entry `k` on (42_canonical_assign.md R101). `next` is the previous entry's value plus 1 and
`prev` its length; both are 0 before the first entry, whose value is then 0. -/
def canonFrom (next prev k : Nat) : List AlphaEntry → Except Nat (List Nat)
  | [] => .ok []
  | e :: rest =>
    let code := next * 2 ^ (e.len.toNat - prev)
    if e.len.toNat > Config.maxCodeLen ∨ code ≥ 2 ^ e.len.toNat then .error k
    else
      match canonFrom (code + 1) e.len.toNat (k + 1) rest with
      | .ok codes => .ok (code :: codes)
      | .error j => .error j

/-- `CanonAssign(P)`: the codeword values, or the index of the first entry that does not fit
(42_canonical_assign.md R101). -/
def canonAssign (ps : List AlphaEntry) : Except Nat (List Nat) := canonFrom 0 0 0 ps

/-- The CODE table of an alphabet and its codeword values: 0 for a symbol not in it (10_state.md R45). -/
def codeTableOf (ps : List AlphaEntry) (codes : List Nat) : Table CodeWord :=
  tableOf fun s =>
    match (ps.zip codes).find? fun p => p.1.sym == s with
    | some p => BitVec.ofNat 128 p.2
    | none => 0

/-- The ALPHA table of an alphabet: (0, 0) beyond its end (10_state.md R44). -/
def alphaTableOf (ps : List AlphaEntry) : Table AlphaEntry := tableOf fun k => ps.getD k.toNat ⟨0, 0⟩

/-- The LEN table of an alphabet: 0 for a symbol not in it (43_container.md R117). -/
def lenTableOf (ps : List AlphaEntry) : Table Byte :=
  tableOf fun s =>
    match ps.find? fun e => e.sym == s with
    | some e => e.len
    | none => 0

/-- MAXLEN of an alphabet: the length of its last entry, 0 when it is empty (10_state.md R38). -/
def maxLenOf (ps : List AlphaEntry) : Byte :=
  match ps.getLast? with
  | some e => e.len
  | none => 0

/-- ALPHA, ALPHA_N, CODE and MAXLEN written from a sorted alphabet and its codeword values
(42_canonical_assign.md R102, 43_container.md R117). -/
def installCode (ps : List AlphaEntry) (codes : List Nat) (s : State) : State :=
  { s with code := codeTableOf ps codes, alpha := alphaTableOf ps, alphaN := BitVec.ofNat 9 ps.length,
           maxLen := maxLenOf ps }

/-- The symbol of entry `k` of an alphabet, as an ERR_INFO value (60_exceptions.md R148). -/
def symbolInfo (ps : List AlphaEntry) (k : Nat) : Word := (ps.getD k ⟨0, 0⟩).sym.setWidth 32

/-- The pseudocode of ASSIGN on a working copy (42_canonical_assign.md R102). -/
def assignStage (s : State) : Except Failure State :=
  let ps := lenPairs s.len
  if ps = [] then .error ⟨.emptyAlphabet, 0⟩
  else
    match canonAssign ps with
    | .error k => .error ⟨.codeOverflow, symbolInfo ps k⟩
    | .ok codes => .ok (installCode ps codes s)

/-- ASSIGN (42_canonical_assign.md R102). -/
def execAssign (s : State) : Host.Outcome State Fault Refusal := .next (finish s (assignStage s))

end Sys2Proof.Machine
end

