-- ==== Sys2Proof/Machine/Container.lean ====
section
/-! DEFINITION. The container serializer and deserializer: SERIALIZE and DESERIALIZE (43_container.md). -/

namespace Sys2Proof.Machine

/-- `EncodeBits` from input index `i` on (43_container.md R108): the codewords of the bytes, concatenated, or the
index of the first byte that is in no entry of the alphabet. -/
def encodeFrom (entries : List AlphaEntry) (code : Table CodeWord) (i : Nat) : List Byte → Except Nat BitStr
  | [] => .ok []
  | b :: rest =>
    match entries.find? fun e => e.sym == b with
    | none => .error i
    | some e =>
      match encodeFrom entries code (i + 1) rest with
      | .ok bits => .ok (codewordOf code e ++ bits)
      | .error j => .error j

/-- `EncodeBits(m)` for the first bytes `input` of IBUF (43_container.md R108). -/
def encodeBits (entries : List AlphaEntry) (code : Table CodeWord) (input : List Byte) : Except Nat BitStr :=
  encodeFrom entries code 0 input

/-- The padding count of a bit string of length `l` (30_encoding.md R80). -/
def paddingCount (l : Nat) : Nat := (8 - l % 8) % 8

/-- The bytes of a bit string whose length is a multiple of 8, the first bit into bit 7 of the first byte
(20_memory.md R64, 43_container.md R109). -/
def packBytes : BitStr → List Byte
  | b7 :: b6 :: b5 :: b4 :: b3 :: b2 :: b1 :: b0 :: rest =>
    BitVec.ofNat 8 (val [b7, b6, b5, b4, b3, b2, b1, b0]) :: packBytes rest
  | _ => []

/-- The byte list of `Pack(bits)` (43_container.md R109): `bits` with its padding zeros appended, packed. -/
def packPayload (bits : BitStr) : List Byte :=
  packBytes (bits ++ List.replicate (paddingCount bits.length) false)

/-- The bytes of a container (30_encoding.md R76): padding count, alphabet size, lengths, symbols, payload. -/
def containerBytes (entries : List AlphaEntry) (bits : BitStr) : List Byte :=
  BitVec.ofNat 8 (paddingCount bits.length) :: BitVec.ofNat 8 entries.length ::
    (entries.map (·.len) ++ entries.map (·.sym) ++ packPayload bits)

/-- The pseudocode of SERIALIZE on a working copy (43_container.md R110). -/
def serializeStage (s : State) : Except Failure State :=
  match checkLength s with
  | .error f => .error f
  | .ok () =>
    if s.alphaN.toNat > Config.maxAlpha then .error ⟨.alphabetTooLarge, s.alphaN.setWidth 32⟩
    else
      match encodeBits (alphabet s) s.code (inputBytes s) with
      | .error i => .error ⟨.symbolUncoded, BitVec.ofNat 32 i⟩
      | .ok bits =>
        let total := (containerBytes (alphabet s) bits).length
        if total > s.bufBytes then .error ⟨.outputOverflow, BitVec.ofNat 32 total⟩
        else
          .ok { storeOutput (containerBytes (alphabet s) bits) s with
                pad := BitVec.ofNat 3 (paddingCount bits.length) }

/-- SERIALIZE (43_container.md R110). -/
def execSerialize (s : State) : Host.Outcome State Fault Refusal := .next (finishOutput s (serializeStage s))

/-- What `ParseHeader` returns (43_container.md R115): paddingBits, the (length, symbol) pairs in container order
(n of them), and the payload byte count. -/
structure Header where
  padding      : Nat
  entries      : List AlphaEntry
  payloadBytes : Nat
  deriving DecidableEq, Repr

/-- The pairs of a container with alphabet size `n`, in container order (30_encoding.md R76). -/
def containerEntries (ibuf : Memory) (n : Nat) : List AlphaEntry :=
  (List.range n).map fun k => ⟨ibuf.read (2 + n + k), ibuf.read (2 + k)⟩

/-- `ParseHeader(N)`, its checks in their order (43_container.md R115). -/
def parseHeader (ibuf : Memory) (size : Nat) : Except Failure Header :=
  let p := ibuf.read 0
  let n := ibuf.read 1
  if size < 2 then .error ⟨.truncatedHeader, 2⟩
  else if p.toNat > 7 then .error ⟨.corruptPadding, p.setWidth 32⟩
  else if n.toNat > Config.maxAlpha then .error ⟨.alphabetTooLarge, n.setWidth 32⟩
  else if size < 2 + 2 * n.toNat then .error ⟨.truncatedHeader, BitVec.ofNat 32 (2 + 2 * n.toNat)⟩
  else if size - 2 - 2 * n.toNat = 0 ∧ p.toNat > 0 then .error ⟨.corruptPadding, p.setWidth 32⟩
  else .ok ⟨p.toNat, containerEntries ibuf n.toNat, size - 2 - 2 * n.toNat⟩

/-- The first entry, from index `k` on, whose length is 0 or above MAX_CODE_LEN or whose symbol stands in `seen` or
in an earlier entry (43_container.md R116). -/
def badEntryFrom (seen : List Byte) (k : Nat) : List AlphaEntry → Option Nat
  | [] => none
  | e :: rest =>
    if e.len.toNat = 0 ∨ e.len.toNat > Config.maxCodeLen ∨ e.sym ∈ seen then some k
    else badEntryFrom (e.sym :: seen) (k + 1) rest

/-- `CheckTable(E)` (43_container.md R116): the sorted pairs and their codeword values, or CorruptTable with the
container index of the failing entry. -/
def checkTable (entries : List AlphaEntry) : Except Failure (List AlphaEntry × List Nat) :=
  match badEntryFrom [] 0 entries with
  | some k => .error ⟨.corruptTable, BitVec.ofNat 32 k⟩
  | none =>
    match canonAssign (sortLS entries) with
    | .error m =>
      .error ⟨.corruptTable,
        BitVec.ofNat 32 (entries.findIdx fun e => e.sym == ((sortLS entries).getD m ⟨0, 0⟩).sym)⟩
    | .ok codes => .ok (sortLS entries, codes)

/-- The registers and tables that a parsed container writes (43_container.md R117). -/
def installContainer (h : Header) (ps : List AlphaEntry) (codes : List Nat) (s : State) : State :=
  { installCode ps codes s with
    len := lenTableOf ps
    pad := BitVec.ofNat 3 h.padding
    payOff := BitVec.ofNat 32 (2 + 2 * h.entries.length)
    payBits := BitVec.ofNat 32 (8 * h.payloadBytes - h.padding) }

/-- The pseudocode of DESERIALIZE on a working copy (43_container.md R117). -/
def deserializeStage (s : State) : Except Failure State :=
  match checkLength s with
  | .error f => .error f
  | .ok () =>
    match parseHeader s.ibuf s.inLen.toNat with
    | .error f => .error f
    | .ok h =>
      match checkTable h.entries with
      | .error f => .error f
      | .ok (ps, codes) => .ok (installContainer h ps codes s)

/-- DESERIALIZE (43_container.md R117). -/
def execDeserialize (s : State) : Host.Outcome State Fault Refusal := .next (finish s (deserializeStage s))

end Sys2Proof.Machine
end

