-- ==== Sys2Proof/Machine/Frequency.lean ====
section
/-! DEFINITION. The frequency analyzer: COUNT (40_frequency.md). -/

namespace Sys2Proof.Machine

/-- `Count`: entry `s` is the number of positions of the input that hold `s` (40_frequency.md R87). -/
def countTable (input : List Byte) : Table Word := tableOf fun s => BitVec.ofNat 32 (input.count s)

/-- The pseudocode of COUNT on a working copy (40_frequency.md R88). -/
def countStage (s : State) : Except Failure State :=
  match checkLength s with
  | .error f => .error f
  | .ok () => .ok { s with freq := countTable (inputBytes s) }

/-- COUNT (40_frequency.md R88). -/
def execCount (s : State) : Host.Outcome State Fault Refusal := .next (finish s (countStage s))

end Sys2Proof.Machine
end

