-- ==== Sys2Proof/Machine/TreeBuilder.lean ====
section
/-! DEFINITION. The tree builder and code-length derivator: BUILD (41_tree_builder.md). -/

namespace Sys2Proof.Machine

/-- The code tree, transient inside one BUILD (00_scope.md R19, 10_state.md R46). -/
inductive CodeTree where
  | leaf (sym : Byte)
  | branch (left right : CodeTree)
  deriving DecidableEq, Repr

/-- A node of the priority queue: weight (32 bits, 00_scope.md R10), sequence number, tree (41_tree_builder.md R91). -/
structure Node where
  weight : Word
  seq    : Nat
  tree   : CodeTree
  deriving DecidableEq, Repr

/-- Node `a` precedes node `b`: by weight, then by sequence number (41_tree_builder.md R92). -/
abbrev nodePrecedes (a b : Node) : Prop :=
  a.weight.toNat < b.weight.toNat ∨ (a.weight = b.weight ∧ a.seq < b.seq)

/-- The queue, kept in priority order, with node `n` inserted: its first node is always its least
(41_tree_builder.md R92). -/
def insertNode (n : Node) : List Node → List Node
  | [] => [n]
  | m :: rest => if nodePrecedes n m then n :: m :: rest else m :: insertNode n rest

/-- The symbols with a nonzero frequency, in ascending order (41_tree_builder.md R91). -/
def presentSymbols (freq : Table Word) : List Byte := allSymbols.filter fun s => tableAt freq s != 0

/-- The leaves, one per present symbol, numbered 0, 1, ... in ascending symbol order (41_tree_builder.md R91). -/
def leafNodes (freq : Table Word) : List Node :=
  (presentSymbols freq).zipIdx.map fun p => ⟨tableAt freq p.1, p.2, .leaf p.1⟩

/-- The initial queue (41_tree_builder.md R91, R94). -/
def initialQueue (freq : Table Word) : List Node := (leafNodes freq).foldr insertNode []

/-- The node that combines the two least nodes `a` and `b`, `a` to the left (41_tree_builder.md R92). -/
def combineNodes (a b : Node) (seq : Nat) : Node := ⟨a.weight + b.weight, seq, .branch a.tree b.tree⟩

/-- "Repeatedly extract the two lowest-frequency entries, combine ..., and reinsert; repeat until one entry remains"
(41_tree_builder.md R92, R94). `fuel` bounds the combinations: a queue of m nodes takes m - 1. -/
def combineAll : Nat → Nat → List Node → Option CodeTree
  | _, _, [] => none
  | _, _, [n] => some n.tree
  | 0, _, _ :: _ :: _ => none
  | fuel + 1, seq, a :: b :: rest => combineAll fuel (seq + 1) (insertNode (combineNodes a b seq) rest)

/-- The code tree of a frequency table, none when every frequency is zero (41_tree_builder.md R94). -/
def codeTree (freq : Table Word) : Option CodeTree :=
  combineAll (leafNodes freq).length (leafNodes freq).length (initialQueue freq)

/-- The leaves of a tree whose root stands at depth `d`, each with its depth (41_tree_builder.md R93). -/
def leafDepths (d : Nat) : CodeTree → List (Byte × Nat)
  | .leaf s => [(s, d)]
  | .branch l r => leafDepths (d + 1) l ++ leafDepths (d + 1) r

/-- The length of symbol `s`: its leaf's depth, 1 in a single-leaf tree, 0 for an absent symbol (41_tree_builder.md R93). -/
def lengthIn (t : CodeTree) (s : Byte) : Nat :=
  match t with
  | .leaf x => if s = x then 1 else 0
  | .branch _ _ => ((leafDepths 0 t).lookup s).getD 0

/-- `BuildLengths(F)` (41_tree_builder.md R94). -/
def buildLengths (freq : Table Word) : Except Failure (Table Byte) :=
  match codeTree freq with
  | none => .error ⟨.emptyAlphabet, 0⟩
  | some t =>
    match allSymbols.find? fun s => decide (lengthIn t s > Config.maxCodeLen) with
    | some s => .error ⟨.codeOverflow, s.setWidth 32⟩
    | none => .ok (tableOf fun s => BitVec.ofNat 8 (lengthIn t s))

/-- ALPHA, ALPHA_N, CODE and MAXLEN cleared (41_tree_builder.md R95, 45_composite.md R130). -/
def clearCode (s : State) : State :=
  { s with code := tableOf fun _ => 0, alpha := tableOf fun _ => ⟨0, 0⟩, alphaN := 0, maxLen := 0 }

/-- The pseudocode of BUILD on a working copy (41_tree_builder.md R95). -/
def buildStage (s : State) : Except Failure State :=
  match buildLengths s.freq with
  | .error f => .error f
  | .ok lengths => .ok { clearCode s with len := lengths }

/-- BUILD (41_tree_builder.md R95). -/
def execBuild (s : State) : Host.Outcome State Fault Refusal := .next (finish s (buildStage s))

end Sys2Proof.Machine
end

