-- ==== Sys2Proof/Machine/Composite.lean ====
section
/-! DEFINITION. NOP, the composite commands ENCODE and DECODE, and illegal words (45_composite.md). -/

namespace Sys2Proof.Machine

/-- NOP (45_composite.md R129): completes OK, nothing else. -/
def execNop (s : State) : Host.Outcome State Fault Refusal := .next (finish s (.ok s))

/-- The completion of an illegal word (45_composite.md R133): BadCommand with ERR_INFO the latched word. -/
def completeIllegal (s : State) : State := finish s (.error ⟨.badCommand, s.lcmd⟩)

/-- The stage that follows on the working copy a stage leaves (45_composite.md R128). -/
def thenStage (r : Except Failure State) (stage : State → Except Failure State) : Except Failure State :=
  match r with
  | .ok t => stage t
  | .error f => .error f

/-- The table stages of ENCODE (45_composite.md R130): BUILD and ASSIGN, or for an empty input (R131) every table of
the code and LEN cleared. -/
def encodeTables (s : State) : Except Failure State :=
  if s.inLen = 0 then .ok { clearCode s with len := tableOf fun _ => 0 }
  else thenStage (buildStage s) assignStage

/-- The stages of ENCODE in order (45_composite.md R130). -/
def encodeStages (s : State) : Except Failure State :=
  thenStage (thenStage (countStage s) encodeTables) serializeStage

/-- ENCODE (45_composite.md R130). -/
def execEncode (s : State) : Host.Outcome State Fault Refusal := .next (finishOutput s (encodeStages s))

/-- The stages of DECODE in order (45_composite.md R132). -/
def decodeStages (s : State) : Except Failure State := thenStage (deserializeStage s) matchStage

/-- DECODE (45_composite.md R132). -/
def execDecode (s : State) : Host.Outcome State Fault Refusal := .next (finishOutput s (decodeStages s))

end Sys2Proof.Machine
end

