-- ==== Sys2Proof/Machine/Flags.lean ====
section
/-! DEFINITION. The STATUS and CTRL words, their write actions, the numbers of the status codes, and the IRQ output. -/

namespace Sys2Proof.Machine

/-- The number of a status code in STATUS.CODE (60_exceptions.md R144). -/
def codeNumber : Status → BitVec 4
  | .ok => 0
  | .emptyAlphabet => 1
  | .alphabetTooLarge => 2
  | .truncatedHeader => 3
  | .corruptPadding => 4
  | .unmatchedBits => 5
  | .codeOverflow => 6
  | .corruptTable => 7
  | .symbolUncoded => 8
  | .outputOverflow => 9
  | .badLength => 10
  | .badCommand => 11

/-- STATUS.BUSY mirrors ENG (10_state.md R29). -/
def statusBusy (s : State) : Bool := decide (s.eng = .busy)

/-- STATUS.ERR reads 1 exactly when STATUS.CODE is not 0 (10_state.md R31). -/
def statusErr (s : State) : Bool := decide (codeNumber s.statusCode ≠ 0)

/-- STATUS as read (10_state.md R28): bits 31:12 zero, CODE 11:8, bits 7:4 zero, OVR 3, ERR 2, DONE 1, BUSY 0. -/
def statusWord (s : State) : Word :=
  (0 : BitVec 20) ++ codeNumber s.statusCode ++ (0 : BitVec 4) ++ BitVec.ofBool s.ovr ++ BitVec.ofBool (statusErr s)
    ++ BitVec.ofBool s.done ++ BitVec.ofBool (statusBusy s)

/-- A host write of `w` to STATUS (10_state.md R28): clears DONE if `w[1]`, clears OVR if `w[3]`, nothing else. -/
def writeStatus (w : Word) (s : State) : State :=
  { s with done := s.done && !w.getLsbD 1, ovr := s.ovr && !w.getLsbD 3 }

/-- CTRL as read (10_state.md R26): IE in bit 0, SRST and the reserved bits 0. -/
def ctrlWord (s : State) : Word := (0 : BitVec 31) ++ BitVec.ofBool s.ie

/-- A host write of `w` to CTRL (10_state.md R26): bit 1 performs the soft reset, after which IE is 0; without it
bit 0 is the new IE. -/
def writeCtrl (w : Word) (s : State) : State :=
  if w.getLsbD 1 then softReset s else { s with ie := w.getLsbD 0 }

/-- A host write that arrives while BUSY and is dropped: it sets STATUS.OVR (10_state.md R32). -/
def dropWrite (s : State) : State := { s with ovr := true }

/-- The IRQ output, a level: CTRL.IE AND STATUS.DONE (10_state.md R50). -/
def irq (s : State) : Bool := s.ie && s.done

end Sys2Proof.Machine
end

