-- ==== Sys2Proof/Machine/HostBus.lean ====
section
/-! DEFINITION. The host's bus accesses to the register window (10_state.md R22, 20_memory.md). -/

namespace Sys2Proof.Machine

/-- ID (10_state.md R23). -/
def idWord : Word := 0x48554646

/-- PARAM (10_state.md R24): reserved 31:24, revision 1 in 23:16, MAX_ALPHA in 15:8, MAX_CODE_LEN in 7:0. -/
def paramWord : Word :=
  (0 : BitVec 8) ++ (1 : BitVec 8) ++ BitVec.ofNat 8 Config.maxAlpha ++ BitVec.ofNat 8 Config.maxCodeLen

/-- The host-bus address of a window offset (00_scope.md R11). -/
def busAddress (off : Nat) : Nat := Config.base + off

/-- The platform's decode of a host-bus address: the offset it reaches in the window, none outside it
(00_scope.md R11, 93_implementation_defined.md S8). -/
def windowOffset (addr : Nat) : Option Nat :=
  if Config.base ≤ addr ∧ addr < Config.base + Config.windowBytes then some (addr - Config.base) else none

/-- An ALPHA entry as its window word: `len << 8 | sym` (10_state.md R44). -/
def alphaWord (e : AlphaEntry) : Word := (0 : BitVec 16) ++ e.len ++ e.sym

/-- The first offset of the IBUF window (10_state.md R22). -/
abbrev ibufBase : Nat := 0x01000000

/-- The first offset of the OBUF window (10_state.md R22). -/
abbrev obufBase : Nat := 0x02000000

/-- The index of the table entry at offset `off` of a window at `base` with `stride` bytes an entry. -/
def entryIndex (base stride off : Nat) : Byte := BitVec.ofNat 8 ((off - base) / stride)

/-- The offset lies in the window of `size` bytes at `base`. -/
abbrev inWindow (base size off : Nat) : Prop := base ≤ off ∧ off < base + size

/-- A register, by its offset (10_state.md R22, R23 to R41); 0 at the reserved offsets and for CMD (R27). -/
def readRegister (s : State) (off : Nat) : Word :=
  if off = 0x0000 then idWord
  else if off = 0x0004 then paramWord
  else if off = 0x0008 then BitVec.ofNat 32 s.bufBytes
  else if off = 0x000C then ctrlWord s
  else if off = 0x0010 then 0
  else if off = 0x0014 then statusWord s
  else if off = 0x0018 then s.inLen
  else if off = 0x001C then s.outLen
  else if off = 0x0020 then s.errInfo
  else if off = 0x0024 then s.alphaN.setWidth 32
  else if off = 0x0028 then s.maxLen.setWidth 32
  else if off = 0x002C then s.pad.setWidth 32
  else if off = 0x0030 then s.payOff
  else if off = 0x0034 then s.payBits
  else 0

/-- The word at window offset `off` as the state has it (10_state.md R22, R42 to R49); reserved offsets read 0
(20_memory.md R57). -/
def exactRead (s : State) (off : Nat) : Word :=
  if off < 0x0400 then readRegister s off
  else if inWindow 0x0400 0x0400 off then tableAt s.freq (entryIndex 0x0400 4 off)
  else if inWindow 0x0800 0x0400 off then (tableAt s.len (entryIndex 0x0800 4 off)).setWidth 32
  else if inWindow 0x0C00 0x0400 off then alphaWord (tableAt s.alpha (entryIndex 0x0C00 4 off))
  else if inWindow 0x1000 0x1000 off then
    (tableAt s.code (entryIndex 0x1000 16 off)).extractLsb' (32 * ((off - 0x1000) % 16 / 4)) 32
  else if inWindow ibufBase s.bufBytes off then s.ibuf.readWord (off - ibufBase)
  else if inWindow obufBase s.bufBytes off then s.obuf.readWord (off - obufBase)
  else 0

/-- The offsets whose reads are unspecified while BUSY (70_reset_and_hazards.md R167): OUT_LEN to PAY_BITS, the table
windows and the OBUF window. Reserved offsets and CMD read 0 at all times (log 12). -/
def volatileOffset (s : State) (off : Nat) : Bool :=
  decide (inWindow 0x001C 0x001C off ∨ inWindow 0x0400 0x1C00 off ∨ inWindow obufBase s.bufBytes off)

/-- The read of `off` is one that returns an unspecified word (70_reset_and_hazards.md R167). -/
def readIsFree (s : State) (off : Nat) : Bool := statusBusy s && volatileOffset s off

/-- The word a host read of `off` returns: the exact word, or a free one (70_reset_and_hazards.md R167). -/
def busRead (s : State) (off : Nat) : Word :=
  if readIsFree s off then Config.freeWord s.draws else exactRead s off

/-- The state after a host read: reads have no side effect (20_memory.md R59); only the model's own counter of free
values moves, when one was drawn. -/
def afterRead (s : State) (off : Nat) : State :=
  if readIsFree s off then { s with draws := s.draws + 1 } else s

/-- A host write of `v` to CMD (10_state.md R27, 60_exceptions.md R142). -/
def writeCmd (v : Word) (s : State) : State :=
  match s.eng with
  | .idle => issue v s
  | .busy => dropWrite s

/-- A host write of `v` to IN_LEN (10_state.md R34). -/
def writeInLen (v : Word) (s : State) : State :=
  match s.eng with
  | .idle => { s with inLen := v }
  | .busy => dropWrite s

/-- A host write of `v` to the IBUF word at byte index `a` (10_state.md R48, 20_memory.md R58). -/
def writeIbuf (a : Nat) (v : Word) (s : State) : State :=
  match s.eng with
  | .idle => { s with ibuf := s.ibuf.writeWord a v }
  | .busy => dropWrite s

/-- The effect of a host write of `v` at window offset `off`: exactly CMD, STATUS, CTRL, IN_LEN and the IBUF words
have one (20_memory.md R60, R61); every other write is ignored (R57). -/
def busWrite (off : Nat) (v : Word) (s : State) : State :=
  if off = 0x000C then writeCtrl v s
  else if off = 0x0010 then writeCmd v s
  else if off = 0x0014 then writeStatus v s
  else if off = 0x0018 then writeInLen v s
  else if inWindow ibufBase s.bufBytes off then writeIbuf (off - ibufBase) v s
  else s

/-- Why a 32-bit access at `off` is not defined, none when it is (20_memory.md R55, R56). -/
def accessRefusal (off : Nat) : Option Refusal :=
  if off % 4 ≠ 0 then some (.misalignedAccess off)
  else if off < Config.windowBytes then none
  else some (.outsideWindow off)

/-- One host operation (30_encoding.md R85). `s` has the operation already taken off the host's pending list; a wait
whose condition does not hold puts itself back at the front. -/
def runHostOp (op : HostOp) (s : State) : Host.Outcome State Fault Refusal :=
  match op with
  | .stw off v =>
    match accessRefusal off with
    | some r => .refused r
    | none => .next (busWrite off v s)
  | .ldw off =>
    match accessRefusal off with
    | some r => .refused r
    | none => .next { afterRead s off with reads := busRead s off :: s.reads }
  | .wait =>
    if (busRead s 0x0014).getLsbD 0 then .next { s with host := .wait :: s.host } else .next s
  | .waitIrq => if irq s then .next s else .next { s with host := .waitIrq :: s.host }
  | .oddAccess width _ _ => .refused (.undefinedWidth width)

end Sys2Proof.Machine
end

