-- ==== Sys2Proof/Machine/Turns.lean ====
section
/-! DEFINITION. What each agent does when it is its turn (20_memory.md R66, 60_exceptions.md R150). -/

namespace Sys2Proof.Machine

/-- The engine's turn: while BUSY its completion step, which decodes LCMD and runs the command (60_exceptions.md R143);
while IDLE nothing, since "IDLE state is retained indefinitely" (R160). -/
def engineTurn (s : State) : Host.Outcome State Fault Refusal :=
  match s.eng with
  | .idle => .next s
  | .busy =>
    match decode s.lcmd with
    | .ok i => exec i s
    | .error _ => .next (completeIllegal s)

/-- The host's turn: its next pending operation; nothing when it has none. -/
def hostTurn (s : State) : Host.Outcome State Fault Refusal :=
  match s.host with
  | [] => .next s
  | op :: rest => runHostOp op { s with host := rest }

/-- The hard reset input's turn (70_reset_and_hazards.md R162). -/
def resetTurn (s : State) : Host.Outcome State Fault Refusal := .next (hardReset s)

/-- The turn of `t`. -/
def takeTurn (t : Turn) (s : State) : Host.Outcome State Fault Refusal :=
  match t with
  | .host => hostTurn s
  | .engine => engineTurn s
  | .reset => resetTurn s

/-- Who moves when the schedule says nothing: the engine while BUSY, so that a command completes
(70_reset_and_hazards.md R170, weak fairness), else the host. -/
def defaultTurn (s : State) : Turn :=
  match s.eng with
  | .busy => .engine
  | .idle => .host

/-- One step of the interleaving: the scheduled turn, or else the default one. -/
def nextTurn (s : State) : Host.Outcome State Fault Refusal :=
  match s.sched with
  | t :: rest => takeTurn t { s with sched := rest }
  | [] => takeTurn (defaultTurn s) s

/-- The state in which the very next step is the engine's completion of the command word `w`: `w` issued, and the
engine's turn first in the schedule. -/
def latchCommand (w : Word) (s : State) : State := { issue w s with sched := .engine :: s.sched }

end Sys2Proof.Machine
end

