-- ==== Sys2Proof/Machine/Step.lean ====
section
/-! DEFINITION. One step of the machine, and where it takes its next command word from. -/

namespace Sys2Proof.Machine

/-- One step: a host access, an engine completion or a hard reset (60_exceptions.md R150). -/
def step (s : State) : Host.Outcome State Fault Refusal := nextTurn s

/-- `s` with the command word `w` latched and issued, and the engine next to move: there is no fetch and no program
counter, LCMD takes their place (10_state.md R21, 20_memory.md R69). It stands for the host's write of `w` to CMD. Log 9. -/
def State.withFetchWord (s : State) (nbits w : Nat) : State := latchCommand (commandWordOf nbits w) s

end Sys2Proof.Machine
end

