-- ==== Sys2Proof/Machine/HostProgram.lean ====
section
/-! DEFINITION. The pseudo-operations of host programs and their expansions (30_encoding.md R86). -/

namespace Sys2Proof.Machine

/-- `CMD op`: write the command's word to CMD. -/
def cmdOps (i : Instr) : List HostOp := [.stw 0x0010 (encode i)]

/-- `RUN op`: `CMD op`, then `WAIT`. -/
def runOps (i : Instr) : List HostOp := cmdOps i ++ [.wait]

/-- `ACK`: clear DONE and OVR. -/
def ackOps : List HostOp := [.stw 0x0014 0x0000000A]

/-- `IEN`: set CTRL.IE. -/
def ienOps : List HostOp := [.stw 0x000C 0x00000001]

/-- `SRST`: soft reset. -/
def srstOps : List HostOp := [.stw 0x000C 0x00000002]

/-- The bus word of up to four bytes, missing bytes 0 (30_encoding.md R86). -/
def loadWord (bytes : List Byte) : Word :=
  bytes.getD 3 0 ++ bytes.getD 2 0 ++ bytes.getD 1 0 ++ bytes.getD 0 0

/-- `LOAD b0, ..., b(m-1)`: the bytes into IBUF, four a word, then IN_LEN (30_encoding.md R86). -/
def loadOps (bytes : List Byte) : List HostOp :=
  ((List.range ((bytes.length + 3) / 4)).map fun k =>
    HostOp.stw (ibufBase + 4 * k) (loadWord ((bytes.drop (4 * k)).take 4)))
  ++ [.stw 0x0018 (BitVec.ofNat 32 bytes.length)]

/-- A host program is well formed when each of its operations is (20_memory.md R55, R56). -/
def hostProgramWellFormed (ops : List HostOp) : Bool := ops.all HostOp.wellFormed

end Sys2Proof.Machine
end

