-- ==== Sys2Proof/Safety.lean ====
section
/-! DEFINITION. The terms claims use: which agent acts in a step, the invariants of the block, and safe runs. -/

namespace Sys2Proof.Machine

/-- In the next step of `s` the host performs `op`; `s'` is `s` with that operation and that turn taken off. -/
def HostActs (s : State) (op : HostOp) (s' : State) : Prop :=
  ∃ rest, s.host = op :: rest ∧
    ((∃ turns, s.sched = .host :: turns ∧ s' = { s with host := rest, sched := turns }) ∨
      (s.sched = [] ∧ s.eng = .idle ∧ s' = { s with host := rest }))

/-- In the next step of `s` the engine, BUSY, takes its completion step; `s'` is `s` with that turn taken off. -/
def EngineActs (s s' : State) : Prop :=
  s.eng = .busy ∧ ((∃ turns, s.sched = .engine :: turns ∧ s' = { s with sched := turns }) ∨ (s.sched = [] ∧ s' = s))

/-- The output commands (10_state.md R35). -/
def isOutputCommand : Instr → Bool
  | .serialize | .matchBits | .encode | .decode => true
  | .nop | .count | .build | .assign | .deserialize => false

/-- The commands that read IN_LEN (60_exceptions.md R145). -/
def readsInLen : Instr → Bool
  | .count | .serialize | .deserialize | .encode | .decode => true
  | .nop | .build | .assign | .matchBits => false

/-- FREQ, LEN, ALPHA, ALPHA_N, CODE, MAXLEN, PAD, PAY_OFF and PAY_BITS are the same (60_exceptions.md R147). -/
def SameTables (s t : State) : Prop :=
  t.freq = s.freq ∧ t.len = s.len ∧ t.alpha = s.alpha ∧ t.alphaN = s.alphaN ∧ t.code = s.code ∧
    t.maxLen = s.maxLen ∧ t.pad = s.pad ∧ t.payOff = s.payOff ∧ t.payBits = s.payBits

/-- The codeword of symbol `b` in the alphabet the tables hold, empty when it has none (43_container.md R108). -/
def symbolCodeword (s : State) (b : Byte) : BitStr :=
  match (alphabet s).find? fun e => e.sym == b with
  | some e => codewordOf s.code e
  | none => []

/-- The codewords of the bytes `text`, "concatenated in input order into one bit sequence" (30_encoding.md R79). -/
def encodeText (s : State) (text : List Byte) : BitStr := text.flatMap (symbolCodeword s)

/-- Every byte of `text` has a codeword (43_container.md R108). -/
def Encodable (s : State) (text : List Byte) : Prop := ∀ b ∈ text, ∃ e ∈ alphabet s, e.sym = b

/-- The Kraft sum of an alphabet in units of 2^-255 (42_canonical_assign.md R106); every length is at most 255. -/
def kraftSum (ps : List AlphaEntry) : Nat := (ps.map fun e => 2 ^ (255 - e.len.toNat)).sum

/-- The number of distinct byte values of `text` (45_composite.md R130). -/
def distinctCount (text : List Byte) : Nat := text.dedup.length

/-- Node `a` precedes every node of `q`: it weighs less, or as much with a smaller sequence number (41_tree_builder.md R92). -/
def PrecedesAll (a : Node) (q : List Node) : Prop :=
  ∀ n ∈ q, a.weight.toNat < n.weight.toNat ∨ (a.weight = n.weight ∧ a.seq < n.seq)

/-- The combinations of 41_tree_builder.md R92 on a queue in no order: from the nodes `q`, with `seq` the next unused
sequence number, they end in the tree `t`. While two or more nodes remain, the least node `a` and the least remaining
node `b` are replaced by their Branch, `a` to the left. -/
inductive CombinesTo : List Node → Nat → CodeTree → Prop where
  /-- One node is left. -/
  | single (n : Node) (seq : Nat) : CombinesTo [n] seq n.tree
  /-- One combination. -/
  | combine {q rest : List Node} {a b : Node} {seq : Nat} {t : CodeTree} (nodes : q.Perm (a :: b :: rest))
      (least : PrecedesAll a (b :: rest)) (next : PrecedesAll b rest)
      (more : CombinesTo (⟨a.weight + b.weight, seq, .branch a.tree b.tree⟩ :: rest) (seq + 1) t) : CombinesTo q seq t

/-- The tables of a cleared code (10_state.md R52 (a)). -/
def CodeCleared (s : State) : Prop :=
  s.alphaN = 0 ∧ (∀ k, tableAt s.alpha k = ⟨0, 0⟩) ∧ (∀ b, tableAt s.code b = 0) ∧ s.maxLen = 0

/-- A canonical alphabet: sorted, symbols distinct, lengths in 1 .. MAX_CODE_LEN (10_state.md R52 (b)). -/
def CanonicalAlphabet (ps : List AlphaEntry) : Prop :=
  ps.Pairwise canonicalLe ∧ (ps.map (·.sym)).Nodup ∧ ∀ e ∈ ps, 1 ≤ e.len.toNat ∧ e.len.toNat ≤ Config.maxCodeLen

/-- The tables hold the alphabet `ps` with the codeword values `codes` (10_state.md R52 (b)). -/
def HoldsCode (s : State) (ps : List AlphaEntry) (codes : List Nat) : Prop :=
  ps ≠ [] ∧ CanonicalAlphabet ps ∧ canonAssign ps = .ok codes ∧ s.alphaN.toNat = ps.length ∧
    (∀ k, tableAt s.alpha k = ps.getD k.toNat ⟨0, 0⟩) ∧
    (∀ e ∈ ps, tableAt s.len e.sym = e.len) ∧
    (∀ p ∈ ps.zip codes, (tableAt s.code p.1.sym).toNat = p.2) ∧
    (∀ b, b ∉ ps.map (·.sym) → tableAt s.code b = 0) ∧
    s.maxLen = maxLenOf ps

/-- The table coherence invariant (10_state.md R52). -/
def TablesCoherent (s : State) : Prop := CodeCleared s ∨ ∃ ps codes, HoldsCode s ps codes

/-- The lengths in LEN fit a canonical code, so that ASSIGN cannot overflow (42_canonical_assign.md R106). -/
def LengthsFit (s : State) : Prop := ∃ codes, canonAssign (lenPairs s.len) = .ok codes

/-- The frequencies count at most BUF_BYTES bytes (40_frequency.md R89). -/
def FrequenciesBounded (s : State) : Prop :=
  (allSymbols.map fun b => (tableAt s.freq b).toNat).sum ≤ s.bufBytes

/-- OBUF holds exactly OUT_LEN specified bytes, at its start (10_state.md R35, R49). -/
def OutputHeld (s : State) : Prop :=
  ∃ out, s.obuf = Memory.ofBytes s.obuf.draw out ∧ s.outLen.toNat = out.length ∧ out.length ≤ s.bufBytes

/-- The invariant of the block: what every state reachable from reset satisfies. -/
structure Inv (s : State) : Prop where
  /-- BUF_BYTES has an admitted value (00_scope.md R8). -/
  admitted : bufBytesAdmitted s.bufBytes = true
  /-- 10_state.md R52. -/
  tables : TablesCoherent s
  /-- 42_canonical_assign.md R106. -/
  lengths : LengthsFit s
  /-- 10_state.md R41. -/
  payload : payloadInBuffer s = true
  /-- 40_frequency.md R89. -/
  freq : FrequenciesBounded s
  /-- IBUF is in canonical form and inside its capacity. -/
  ibuf : s.ibuf.wf ∧ s.ibuf.within s.bufBytes
  /-- 10_state.md R49. -/
  output : OutputHeld s
  /-- The buffers' free values come from different draws, already taken. -/
  drawn : s.ibuf.draw < s.draws ∧ s.obuf.draw < s.draws ∧ s.ibuf.draw ≠ s.obuf.draw
  /-- While BUSY, DONE and CODE are 0 (10_state.md R30, R33). -/
  busy : s.eng = .busy → s.done = false ∧ s.statusCode = .ok
  /-- ERR_INFO is 0 after an OK completion and after reset (10_state.md R36). -/
  errInfo : s.eng = .idle → s.statusCode = .ok → s.errInfo = 0

/-- A safe run: it never stops with a fault, however long it is. -/
def NeverFaults (s : State) : Prop := ∀ n f, Host.Core.run Sys2Proof.core n s ≠ .fault f

end Sys2Proof.Machine
end

