-- ==== Sys2Proof/Certificates/Slice0/Obligations.lean ====
section
/-! DEFINITION. The statements for the provers. Each docstring names the rule of spec/ it formalises. -/

open Sys2Proof Sys2Proof.Machine

/-! ### Encoding -/

/-- 30_encoding.md R72: the nine command words, written out bit by bit. -/
def Obligations.CommandWordsDecode : Prop :=
  decode 0b00000000000000000000000000000000#32 = .ok .nop ∧
  decode 0b00000000000000000000000000000001#32 = .ok .count ∧
  decode 0b00000000000000000000000000000010#32 = .ok .build ∧
  decode 0b00000000000000000000000000000011#32 = .ok .assign ∧
  decode 0b00000000000000000000000000000100#32 = .ok .serialize ∧
  decode 0b00000000000000000000000000000101#32 = .ok .deserialize ∧
  decode 0b00000000000000000000000000000110#32 = .ok .matchBits ∧
  decode 0b00000000000000000000000000000111#32 = .ok .encode ∧
  decode 0b00000000000000000000000000001000#32 = .ok .decode

/-- 30_encoding.md R73 and R74: a word selects the command whose OP is `w[3:0]` exactly when `w[31:4] = 0` and
`w[3:0] <= 8`; decode and encode agree in both directions; every other word selects no command. -/
def Obligations.DecodingSelectsExactlyTheLegalWords : Prop :=
  (∀ i : Instr, i.wellFormed = true → decode (encode i) = .ok i) ∧
  (∀ (w : Word) (i : Instr), decode w = .ok i → w = encode i ∧ (opOf i).toNat = w.toNat % 16) ∧
  (∀ w : Word, (∃ i, decode w = .ok i) ↔ w.toNat / 16 = 0 ∧ w.toNat % 16 ≤ 8)

/-- 45_composite.md R133: illegal words. The word is still a command: its completion sets DONE and can raise IRQ;
OUT_LEN and OBUF are unchanged, as is everything else. -/
def Obligations.IllegalWordCompletesWithBadCommand : Prop :=
  (∀ w : Word, 9 ≤ w.toNat → ∀ i, decode w ≠ .ok i) ∧
  (∀ s s' : State, EngineActs s s' → (∀ i, decode s.lcmd ≠ .ok i) →
    ∃ t, step s = .next t ∧
      t = { s' with eng := .idle, done := true, statusCode := .badCommand, errInfo := s.lcmd } ∧
      irq t = s.ie ∧ (s.ovr = false → statusWord t = 0x00000B06))

/-! ### Steps, issue and completion -/

/-- 60_exceptions.md R143 and R150, 10_state.md R21: a step is one turn of one agent. The engine's turn while BUSY is
the completion of the instruction that LCMD decodes to; `withFetchWord` places exactly that. The host's turn is its
next operation. A turn of the engine while IDLE, of a host with nothing pending, and a step in which no turn is scheduled
and neither has anything to do change nothing but the schedule (60_exceptions.md R160), so that no command completes
twice. That the engine moves when the schedule is empty is the model's choice, log 8. -/
def Obligations.StepRunsTheLatchedCommand : Prop :=
  (∀ (s s' : State) (i : Instr), EngineActs s s' → decode s.lcmd = .ok i → step s = exec i s') ∧
  (∀ (s : State) (w : Nat) (i : Instr), decodeTableWord 32 w = some i →
    step (s.withFetchWord 32 w) = exec i (issue (BitVec.ofNat 32 w) s)) ∧
  (∀ (s s' : State) (op : HostOp), HostActs s op s' → step s = runHostOp op s') ∧
  (∀ s : State, s.eng = .idle → s.host = [] → s.sched = [] → step s = .next s) ∧
  (∀ (s : State) (turns : List Turn), s.eng = .idle → s.sched = .engine :: turns →
    step s = .next { s with sched := turns }) ∧
  (∀ (s : State) (turns : List Turn), s.host = [] → s.sched = .host :: turns → step s = .next { s with sched := turns })

/-- 60_exceptions.md R142: issue. A CMD write while IDLE latches the word, sets BUSY and clears DONE and CODE, and
nothing else changes; a CMD write while BUSY is dropped and sets OVR. 10_state.md R34: an IN_LEN write while IDLE stores
any 32-bit value as written; while BUSY it is dropped and sets OVR. -/
def Obligations.CmdWriteIssuesOrIsDropped : Prop :=
  (∀ (s s' : State) (v : Word), HostActs s (.stw 0x0010 v) s' →
    (s.eng = .idle →
      step s = .next { s' with lcmd := v, eng := .busy, done := false, statusCode := .ok } ∧
      ∀ t, step s = .next t → statusBusy t = true) ∧
    (s.eng = .busy → step s = .next { s' with ovr := true })) ∧
  (∀ (s s' : State) (v : Word), HostActs s (.stw 0x0018 v) s' →
    (s.eng = .idle → step s = .next { s' with inLen := v }) ∧
    (s.eng = .busy → step s = .next { s' with ovr := true }))

/-- 20_memory.md R61: while BUSY, writes to CMD, IN_LEN and the IBUF window are dropped and set OVR; writes to CTRL
and STATUS take effect as when idle. -/
def Obligations.BusyDropsOperandWrites : Prop :=
  ∀ (s s' : State) (off : Nat) (v : Word), HostActs s (.stw off v) s' → s.eng = .busy → off % 4 = 0 →
    (bufBytesAdmitted s.bufBytes = true →
      (off = 0x0010 ∨ off = 0x0018 ∨ (0x01000000 ≤ off ∧ off < 0x01000000 + s.bufBytes)) →
      step s = .next { s' with ovr := true }) ∧
    (off = 0x0014 → step s = .next { s' with done := s.done && !v[1], ovr := s.ovr && !v[3] }) ∧
    (off = 0x000C → v[1] = false → step s = .next { s' with ie := v[0] }) ∧
    (off = 0x000C → v[1] = true → step s = .next (softReset s'))

/-- 10_state.md R28, with R29 and R31: the STATUS layout as a host read sees it at all times, and the write that clears.
The numbers CODE holds are those of the table of 60_exceptions.md R144. -/
def Obligations.StatusReadsAndClears : Prop :=
  (∀ s s' : State, HostActs s (.ldw 0x0014) s' →
    ∃ t w, step s = .next t ∧ t = { s' with reads := w :: s.reads } ∧
      w[0] = decide (s.eng = .busy) ∧ w[1] = s.done ∧ w[2] = decide (s.statusCode ≠ .ok) ∧ w[3] = s.ovr ∧
      w.extractLsb' 4 4 = 0 ∧ w.extractLsb' 8 4 = codeNumber s.statusCode ∧ w.extractLsb' 12 20 = 0) ∧
  (∀ (s s' : State) (v : Word), HostActs s (.stw 0x0014 v) s' →
    step s = .next { s' with done := s.done && !v[1], ovr := s.ovr && !v[3] }) ∧
  statusWord State.reset = 0 ∧
  (codeNumber .ok = 0 ∧ codeNumber .emptyAlphabet = 1 ∧ codeNumber .alphabetTooLarge = 2 ∧
    codeNumber .truncatedHeader = 3 ∧ codeNumber .corruptPadding = 4 ∧ codeNumber .unmatchedBits = 5 ∧
    codeNumber .codeOverflow = 6 ∧ codeNumber .corruptTable = 7 ∧ codeNumber .symbolUncoded = 8 ∧
    codeNumber .outputOverflow = 9 ∧ codeNumber .badLength = 10 ∧ codeNumber .badCommand = 11)

/-- 10_state.md R26: CTRL. Bit 0 is IE, bit 1 the soft-reset action that reads 0, bits 31:2 read 0 and ignore writes. -/
def Obligations.CtrlReadsAndWrites : Prop :=
  (∀ s s' : State, HostActs s (.ldw 0x000C) s' →
    ∃ t w, step s = .next t ∧ t = { s' with reads := w :: s.reads } ∧ w[0] = s.ie ∧ w.extractLsb' 1 31 = 0) ∧
  (∀ (s s' : State) (v : Word), HostActs s (.stw 0x000C v) s' →
    (v[1] = false → step s = .next { s' with ie := v[0] }) ∧
    (v[1] = true → ∃ t, step s = .next t ∧ t = softReset s' ∧ t.ie = false)) ∧
  State.reset.ie = false

/-- 70_reset_and_hazards.md R163 with 10_state.md R53: the soft reset, field by field. IBUF is kept, OBUF and LCMD are
unspecified (free values of fresh draws, logs 4 and 5), every other piece of the block's state has its reset value.
That the environment (host, its reads, the schedule) survives is the model's choice, log 16. -/
def Obligations.SoftResetKeepsOnlyIbuf : Prop :=
  ∀ (s s' : State) (v : Word), HostActs s (.stw 0x000C v) s' → v[1] = true →
    ∃ t, step s = .next t ∧ t.eng = .idle ∧ t.ie = false ∧ t.done = false ∧ t.ovr = false ∧ t.statusCode = .ok ∧
      t.inLen = 0 ∧ t.outLen = 0 ∧ t.errInfo = 0 ∧ t.alphaN = 0 ∧ t.maxLen = 0 ∧ t.pad = 0 ∧ t.payOff = 0 ∧
      t.payBits = 0 ∧ (∀ b, tableAt t.freq b = 0) ∧ (∀ b, tableAt t.len b = 0) ∧
      (∀ k, tableAt t.alpha k = ⟨0, 0⟩) ∧ (∀ b, tableAt t.code b = 0) ∧ t.ibuf = s.ibuf ∧
      (∀ a, t.obuf.read a = Config.freeByte (s.draws + 1) a) ∧ t.lcmd = Config.freeWord (s.draws + 2) ∧
      s.draws + 2 < t.draws ∧ t.bufBytes = s.bufBytes ∧ irq t = false ∧
      t.host = s'.host ∧ t.reads = s.reads ∧ t.sched = s'.sched

/-- 70_reset_and_hazards.md R162 with 10_state.md R53: the hard reset from any state, field by field. IBUF and OBUF
bytes and LCMD are unspecified (free values of fresh, different draws, logs 3 to 5). That the environment (host, its
reads, the schedule) survives is the model's choice, log 16. -/
def Obligations.HardResetFromAnyState : Prop :=
  ∀ (s : State) (turns : List Turn), s.sched = .reset :: turns →
    ∃ t, step s = .next t ∧ t.eng = .idle ∧ t.ie = false ∧ t.done = false ∧ t.ovr = false ∧ t.statusCode = .ok ∧
      t.inLen = 0 ∧ t.outLen = 0 ∧ t.errInfo = 0 ∧ t.alphaN = 0 ∧ t.maxLen = 0 ∧ t.pad = 0 ∧ t.payOff = 0 ∧
      t.payBits = 0 ∧ (∀ b, tableAt t.freq b = 0) ∧ (∀ b, tableAt t.len b = 0) ∧
      (∀ k, tableAt t.alpha k = ⟨0, 0⟩) ∧ (∀ b, tableAt t.code b = 0) ∧
      (∀ a, t.ibuf.read a = Config.freeByte s.draws a) ∧ (∀ a, t.obuf.read a = Config.freeByte (s.draws + 1) a) ∧
      t.lcmd = Config.freeWord (s.draws + 2) ∧ s.draws + 2 < t.draws ∧ t.bufBytes = s.bufBytes ∧ irq t = false ∧
      t.host = s.host ∧ t.reads = s.reads ∧ t.sched = turns

/-- 70_reset_and_hazards.md R164: a reset while BUSY abandons the command: STATUS reads 0, no interrupt, none of its
results is written (every register and table a command writes has its reset value), and the engine's next turn
completes nothing. -/
def Obligations.ResetAbandonsTheCommand : Prop :=
  ∀ s t : State, s.eng = .busy →
    ((∃ turns, s.sched = .reset :: turns) ∨ (∃ (s' : State) (v : Word), HostActs s (.stw 0x000C v) s' ∧ v[1] = true)) →
    step s = .next t →
    statusWord t = 0 ∧ irq t = false ∧ SameTables State.reset t ∧ t.outLen = 0 ∧ t.errInfo = 0 ∧
      (∀ turns, t.sched = .engine :: turns → step t = .next { t with sched := turns })

/-- 10_state.md R53: the values that State.reset has, as host reads and outputs show them. -/
def Obligations.ResetStateReadsAsSpecified : Prop :=
  State.reset.eng = .idle ∧ busRead State.reset 0x0000 = 0x48554646 ∧ busRead State.reset 0x0004 = 0x0001807F ∧
  busRead State.reset 0x0008 = BitVec.ofNat 32 Config.bufBytes ∧ busRead State.reset 0x000C = 0 ∧
  busRead State.reset 0x0014 = 0 ∧ busRead State.reset 0x0018 = 0 ∧ busRead State.reset 0x001C = 0 ∧
  busRead State.reset 0x0020 = 0 ∧ busRead State.reset 0x0024 = 0 ∧ busRead State.reset 0x0028 = 0 ∧
  busRead State.reset 0x002C = 0 ∧ busRead State.reset 0x0030 = 0 ∧ busRead State.reset 0x0034 = 0 ∧
  (∀ b, tableAt State.reset.freq b = 0) ∧ (∀ b, tableAt State.reset.len b = 0) ∧
  (∀ k, tableAt State.reset.alpha k = ⟨0, 0⟩) ∧ (∀ b, tableAt State.reset.code b = 0) ∧ irq State.reset = false

/-- 60_exceptions.md R152: pending is DONE, set by every completion; the output is IE AND DONE; it is cleared by a W1C
write of STATUS bit 1, by the next issue or by reset; clearing IE masks it without clearing DONE. -/
def Obligations.InterruptFollowsCompletionAndEnable : Prop :=
  (∀ s : State, irq s = (s.ie && s.done)) ∧
  (∀ s s' t : State, EngineActs s s' → step s = .next t → t.done = true ∧ irq t = s.ie) ∧
  (∀ (s s' : State) (v : Word), HostActs s (.stw 0x0014 v) s' → v[1] = true →
    ∃ t, step s = .next t ∧ t.done = false ∧ irq t = false) ∧
  (∀ (s s' : State) (v : Word), HostActs s (.stw 0x0010 v) s' → s.eng = .idle →
    ∃ t, step s = .next t ∧ t.done = false ∧ irq t = false) ∧
  (∀ (s : State) (turns : List Turn), s.sched = .reset :: turns →
    ∃ t, step s = .next t ∧ t.done = false ∧ irq t = false) ∧
  (∀ (s s' : State) (v : Word), HostActs s (.stw 0x000C v) s' → v[1] = true →
    ∃ t, step s = .next t ∧ t.done = false ∧ irq t = false) ∧
  (∀ (s s' : State) (v : Word), HostActs s (.stw 0x000C v) s' → v[1] = false → v[0] = false →
    ∃ t, step s = .next t ∧ irq t = false ∧ t.done = s.done)

/-- 60_exceptions.md R143 and R146, with 10_state.md R34 and R48: every completion leaves IDLE and DONE set, ERR_INFO 0
on OK; no command changes IN_LEN, IBUF, CTRL.IE, OVR, LCMD or BUF_BYTES, or anything of the host's. -/
def Obligations.EveryCompletionSetsStatusAndKeepsInputs : Prop :=
  ∀ (i : Instr) (s t : State), exec i s = .next t →
    t.eng = .idle ∧ t.done = true ∧ (t.statusCode = .ok → t.errInfo = 0) ∧
      t.inLen = s.inLen ∧ t.ibuf = s.ibuf ∧ t.ie = s.ie ∧ t.ovr = s.ovr ∧ t.lcmd = s.lcmd ∧ t.bufBytes = s.bufBytes ∧
      t.host = s.host ∧ t.reads = s.reads ∧ t.sched = s.sched

/-- 60_exceptions.md R147: the effects of an error completion, for every command. The registers and tables keep their
values; an output command sets OUT_LEN to 0 and leaves every OBUF byte unspecified (93_implementation_defined.md S1);
a command that is none leaves OUT_LEN and OBUF unchanged. That each unspecified byte is a free value of a fresh draw is
the model's choice, logs 4 and 7. -/
def Obligations.ErrorCompletionDiscardsEverything : Prop :=
  ∀ (i : Instr) (s t : State), exec i s = .next t → t.statusCode ≠ .ok →
    SameTables s t ∧
      (isOutputCommand i = true → t.outLen = 0 ∧ (∀ a, t.obuf.read a = Config.freeByte s.draws a) ∧ s.draws < t.draws) ∧
      (isOutputCommand i = false → t.outLen = s.outLen ∧ t.obuf = s.obuf)

/-- The frame of every command, from 30_encoding.md R75 and 10_state.md R35 to R45: which commands alone write each
register, table and buffer. IBUF's frame is EveryCompletionSetsStatusAndKeepsInputs. The counter draws is the model's
own, log 7. -/
def Obligations.OnlyTheListedCommandsWriteEachTable : Prop :=
  ∀ (i : Instr) (s t : State), exec i s = .next t →
    (i ∉ [Instr.count, .encode] → t.freq = s.freq) ∧
    (i ∉ [Instr.build, .deserialize, .encode, .decode] → t.len = s.len) ∧
    (i ∉ [Instr.build, .assign, .deserialize, .encode, .decode] →
      t.alpha = s.alpha ∧ t.alphaN = s.alphaN ∧ t.code = s.code ∧ t.maxLen = s.maxLen) ∧
    (i ∉ [Instr.serialize, .deserialize, .encode, .decode] → t.pad = s.pad) ∧
    (i ∉ [Instr.deserialize, .decode] → t.payOff = s.payOff ∧ t.payBits = s.payBits) ∧
    (isOutputCommand i = false → t.outLen = s.outLen ∧ t.draws = s.draws ∧ ∀ a, t.obuf.read a = s.obuf.read a)

/-- 10_state.md R49, 20_memory.md R63: after an OK output command exactly the bytes below OUT_LEN are specified, OUT_LEN
is at most BUF_BYTES, and every byte at or beyond OUT_LEN is unspecified (a free value of a fresh draw, log 4). -/
def Obligations.OutputBytesBeyondOutLenAreUnspecified : Prop :=
  ∀ (i : Instr) (s t : State), isOutputCommand i = true → s.bufBytes < 2 ^ 32 → exec i s = .next t →
    t.statusCode = .ok →
    t.outLen.toNat ≤ s.bufBytes ∧ s.draws < t.draws ∧
      (∀ a, a < t.outLen.toNat → (t.obuf.cells.lookup a).isSome = true) ∧
      (∀ a, t.outLen.toNat ≤ a → t.obuf.read a = Config.freeByte s.draws a)

/-- 60_exceptions.md R145: every command that reads IN_LEN checks it against BUF_BYTES before anything else; NOP,
BUILD, ASSIGN and MATCH do not read IN_LEN: with any other value in it they leave the same state but for it. -/
def Obligations.LengthIsCheckedFirst : Prop :=
  (∀ (i : Instr) (s : State), readsInLen i = true → s.bufBytes < s.inLen.toNat →
    ∃ t, exec i s = .next t ∧ t.statusCode = .badLength ∧ t.errInfo = s.inLen ∧ SameTables s t) ∧
  (∀ (i : Instr) (s t : State) (n : Word), readsInLen i = false → exec i s = .next t →
    exec i { s with inLen := n } = .next { t with inLen := n } ∧ t.statusCode ≠ .badLength)

/-! ### Host reads and buffers -/

/-- 70_reset_and_hazards.md R167: while BUSY the result registers, tables and OBUF read as an unspecified word (a free
value, log 6); ID, PARAM, BUFSZ, CTRL, STATUS, IN_LEN and the IBUF window read exactly. -/
def Obligations.BusyReadsAreFreeOrExact : Prop :=
  ∀ (s s' : State) (off : Nat), HostActs s (.ldw off) s' → s.eng = .busy → off % 4 = 0 →
    bufBytesAdmitted s.bufBytes = true →
    ((off = 0x001C ∨ off = 0x0020 ∨ off = 0x0024 ∨ off = 0x0028 ∨ off = 0x002C ∨ off = 0x0030 ∨ off = 0x0034 ∨
        (0x0400 ≤ off ∧ off < 0x2000) ∨ (0x02000000 ≤ off ∧ off < 0x02000000 + s.bufBytes)) →
      step s = .next { s' with reads := Config.freeWord s.draws :: s.reads, draws := s.draws + 1 }) ∧
    ((off = 0x0000 ∨ off = 0x0004 ∨ off = 0x0008 ∨ off = 0x000C ∨ off = 0x0014 ∨ off = 0x0018 ∨
        (0x01000000 ≤ off ∧ off < 0x01000000 + s.bufBytes)) →
      step s = .next { s' with reads := exactRead s off :: s.reads })

/-- 20_memory.md R59: no host read has a side effect. Only the host's record of reads changes (and, for a free read
while BUSY, the model's own counter of free values, log 7); two reads of one offset with nothing between them agree when idle. -/
def Obligations.ReadsHaveNoSideEffect : Prop :=
  (∀ (s s' t : State) (off : Nat), HostActs s (.ldw off) s' → step s = .next t →
    { t with reads := s'.reads, draws := s'.draws } = s' ∧ (readIsFree s off = false → t.draws = s.draws)) ∧
  (∀ (s t u : State) (off : Nat) (rest : List HostOp), s.eng = .idle → s.sched = [] →
    s.host = .ldw off :: .ldw off :: rest → step s = .next t → step t = .next u →
    ∃ w, u.reads = w :: w :: s.reads)

/-- 20_memory.md R55 and R56: an aligned 32-bit access inside the window always has a step; every other access is
refused (the spec: "A model refuses such an access (it has no step)"). -/
def Obligations.OnlyAlignedWordAccessesHaveAStep : Prop :=
  (∀ (s s' : State) (off : Nat) (v : Word), HostActs s (.stw off v) s' →
    ((∃ t, step s = .next t) ↔ off % 4 = 0 ∧ off < 0x04000000)) ∧
  (∀ (s s' : State) (off : Nat), HostActs s (.ldw off) s' →
    ((∃ t, step s = .next t) ↔ off % 4 = 0 ∧ off < 0x04000000)) ∧
  (∀ (s s' : State) (width : OddWidth) (isWrite : Bool) (off : Nat), HostActs s (.oddAccess width isWrite off) s' →
    step s = .refused (.undefinedWidth width))

/-- 20_memory.md R58: buffer words are little-endian in byte lanes. -/
def Obligations.BufferWordsAreLittleEndian : Prop :=
  (∀ (s s' : State) (k : Nat) (v : Word), HostActs s (.stw (0x01000000 + 4 * k) v) s' → s.eng = .idle →
    bufBytesAdmitted s.bufBytes = true → 4 * k < s.bufBytes →
    ∃ t, step s = .next t ∧ t = { s' with ibuf := t.ibuf } ∧
      (∀ j, j < 4 → t.ibuf.read (4 * k + j) = v.extractLsb' (8 * j) 8) ∧
      (∀ a, ¬ (4 * k ≤ a ∧ a < 4 * k + 4) → t.ibuf.read a = s.ibuf.read a) ∧
      exactRead t (0x01000000 + 4 * k) = v) ∧
  (∀ (s : State) (k : Nat), bufBytesAdmitted s.bufBytes = true → 4 * k < s.bufBytes →
    (exactRead s (0x01000000 + 4 * k)).toNat =
      (s.ibuf.read (4 * k)).toNat + 2 ^ 8 * (s.ibuf.read (4 * k + 1)).toNat +
        2 ^ 16 * (s.ibuf.read (4 * k + 2)).toNat + 2 ^ 24 * (s.ibuf.read (4 * k + 3)).toNat ∧
    (exactRead s (0x02000000 + 4 * k)).toNat =
      (s.obuf.read (4 * k)).toNat + 2 ^ 8 * (s.obuf.read (4 * k + 1)).toNat +
        2 ^ 16 * (s.obuf.read (4 * k + 2)).toNat + 2 ^ 24 * (s.obuf.read (4 * k + 3)).toNat)

/-- 20_memory.md R66, 70_reset_and_hazards.md R168: a host read while IDLE records the word that the state holds at that
offset. What the words are: 10_state.md R23 to R25, R27 and R34 to R41 for the registers (CTRL and STATUS are
CtrlReadsAndWrites and StatusReadsAndClears), R42 to R45 for the table windows (the buffers are
BufferWordsAreLittleEndian). -/
def Obligations.TableWindowsReadTheTables : Prop :=
  (∀ (s s' : State) (off : Nat), HostActs s (.ldw off) s' → s.eng = .idle → off % 4 = 0 → off < 0x04000000 →
    step s = .next { s' with reads := exactRead s off :: s.reads }) ∧
  (∀ s : State,
    exactRead s 0x0000 = 0x48554646 ∧ exactRead s 0x0004 = 0x0001807F ∧
    exactRead s 0x0008 = BitVec.ofNat 32 s.bufBytes ∧ exactRead s 0x0010 = 0 ∧ exactRead s 0x0018 = s.inLen ∧
    exactRead s 0x001C = s.outLen ∧ exactRead s 0x0020 = s.errInfo ∧
    (exactRead s 0x0024).toNat = s.alphaN.toNat ∧ (exactRead s 0x0028).toNat = s.maxLen.toNat ∧
    (exactRead s 0x002C).toNat = s.pad.toNat ∧ exactRead s 0x0030 = s.payOff ∧ exactRead s 0x0034 = s.payBits) ∧
  (∀ (s : State) (b : Byte),
    exactRead s (0x0400 + 4 * b.toNat) = tableAt s.freq b ∧
    (exactRead s (0x0800 + 4 * b.toNat)).toNat = (tableAt s.len b).toNat ∧
    (exactRead s (0x0C00 + 4 * b.toNat)).toNat = 256 * (tableAt s.alpha b).len.toNat + (tableAt s.alpha b).sym.toNat ∧
    (tableAt s.code b).toNat =
      (exactRead s (0x1000 + 16 * b.toNat)).toNat + 2 ^ 32 * (exactRead s (0x1000 + 16 * b.toNat + 4)).toNat +
        2 ^ 64 * (exactRead s (0x1000 + 16 * b.toNat + 8)).toNat + 2 ^ 96 * (exactRead s (0x1000 + 16 * b.toNat + 12)).toNat)

/-- 20_memory.md R57 and R60: the host writes that have an effect are exactly those to CMD, STATUS, CTRL, IN_LEN and the
IBUF words; every other aligned write in the window is ignored (also while BUSY beyond BUF_BYTES in the IBUF window,
the model's reading of R61, log 11). CMD (10_state.md R27) and the reserved offsets read 0 (also while BUSY, the model's
reading of 70_reset_and_hazards.md R167, log 12), and so do the reserved fields of the registers. -/
def Obligations.ReservedReadsZeroAndIgnoresWrites : Prop :=
  (∀ (s s' : State) (off : Nat) (v : Word), HostActs s (.stw off v) s' → off % 4 = 0 → off < 0x04000000 →
    off ≠ 0x000C → off ≠ 0x0010 → off ≠ 0x0014 → off ≠ 0x0018 →
    ¬ (0x01000000 ≤ off ∧ off < 0x01000000 + s.bufBytes) → step s = .next s') ∧
  (∀ (s s' : State) (off : Nat), HostActs s (.ldw off) s' → bufBytesAdmitted s.bufBytes = true → off % 4 = 0 →
    (off = 0x0010 ∨ (0x0038 ≤ off ∧ off < 0x0400) ∨ (0x2000 ≤ off ∧ off < 0x01000000) ∨
      (0x03000000 ≤ off ∧ off < 0x04000000) ∨ (0x01000000 + s.bufBytes ≤ off ∧ off < 0x02000000) ∨
      (0x02000000 + s.bufBytes ≤ off ∧ off < 0x03000000)) →
    step s = .next { s' with reads := 0 :: s.reads }) ∧
  (∀ s : State,
    (exactRead s 0x0004).toNat < 2 ^ 24 ∧ (exactRead s 0x000C).toNat < 2 ∧ (exactRead s 0x0014).extractLsb' 4 4 = 0 ∧
    (exactRead s 0x0014).toNat < 2 ^ 12 ∧ (exactRead s 0x0024).toNat < 2 ^ 9 ∧ (exactRead s 0x0028).toNat < 2 ^ 8 ∧
    (exactRead s 0x002C).toNat < 2 ^ 3 ∧ ∀ off, 0x0C00 ≤ off → off < 0x1000 → (exactRead s off).toNat < 2 ^ 16)

/-! ### COUNT, BUILD, ASSIGN -/

/-- 45_composite.md R129: NOP completes OK and changes nothing but the status registers. -/
def Obligations.NopOnlyCompletes : Prop :=
  ∀ s : State, ∃ t, exec .nop s = .next t ∧
    t = { s with eng := .idle, done := true, statusCode := .ok, errInfo := 0 } ∧ irq t = s.ie

/-- 40_frequency.md R88 with R87: COUNT, its result and its one error. -/
def Obligations.CountCountsTheInput : Prop :=
  ∀ s : State,
    (s.bufBytes < s.inLen.toNat →
      exec .count s = .next { s with eng := .idle, done := true, statusCode := .badLength, errInfo := s.inLen }) ∧
    (s.inLen.toNat ≤ s.bufBytes → ∃ t, exec .count s = .next t ∧
      t = { s with freq := t.freq, eng := .idle, done := true, statusCode := .ok, errInfo := 0 } ∧
      ∀ b, (tableAt t.freq b).toNat = ((Finset.range s.inLen.toNat).filter fun i => s.ibuf.read i = b).card)

/-- 40_frequency.md R89: after a successful COUNT the entries sum to IN_LEN, and none is above 2^24. -/
def Obligations.CountsSumToTheLength : Prop :=
  ∀ s t : State, bufBytesAdmitted s.bufBytes = true → exec .count s = .next t → t.statusCode = .ok →
    (allSymbols.map fun b => (tableAt t.freq b).toNat).sum = s.inLen.toNat ∧ ∀ b, (tableAt t.freq b).toNat ≤ 2 ^ 24

/-- 41_tree_builder.md R95 with R94: BUILD. With every frequency 0 it ends with EmptyAlphabet; with frequencies that COUNT can
leave (40_frequency.md R89) it completes OK: LEN is BuildLengths(FREQ), the code tables are cleared, nothing else changes;
otherwise it ends with what BuildLengths returns, CodeOverflow with the least symbol that is too deep being the only
error left. -/
def Obligations.BuildWritesLengthsAndClearsTheCode : Prop :=
  ∀ s : State,
    ((∀ b, tableAt s.freq b = 0) →
      exec .build s = .next { s with eng := .idle, done := true, statusCode := .emptyAlphabet, errInfo := 0 }) ∧
    ((∃ b, tableAt s.freq b ≠ 0) → (allSymbols.map fun b => (tableAt s.freq b).toNat).sum ≤ 2 ^ 24 →
      ∃ L t, buildLengths s.freq = .ok L ∧ exec .build s = .next t ∧
        t = { s with len := L, alpha := t.alpha, alphaN := 0, code := t.code, maxLen := 0, eng := .idle, done := true,
                     statusCode := .ok, errInfo := 0 } ∧
        (∀ k, tableAt t.alpha k = ⟨0, 0⟩) ∧ ∀ b, tableAt t.code b = 0) ∧
    (∀ f, buildLengths s.freq = .error f → (∃ b, tableAt s.freq b ≠ 0) →
      f.status = .codeOverflow ∧
        (∃ T b, codeTree s.freq = some T ∧ f.info.toNat = b.toNat ∧ 127 < lengthIn T b ∧
          ∀ c : Byte, c.toNat < b.toNat → lengthIn T c ≤ 127) ∧
        exec .build s = .next { s with eng := .idle, done := true, statusCode := f.status, errInfo := f.info })

/-- 41_tree_builder.md R93, R96 and R98: the lengths of BuildLengths. Absent symbols get 0, a single symbol 1; with
m >= 2 symbols every symbol gets the depth of its leaf in the code tree, every length is in 1 .. m-1 and the Kraft sum
is exactly 1. Which tree it is says QueueStaysInPriorityOrder. -/
def Obligations.LengthsFormACompleteTree : Prop :=
  ∀ (freq : Table Word) (L : Table Byte), buildLengths freq = .ok L →
    (∀ b, tableAt freq b = 0 → tableAt L b = 0) ∧
    (∀ b, (presentSymbols freq) = [b] → tableAt L b = 1) ∧
    (2 ≤ (presentSymbols freq).length →
      (∃ T, codeTree freq = some T ∧ (∀ b, tableAt freq b ≠ 0 → ∃ d, (b, d) ∈ leafDepths 0 T) ∧
        ∀ b d, (b, d) ∈ leafDepths 0 T → (tableAt L b).toNat = d) ∧
      (∀ b, tableAt freq b ≠ 0 →
        1 ≤ (tableAt L b).toNat ∧ (tableAt L b).toNat ≤ (presentSymbols freq).length - 1) ∧
      kraftSum (lenPairs L) = 2 ^ 255)

/-- 41_tree_builder.md R91 and R92: the queue and the combinations. The leaves are the present symbols in ascending
order, numbered from 0; the queue holds them with each node before those it precedes by weight, then by sequence number;
inserting a node with an unused sequence number keeps that order. The code tree is exactly the tree that combining the
two least nodes, each time with the next unused sequence number, ends in (weights modulo 2^32, log 14; no sum wraps
after COUNT). -/
def Obligations.QueueStaysInPriorityOrder : Prop :=
  let precedes := fun a b : Node => a.weight.toNat < b.weight.toNat ∨ (a.weight = b.weight ∧ a.seq < b.seq)
  (∀ freq : Table Word,
    (∀ b, b ∈ presentSymbols freq ↔ tableAt freq b ≠ 0) ∧ (presentSymbols freq).Pairwise (fun a b => a.toNat < b.toNat) ∧
    (leafNodes freq).length = (presentSymbols freq).length ∧
    ∀ (k : Nat) (b : Byte), (presentSymbols freq)[k]? = some b →
      (leafNodes freq)[k]? = some ⟨tableAt freq b, k, .leaf b⟩) ∧
  (∀ freq : Table Word, (initialQueue freq).Perm (leafNodes freq) ∧ (initialQueue freq).Pairwise precedes) ∧
  (∀ (n : Node) (q : List Node), q.Pairwise precedes → (∀ m ∈ q, m.seq ≠ n.seq) →
    (insertNode n q).Perm (n :: q) ∧ (insertNode n q).Pairwise precedes) ∧
  (∀ (freq : Table Word) (T : CodeTree),
    codeTree freq = some T ↔ CombinesTo (leafNodes freq) (presentSymbols freq).length T)

/-- 41_tree_builder.md R99: with frequencies that sum to at most 2^24 every derived length is at most 34, so that
CodeOverflow is unreachable from BUILD and from ENCODE. -/
def Obligations.CodeOverflowIsUnreachable : Prop :=
  (∀ freq : Table Word, (allSymbols.map fun b => (tableAt freq b).toNat).sum ≤ 2 ^ 24 → (∃ b, tableAt freq b ≠ 0) →
    ∃ L, buildLengths freq = .ok L ∧ ∀ b, (tableAt L b).toNat ≤ 34) ∧
  (∀ s t : State, bufBytesAdmitted s.bufBytes = true → FrequenciesBounded s → exec .build s = .next t →
    t.statusCode ≠ .codeOverflow) ∧
  (∀ s t : State, bufBytesAdmitted s.bufBytes = true → exec .encode s = .next t → t.statusCode ≠ .codeOverflow)

/-- 42_canonical_assign.md R100 and R105: Pairs(LEN) holds exactly the present symbols with their lengths, in canonical
order, by length and then by symbol value (00_scope.md R16); and the canonical assignment depends only on the multiset
of pairs, not on the order they are supplied in. -/
def Obligations.PairsAreTheSortedPresentSymbols : Prop :=
  (∀ len : Table Byte,
    (∀ e : AlphaEntry, e ∈ lenPairs len ↔ e.len = tableAt len e.sym ∧ e.len ≠ 0) ∧
    (lenPairs len).Pairwise (fun a b =>
      a.len.toNat < b.len.toNat ∨ (a.len.toNat = b.len.toNat ∧ a.sym.toNat ≤ b.sym.toNat)) ∧ ((lenPairs len).map (·.sym)).Nodup) ∧
  (∀ ps qs : List AlphaEntry, ps.Perm qs →
    sortLS ps = sortLS qs ∧ canonAssign (sortLS ps) = canonAssign (sortLS qs) ∧
      (sortLS ps).Perm ps ∧ (sortLS ps).Pairwise canonicalLe)

/-- 42_canonical_assign.md R101: the recurrence of CanonAssign, and its failure. -/
def Obligations.CanonAssignRecurrence : Prop :=
  (∀ (ps : List AlphaEntry) (codes : List Nat), canonAssign ps = .ok codes ↔
    codes.length = ps.length ∧ ∀ k, k < ps.length →
      (ps.getD k ⟨0, 0⟩).len.toNat ≤ 127 ∧ codes.getD k 0 < 2 ^ (ps.getD k ⟨0, 0⟩).len.toNat ∧
      codes.getD k 0 = if k = 0 then 0 else
        (codes.getD (k - 1) 0 + 1) * 2 ^ ((ps.getD k ⟨0, 0⟩).len.toNat - (ps.getD (k - 1) ⟨0, 0⟩).len.toNat)) ∧
  (∀ (ps : List AlphaEntry) (k : Nat), canonAssign ps = .error k ↔
    k < ps.length ∧ ∃ codes, canonAssign (ps.take k) = .ok codes ∧
      ((ps.getD k ⟨0, 0⟩).len.toNat > 127 ∨
        2 ^ (ps.getD k ⟨0, 0⟩).len.toNat ≤ if k = 0 then 0 else
          (codes.getD (k - 1) 0 + 1) * 2 ^ ((ps.getD k ⟨0, 0⟩).len.toNat - (ps.getD (k - 1) ⟨0, 0⟩).len.toNat)))

/-- 42_canonical_assign.md R104: the codewords CanonAssign gives are distinct and prefix-free. -/
def Obligations.CanonicalCodewordsArePrefixFree : Prop :=
  ∀ (ps : List AlphaEntry) (codes : List Nat), ps.Pairwise canonicalLe → canonAssign ps = .ok codes →
    ∀ i j, i < ps.length → j < ps.length → i ≠ j →
      ¬ (bin (ps.getD i ⟨0, 0⟩).len.toNat (codes.getD i 0)).IsPrefix
        (bin (ps.getD j ⟨0, 0⟩).len.toNat (codes.getD j 0))

/-- 42_canonical_assign.md R106: CanonAssign fails exactly when the Kraft inequality is violated; and ASSIGN's
CodeOverflow is unreachable: no state that satisfies the invariant gives it. -/
def Obligations.AssignmentFailsExactlyWhenOverfull : Prop :=
  (∀ ps : List AlphaEntry, ps.Pairwise canonicalLe → (∀ e ∈ ps, 1 ≤ e.len.toNat ∧ e.len.toNat ≤ 127) →
    ((∃ k, canonAssign ps = .error k) ↔ 2 ^ 255 < kraftSum ps)) ∧
  (∀ s t : State, Inv s → exec .assign s = .next t → t.statusCode ≠ .codeOverflow)

/-- 42_canonical_assign.md R102: ASSIGN, its result and its errors. MAXLEN is the last entry's length (10_state.md R38). -/
def Obligations.AssignWritesTheCanonicalCode : Prop :=
  ∀ s : State,
    ((∀ b, tableAt s.len b = 0) →
      exec .assign s = .next { s with eng := .idle, done := true, statusCode := .emptyAlphabet, errInfo := 0 }) ∧
    (∀ k, canonAssign (lenPairs s.len) = .error k → ∃ t, exec .assign s = .next t ∧
      t = { s with eng := .idle, done := true, statusCode := .codeOverflow, errInfo := t.errInfo } ∧
      t.errInfo.toNat = ((lenPairs s.len).getD k ⟨0, 0⟩).sym.toNat) ∧
    (∀ codes, (∃ b, tableAt s.len b ≠ 0) → canonAssign (lenPairs s.len) = .ok codes → ∃ t, exec .assign s = .next t ∧
      t = { s with alpha := t.alpha, alphaN := t.alphaN, code := t.code, maxLen := t.maxLen, eng := .idle, done := true,
                   statusCode := .ok, errInfo := 0 } ∧
      HoldsCode t (lenPairs s.len) codes ∧
      t.maxLen = ((lenPairs s.len).getD ((lenPairs s.len).length - 1) ⟨0, 0⟩).len)

/-! ### SERIALIZE and DESERIALIZE -/

/-- 43_container.md R109, with 30_encoding.md R80 and 20_memory.md R64: Pack. The padding count makes the length a
multiple of 8, and bit j of the packed bytes, most significant first, is bit j of the string, 0 beyond its end. -/
def Obligations.PackKeepsEveryBit : Prop :=
  ∀ bits : BitStr,
    paddingCount bits.length = (8 - bits.length % 8) % 8 ∧ (bits.length + paddingCount bits.length) % 8 = 0 ∧
    (packPayload bits).length = (bits.length + paddingCount bits.length) / 8 ∧
    ∀ j, j < bits.length + paddingCount bits.length →
      ((packPayload bits).getD (j / 8) 0).getLsbD (7 - j % 8) = bits.getD j false

/-- 43_container.md R110, with R108 and R109: SERIALIZE where it completes OK. Every byte of the container, PAD,
OUT_LEN, and the frame; OBUF bytes beyond the container are unspecified (free values of a fresh draw, the model's choice,
logs 4 and 7). What its words are made of: a codeword is LEN bits, the first of them bit LEN - 1 of CODE (30_encoding.md
R81, 00_scope.md R14); the text's bits are the codewords of its bytes in order (R79); the alphabet is the first ALPHA_N
entries of ALPHA (10_state.md R44), and the input the first IN_LEN bytes of IBUF (R34). -/
def Obligations.SerializeWritesTheContainer : Prop :=
  (∀ (code : Table CodeWord) (e : AlphaEntry), (codewordOf code e).length = e.len.toNat ∧
    ∀ k, k < e.len.toNat →
      (codewordOf code e).getD k false = decide ((tableAt code e.sym).toNat / 2 ^ (e.len.toNat - 1 - k) % 2 = 1)) ∧
  (∀ (s : State) (b : Byte) (text : List Byte), encodeText s [] = [] ∧
    encodeText s (b :: text) = symbolCodeword s b ++ encodeText s text) ∧
  (∀ (s : State) (e : AlphaEntry), ((alphabet s).map (·.sym)).Nodup → e ∈ alphabet s →
    symbolCodeword s e.sym = codewordOf s.code e) ∧
  (∀ s : State, s.alphaN.toNat ≤ 256 → (alphabet s).length = s.alphaN.toNat ∧
    ∀ k : Byte, k.toNat < s.alphaN.toNat → (alphabet s)[k.toNat]? = some (tableAt s.alpha k)) ∧
  (∀ s : State, (inputBytes s).length = s.inLen.toNat ∧
    ∀ i, i < s.inLen.toNat → (inputBytes s)[i]? = some (s.ibuf.read i)) ∧
  (∀ s : State, bufBytesAdmitted s.bufBytes = true → s.inLen.toNat ≤ s.bufBytes → s.alphaN.toNat ≤ 128 →
    Encodable s (inputBytes s) →
    2 + 2 * s.alphaN.toNat + ((encodeText s (inputBytes s)).length + 7) / 8 ≤ s.bufBytes →
    ∃ t, exec .serialize s = .next t ∧
      t = { s with obuf := t.obuf, outLen := t.outLen, pad := t.pad, draws := s.draws + 1, eng := .idle, done := true,
                   statusCode := .ok, errInfo := 0 } ∧
      t.outLen.toNat = 2 + 2 * s.alphaN.toNat + ((encodeText s (inputBytes s)).length + 7) / 8 ∧
      t.pad.toNat = (8 - (encodeText s (inputBytes s)).length % 8) % 8 ∧
      (t.obuf.read 0).toNat = t.pad.toNat ∧ (t.obuf.read 1).toNat = s.alphaN.toNat ∧
      (∀ k : Byte, k.toNat < s.alphaN.toNat →
        t.obuf.read (2 + k.toNat) = (tableAt s.alpha k).len ∧
        t.obuf.read (2 + s.alphaN.toNat + k.toNat) = (tableAt s.alpha k).sym) ∧
      (∀ j, j < (encodeText s (inputBytes s)).length + t.pad.toNat →
        payloadBit t.obuf (2 + 2 * s.alphaN.toNat) j = (encodeText s (inputBytes s)).getD j false) ∧
      (∀ a, t.outLen.toNat ≤ a → t.obuf.read a = Config.freeByte s.draws a))

/-- 43_container.md R110 to R112, 60_exceptions.md R149: SERIALIZE's errors in their check order. -/
def Obligations.SerializeReportsItsFirstError : Prop :=
  ∀ s : State, s.bufBytes < 2 ^ 25 → s.inLen.toNat ≤ s.bufBytes →
    (128 < s.alphaN.toNat → ∃ t, exec .serialize s = .next t ∧ t.statusCode = .alphabetTooLarge ∧
      t.errInfo.toNat = s.alphaN.toNat ∧ t.outLen = 0 ∧ SameTables s t) ∧
    (s.alphaN.toNat ≤ 128 → ∀ i, i < s.inLen.toNat → Encodable s ((inputBytes s).take i) →
      (∀ e ∈ alphabet s, e.sym ≠ s.ibuf.read i) →
      ∃ t, exec .serialize s = .next t ∧ t.statusCode = .symbolUncoded ∧ t.errInfo.toNat = i ∧ t.outLen = 0 ∧
        SameTables s t) ∧
    (s.alphaN.toNat ≤ 128 → Encodable s (inputBytes s) →
      s.bufBytes < 2 + 2 * s.alphaN.toNat + ((encodeText s (inputBytes s)).length + 7) / 8 →
      ∃ t, exec .serialize s = .next t ∧ t.statusCode = .outputOverflow ∧
        t.errInfo.toNat = 2 + 2 * s.alphaN.toNat + ((encodeText s (inputBytes s)).length + 7) / 8 ∧ t.outLen = 0 ∧
        SameTables s t)

/-- 43_container.md R115, 60_exceptions.md R149: the header checks of DESERIALIZE, each in its place in the order. -/
def Obligations.DeserializeChecksTheHeaderInOrder : Prop :=
  ∀ s : State, s.inLen.toNat ≤ s.bufBytes →
    let p := (s.ibuf.read 0).toNat
    let n := (s.ibuf.read 1).toNat
    let fails := fun (c : Status) (info : Nat) =>
      exec .deserialize s =
        .next { s with eng := .idle, done := true, statusCode := c, errInfo := BitVec.ofNat 32 info }
    (s.inLen.toNat < 2 → fails .truncatedHeader 2) ∧
    (2 ≤ s.inLen.toNat → 7 < p → fails .corruptPadding p) ∧
    (2 ≤ s.inLen.toNat → p ≤ 7 → 128 < n → fails .alphabetTooLarge n) ∧
    (2 ≤ s.inLen.toNat → p ≤ 7 → n ≤ 128 → s.inLen.toNat < 2 + 2 * n → fails .truncatedHeader (2 + 2 * n)) ∧
    (p ≤ 7 → n ≤ 128 → s.inLen.toNat = 2 + 2 * n → 0 < p → fails .corruptPadding p)

/-- 43_container.md R116: CheckTable. It accepts exactly the lists with lengths in 1..127, distinct symbols and a Kraft
sum of at most 1, and gives them sorted with CanonAssign's values; otherwise it reports the first bad entry, or the
container index of the entry that does not fit. -/
def Obligations.CheckTableAcceptsExactlyTheFittingTables : Prop :=
  ∀ es : List AlphaEntry,
    let bad := fun k => (es.getD k ⟨0, 0⟩).len.toNat = 0 ∨ 127 < (es.getD k ⟨0, 0⟩).len.toNat ∨
      ∃ j, j < k ∧ (es.getD j ⟨0, 0⟩).sym = (es.getD k ⟨0, 0⟩).sym
    (∀ ps codes, checkTable es = .ok (ps, codes) ↔
      (∀ k, k < es.length → ¬ bad k) ∧ ps = sortLS es ∧ canonAssign ps = .ok codes) ∧
    ((∀ k, k < es.length → ¬ bad k) → ((∃ r, checkTable es = .ok r) ↔ kraftSum es ≤ 2 ^ 255)) ∧
    (∀ k, k < es.length → bad k → (∀ j, j < k → ¬ bad j) →
      checkTable es = .error ⟨.corruptTable, BitVec.ofNat 32 k⟩) ∧
    ((∀ k, k < es.length → ¬ bad k) → ∀ m, canonAssign (sortLS es) = .error m →
      ∃ k, k < es.length ∧ es.getD k ⟨0, 0⟩ = (sortLS es).getD m ⟨0, 0⟩ ∧
        checkTable es = .error ⟨.corruptTable, BitVec.ofNat 32 k⟩)

/-- 43_container.md R117: DESERIALIZE after a header that passes R115. Where CheckTable accepts the table it completes
OK: every register and table it writes, and the frame. Where CheckTable fails (which it does when and as
CheckTableAcceptsExactlyTheFittingTables says) it ends with that error, a CorruptTable, and changes nothing else. -/
def Obligations.DeserializeRebuildsTheTables : Prop :=
  (∀ (s : State) (es ps : List AlphaEntry) (codes : List Nat) (p n : Nat),
    bufBytesAdmitted s.bufBytes = true → s.inLen.toNat ≤ s.bufBytes → 2 ≤ s.inLen.toNat →
    p = (s.ibuf.read 0).toNat → n = (s.ibuf.read 1).toNat → p ≤ 7 → n ≤ 128 → 2 + 2 * n ≤ s.inLen.toNat →
    (s.inLen.toNat = 2 + 2 * n → p = 0) →
    es = (List.range n).map (fun k => ⟨s.ibuf.read (2 + n + k), s.ibuf.read (2 + k)⟩) →
    checkTable es = .ok (ps, codes) →
    ∃ t, exec .deserialize s = .next t ∧
      t = { s with pad := t.pad, alpha := t.alpha, alphaN := t.alphaN, len := t.len, code := t.code, maxLen := t.maxLen,
                   payOff := t.payOff, payBits := t.payBits, eng := .idle, done := true, statusCode := .ok,
                   errInfo := 0 } ∧
      t.pad.toNat = p ∧ t.payOff.toNat = 2 + 2 * n ∧ t.payBits.toNat = 8 * (s.inLen.toNat - 2 - 2 * n) - p ∧
      (n = 0 → CodeCleared t) ∧ (0 < n → HoldsCode t ps codes) ∧ t.alphaN.toNat = n ∧
      (∀ b, b ∉ ps.map (·.sym) → tableAt t.len b = 0) ∧ (∀ e ∈ ps, tableAt t.len e.sym = e.len)) ∧
  (∀ (s : State) (es : List AlphaEntry) (f : Failure) (p n : Nat),
    s.inLen.toNat ≤ s.bufBytes → 2 ≤ s.inLen.toNat → p = (s.ibuf.read 0).toNat → n = (s.ibuf.read 1).toNat → p ≤ 7 →
    n ≤ 128 → 2 + 2 * n ≤ s.inLen.toNat → (s.inLen.toNat = 2 + 2 * n → p = 0) →
    es = (List.range n).map (fun k => ⟨s.ibuf.read (2 + n + k), s.ibuf.read (2 + k)⟩) →
    checkTable es = .error f →
    f.status = .corruptTable ∧ exec .deserialize s =
      .next { s with eng := .idle, done := true, statusCode := .corruptTable, errInfo := f.info })

/-- 43_container.md R120: deserialize inverts serialize. -/
def Obligations.DeserializeInvertsSerialize : Prop :=
  ∀ s t u : State, bufBytesAdmitted s.bufBytes = true → TablesCoherent s →
    exec .serialize s = .next t → t.statusCode = .ok →
    u.bufBytes = s.bufBytes → u.inLen = t.outLen →
    (∀ a, a < t.outLen.toNat → u.ibuf.read a = t.obuf.read a) →
    ∃ v, exec .deserialize u = .next v ∧ v.statusCode = .ok ∧
      v.alpha = s.alpha ∧ v.alphaN = s.alphaN ∧ v.code = s.code ∧ v.maxLen = s.maxLen ∧ v.pad = t.pad ∧
      (∀ e ∈ alphabet s, tableAt v.len e.sym = tableAt s.len e.sym) ∧
      (∀ b, b ∉ (alphabet s).map (·.sym) → tableAt v.len b = 0) ∧
      v.payOff.toNat = 2 + 2 * s.alphaN.toNat ∧ payloadBits v = encodeText s (inputBytes s)

/-! ### MATCH -/

/-- 44_bit_matcher.md R124: MATCH. Where Match() gives a symbol list it completes OK with OBUF those symbols and OUT_LEN
their number; where it fails, with that error, OUT_LEN 0 and OBUF unspecified. Unspecified bytes are free values of a
fresh draw, the model's choice, logs 4 and 7. The payload bits are those of R122. The stop of the last clause is the model's own (log 13): payload bytes outside IBUF, which 10_state.md R41 rules out, are a
fault. -/
def Obligations.MatchEmitsTheMatchedSymbols : Prop :=
  ∀ s : State, s.bufBytes < 2 ^ 32 →
    ((payloadBits s).length = s.payBits.toNat ∧ ∀ k, k < s.payBits.toNat →
      (payloadBits s).getD k false = decide ((s.ibuf.read (s.payOff.toNat + k / 8)).toNat / 2 ^ (7 - k % 8) % 2 = 1)) ∧
    (∀ out, payloadInBuffer s = true →
      matchAll (alphabet s) s.code s.maxLen.toNat s.bufBytes (payloadBits s) = .ok out →
      ∃ t, exec .matchBits s = .next t ∧
        t = { s with obuf := t.obuf, outLen := t.outLen, draws := s.draws + 1, eng := .idle, done := true,
                     statusCode := .ok, errInfo := 0 } ∧
        t.outLen.toNat = out.length ∧ (∀ j, j < out.length → t.obuf.read j = out.getD j 0) ∧
        (∀ a, out.length ≤ a → t.obuf.read a = Config.freeByte s.draws a)) ∧
    (∀ f, payloadInBuffer s = true →
      matchAll (alphabet s) s.code s.maxLen.toNat s.bufBytes (payloadBits s) = .error f →
      ∃ t, exec .matchBits s = .next t ∧
        t = { s with obuf := t.obuf, outLen := 0, draws := s.draws + 1, eng := .idle, done := true,
                     statusCode := f.status, errInfo := f.info } ∧
        (f.status = .unmatchedBits ∨ f.status = .outputOverflow) ∧
        ∀ a, t.obuf.read a = Config.freeByte s.draws a) ∧
    (payloadInBuffer s = false → exec .matchBits s = .fault .payloadOutsideBuffer)

/-- 44_bit_matcher.md R123 and R125: with coherent tables MATCH inverts encoding, both ways. A payload that is the
codewords of a text of the alphabet completes OK with that text; if MATCH completes OK, the payload is exactly the
codewords of the bytes it wrote; and at most one codeword is a prefix of the remaining bits. -/
def Obligations.MatchInvertsEncoding : Prop :=
  (∀ (s : State) (text : List Byte), bufBytesAdmitted s.bufBytes = true → TablesCoherent s → payloadInBuffer s = true →
    Encodable s text → text.length ≤ s.bufBytes → payloadBits s = encodeText s text →
    ∃ t, exec .matchBits s = .next t ∧ t.statusCode = .ok ∧ t.outLen.toNat = text.length ∧
      t.obuf.bytes 0 text.length = text) ∧
  (∀ s t : State, bufBytesAdmitted s.bufBytes = true → TablesCoherent s → exec .matchBits s = .next t →
    t.statusCode = .ok →
    Encodable s (t.obuf.bytes 0 t.outLen.toNat) ∧ payloadBits s = encodeText s (t.obuf.bytes 0 t.outLen.toNat)) ∧
  (∀ (s : State) (bits : BitStr) (e f : AlphaEntry), TablesCoherent s → e ∈ alphabet s → f ∈ alphabet s →
    (codewordOf s.code e).IsPrefix bits → (codewordOf s.code f).IsPrefix bits → e = f)

/-- 44_bit_matcher.md R123, R124 and R127, 60_exceptions.md R148: both errors of MATCH report the cursor, in bits from
the first payload bit, and the bits before it are the codewords of some text. UnmatchedBits: at most BUF_BYTES symbols
are out, and no codeword is a prefix of the bits from the cursor on. OutputOverflow: exactly BUF_BYTES symbols are out,
and one more codeword begins at the cursor. -/
def Obligations.UnmatchedBitsReportsTheCursor : Prop :=
  ∀ s t : State, bufBytesAdmitted s.bufBytes = true → TablesCoherent s → exec .matchBits s = .next t →
    t.statusCode ≠ .ok →
    ∃ text, Encodable s text ∧ (encodeText s text).length = t.errInfo.toNat ∧
      payloadBits s = encodeText s text ++ (payloadBits s).drop t.errInfo.toNat ∧
      t.errInfo.toNat < s.payBits.toNat ∧
      ((t.statusCode = .unmatchedBits ∧ text.length ≤ s.bufBytes ∧
          ∀ e ∈ alphabet s, ¬ (codewordOf s.code e).IsPrefix ((payloadBits s).drop t.errInfo.toNat)) ∨
        (t.statusCode = .outputOverflow ∧ text.length = s.bufBytes ∧
          ∃ e ∈ alphabet s, (codewordOf s.code e).IsPrefix ((payloadBits s).drop t.errInfo.toNat)))

/-! ### ENCODE and DECODE -/

/-- 45_composite.md R131 and R136: ENCODE of a zero-length input writes the empty container 00 00 with every table zero,
and DECODE of the empty container gives the empty output. OBUF bytes at or beyond OUT_LEN are unspecified (10_state.md
R49, 93_implementation_defined.md S1): that they are free values of a fresh draw is the model's choice, logs 4 and 7. -/
def Obligations.EmptyInputRoundTrip : Prop :=
  (∀ s : State, bufBytesAdmitted s.bufBytes = true → s.inLen = 0 →
    ∃ t, exec .encode s = .next t ∧
      t = { s with freq := t.freq, len := t.len, alpha := t.alpha, alphaN := 0, code := t.code, maxLen := 0, pad := 0,
                   outLen := 2, obuf := t.obuf, draws := s.draws + 1, eng := .idle, done := true, statusCode := .ok,
                   errInfo := 0 } ∧
      (∀ b, tableAt t.freq b = 0) ∧ (∀ b, tableAt t.len b = 0) ∧ (∀ k, tableAt t.alpha k = ⟨0, 0⟩) ∧
      (∀ b, tableAt t.code b = 0) ∧ t.obuf.read 0 = 0 ∧ t.obuf.read 1 = 0 ∧
      (∀ a, 2 ≤ a → t.obuf.read a = Config.freeByte s.draws a)) ∧
  (∀ u : State, bufBytesAdmitted u.bufBytes = true → u.inLen = 2 → u.ibuf.read 0 = 0 → u.ibuf.read 1 = 0 →
    ∃ v, exec .decode u = .next v ∧ v.statusCode = .ok ∧ v.errInfo = 0 ∧ v.outLen = 0 ∧ v.pad = 0 ∧ v.payOff = 2 ∧
      v.payBits = 0 ∧ CodeCleared v ∧ (∀ b, tableAt v.len b = 0) ∧ v.freq = u.freq)

/-- 45_composite.md R130 and R139: ENCODE of a nonempty input. It ends OK, with the tables of the input's Huffman code
and its container, or with AlphabetTooLarge when more than 128 distinct bytes occur, or with OutputOverflow when the
container does not fit; in no other way. -/
def Obligations.EncodeOfANonemptyInput : Prop :=
  ∀ s : State, bufBytesAdmitted s.bufBytes = true → 1 ≤ s.inLen.toNat → s.inLen.toNat ≤ s.bufBytes →
    ∃ (L : Table Byte) (codes : List Nat), buildLengths (countTable (inputBytes s)) = .ok L ∧
      canonAssign (lenPairs L) = .ok codes ∧ (lenPairs L).length = distinctCount (inputBytes s) ∧
      let bits := ((inputBytes s).map fun b => (tableAt L b).toNat).sum
      let total := 2 + 2 * distinctCount (inputBytes s) + (bits + 7) / 8
      (distinctCount (inputBytes s) ≤ 128 → total ≤ s.bufBytes →
        ∃ t, exec .encode s = .next t ∧ t.statusCode = .ok ∧ t.errInfo = 0 ∧ t.freq = countTable (inputBytes s) ∧
          t.len = L ∧ HoldsCode t (lenPairs L) codes ∧ t.outLen.toNat = total ∧
          t.pad.toNat = (8 - bits % 8) % 8 ∧ t.payOff = s.payOff ∧ t.payBits = s.payBits ∧
          t.obuf.bytes 0 total = containerBytes (lenPairs L) (encodeText t (inputBytes s)) ∧
          (encodeText t (inputBytes s)).length = bits) ∧
      (128 < distinctCount (inputBytes s) →
        ∃ t, exec .encode s = .next t ∧ t.statusCode = .alphabetTooLarge ∧
          t.errInfo.toNat = distinctCount (inputBytes s) ∧ t.outLen = 0 ∧ SameTables s t) ∧
      (distinctCount (inputBytes s) ≤ 128 → s.bufBytes < total →
        ∃ t, exec .encode s = .next t ∧ t.statusCode = .outputOverflow ∧ t.errInfo.toNat = total ∧ t.outLen = 0 ∧
          SameTables s t)

/-- 45_composite.md R134: determinism. ENCODE's status and committed state are a function of the input bytes and their
number alone, whatever the rest of the state holds. -/
def Obligations.EncodeDependsOnlyOnTheInput : Prop :=
  ∀ s u t v : State, u.bufBytes = s.bufBytes → u.inLen = s.inLen → inputBytes u = inputBytes s →
    exec .encode s = .next t → exec .encode u = .next v →
    v.statusCode = t.statusCode ∧ v.errInfo = t.errInfo ∧ v.outLen = t.outLen ∧
      (t.statusCode = .ok →
        v.freq = t.freq ∧ v.len = t.len ∧ v.alpha = t.alpha ∧ v.alphaN = t.alphaN ∧ v.code = t.code ∧
        v.maxLen = t.maxLen ∧ v.pad = t.pad ∧
        ∀ a, a < t.outLen.toNat → v.obuf.read a = t.obuf.read a)

/-- 45_composite.md R132: DECODE where it completes OK: the tables of the container and the matched symbols. OBUF bytes
at or beyond OUT_LEN are unspecified (10_state.md R49): free values of a fresh draw, the model's choice, logs 4 and 7. -/
def Obligations.DecodeWritesTablesAndText : Prop :=
  ∀ (s : State) (es ps : List AlphaEntry) (codes : List Nat) (p n : Nat) (bits : BitStr) (out : List Byte),
    bufBytesAdmitted s.bufBytes = true → s.inLen.toNat ≤ s.bufBytes → 2 ≤ s.inLen.toNat →
    p = (s.ibuf.read 0).toNat → n = (s.ibuf.read 1).toNat → p ≤ 7 → n ≤ 128 → 2 + 2 * n ≤ s.inLen.toNat →
    (s.inLen.toNat = 2 + 2 * n → p = 0) →
    es = (List.range n).map (fun k => ⟨s.ibuf.read (2 + n + k), s.ibuf.read (2 + k)⟩) →
    checkTable es = .ok (ps, codes) →
    bits = (List.range (8 * (s.inLen.toNat - 2 - 2 * n) - p)).map (fun k => payloadBit s.ibuf (2 + 2 * n) k) →
    matchAll ps (codeTableOf ps codes) (maxLenOf ps).toNat s.bufBytes bits = .ok out →
    ∃ t, exec .decode s = .next t ∧ t.statusCode = .ok ∧ t.errInfo = 0 ∧ t.freq = s.freq ∧
      t.pad.toNat = p ∧ t.payOff.toNat = 2 + 2 * n ∧ t.payBits.toNat = bits.length ∧
      (n = 0 → CodeCleared t) ∧ (0 < n → HoldsCode t ps codes) ∧ t.outLen.toNat = out.length ∧
      t.obuf.bytes 0 out.length = out ∧ (∀ a, out.length ≤ a → t.obuf.read a = Config.freeByte s.draws a)

/-- 45_composite.md R140 with R128: staged and composite commands agree. When every stage is OK the staged sequence
leaves the same state as the composite; when a stage of DECODE fails, DECODE reports that stage's status and ERR_INFO
and keeps no table. That the states agree in OBUF's unspecified bytes too is the model's choice, logs 4 and 7. -/
def Obligations.StagedAndCompositeCommandsAgree : Prop :=
  (∀ s a b c d : State, s.inLen ≠ 0 → exec .count s = .next a → a.statusCode = .ok →
    exec .build a = .next b → b.statusCode = .ok → exec .assign b = .next c → c.statusCode = .ok →
    exec .serialize c = .next d → d.statusCode = .ok → exec .encode s = .next d) ∧
  (∀ s a b : State, exec .deserialize s = .next a → a.statusCode = .ok →
    exec .matchBits a = .next b → b.statusCode = .ok → exec .decode s = .next b) ∧
  (∀ s a : State, exec .deserialize s = .next a → a.statusCode ≠ .ok →
    ∃ t, exec .decode s = .next t ∧ t.statusCode = a.statusCode ∧ t.errInfo = a.errInfo ∧ SameTables s t ∧
      t.outLen = 0) ∧
  (∀ s a b : State, exec .deserialize s = .next a → a.statusCode = .ok →
    exec .matchBits a = .next b → b.statusCode ≠ .ok →
    ∃ t, exec .decode s = .next t ∧ t.statusCode = b.statusCode ∧ t.errInfo = b.errInfo ∧ SameTables s t ∧
      t.outLen = 0)

/-- 43_container.md R118: the dropped padding bits are not checked: two containers that differ only in them decode
the same. -/
def Obligations.PaddingBitsAreIgnored : Prop :=
  ∀ s u t v : State, u.bufBytes = s.bufBytes → u.inLen = s.inLen →
    2 + 2 * (s.ibuf.read 1).toNat < s.inLen.toNat →
    (∀ a, a + 1 < s.inLen.toNat → u.ibuf.read a = s.ibuf.read a) →
    (∀ j, (s.ibuf.read 0).toNat ≤ j →
      (u.ibuf.read (s.inLen.toNat - 1)).getLsbD j = (s.ibuf.read (s.inLen.toNat - 1)).getLsbD j) →
    exec .decode s = .next t → exec .decode u = .next v →
    v.statusCode = t.statusCode ∧ v.errInfo = t.errInfo ∧ v.outLen = t.outLen ∧
      (t.statusCode = .ok → SameTables { t with freq := v.freq } v ∧
        ∀ a, a < t.outLen.toNat → v.obuf.read a = t.obuf.read a)

/-- 45_composite.md R135: the round trip. If ENCODE of x completes OK and its OUT_LEN bytes are placed in IBUF of any
state of the instance, DECODE completes OK with exactly x. -/
def Obligations.DecodeOfEncodeIsTheInput : Prop :=
  ∀ s t u : State, bufBytesAdmitted s.bufBytes = true → 1 ≤ s.inLen.toNat → s.inLen.toNat ≤ s.bufBytes →
    exec .encode s = .next t →
    (t.statusCode = .ok ∨ t.statusCode = .alphabetTooLarge ∨ t.statusCode = .outputOverflow) ∧
    (t.statusCode = .alphabetTooLarge → 128 < distinctCount (inputBytes s)) ∧
    (t.statusCode = .ok → u.bufBytes = s.bufBytes → u.inLen = t.outLen →
      (∀ a, a < t.outLen.toNat → u.ibuf.read a = t.obuf.read a) →
      ∃ v, exec .decode u = .next v ∧ v.statusCode = .ok ∧ v.outLen = s.inLen ∧
        ∀ a, a < s.inLen.toNat → v.obuf.read a = s.ibuf.read a)

/-- 45_composite.md R137: an input of one repeated byte value encodes with alphabet size 1, code length 1 and codeword
"0", and decodes back. For every byte value and every number of copies that fits; 1000 copies of 0x41 are one case. -/
def Obligations.SingleSymbolRoundTrip : Prop :=
  ∀ (s : State) (b : Byte), bufBytesAdmitted s.bufBytes = true → 1 ≤ s.inLen.toNat → s.inLen.toNat ≤ s.bufBytes →
    (∀ a, a < s.inLen.toNat → s.ibuf.read a = b) →
    ∃ t, exec .encode s = .next t ∧ t.statusCode = .ok ∧ t.alphaN = 1 ∧ tableAt t.len b = 1 ∧ tableAt t.code b = 0 ∧
      t.outLen.toNat = 4 + (s.inLen.toNat + 7) / 8 ∧
      t.obuf.bytes 0 t.outLen.toNat = BitVec.ofNat 8 ((8 - s.inLen.toNat % 8) % 8) :: 1 :: 1 :: b ::
        List.replicate ((s.inLen.toNat + 7) / 8) 0 ∧
      ∀ u : State, u.bufBytes = s.bufBytes → u.inLen = t.outLen →
        (∀ a, a < t.outLen.toNat → u.ibuf.read a = t.obuf.read a) →
        ∃ v, exec .decode u = .next v ∧ v.statusCode = .ok ∧ v.outLen = s.inLen ∧
          ∀ a, a < s.inLen.toNat → v.obuf.read a = b

/-! ### Invariants and runs -/

/-- The state after reset satisfies the model's invariant Inv (10_state.md R52, R53, with clauses of the model's own). -/
def Obligations.ResetSatisfiesTheInvariant : Prop := Inv State.reset

/-- The model's invariant Inv is kept by every step: coherent tables, a payload range inside IBUF, bounded frequencies,
lengths that fit a code, canonical buffers, an output of OUT_LEN specified bytes, a clean STATUS while BUSY. -/
def Obligations.EveryStepKeepsTheInvariant : Prop :=
  ∀ s t : State, Inv s → step s = .next t → Inv t

/-- 10_state.md R52: table coherence, on its own: reset has it and every step keeps it. -/
def Obligations.EveryStepKeepsTablesCoherent : Prop :=
  TablesCoherent State.reset ∧ ∀ s t : State, TablesCoherent s → step s = .next t → TablesCoherent t

/-- 20_memory.md R63, 60_exceptions.md R141: from a state that satisfies the invariant no run of any length faults. -/
def Obligations.NoRunFaults : Prop := ∀ s : State, Inv s → NeverFaults s

/-- 70_reset_and_hazards.md R168 and R170, 30_encoding.md R85 (WAIT): the two waits. A WAIT ends at the first poll that
finds BUSY 0, a wait for the interrupt at the first that finds IRQ 1; each other poll leaves it pending. A completion may
come after any number of host turns: a host that waits, by WAIT or by IRQ with IE = 1, stays waiting through `k` polls
while BUSY, then the engine completes, and the next poll ends the wait; with IE = 0 a wait for the interrupt goes on.
The schedule is the model's own, log 8. -/
def Obligations.WaitEndsAfterTheCompletion : Prop :=
  (∀ s s' : State, HostActs s .wait s' →
    (s.eng = .busy → step s = .next { s' with host := .wait :: s'.host }) ∧ (s.eng = .idle → step s = .next s')) ∧
  (∀ s s' : State, HostActs s .waitIrq s' →
    ((s.ie && s.done) = false → step s = .next { s' with host := .waitIrq :: s'.host }) ∧
    ((s.ie && s.done) = true → step s = .next s')) ∧
  (∀ (s : State) (op : HostOp) (k : Nat) (rest : List HostOp), Inv s → s.eng = .busy → s.host = op :: rest →
    (op = .wait ∨ op = .waitIrq) → s.sched = List.replicate k .host ++ [.engine, .host] →
    (∀ j, j ≤ k → ∃ t, Host.Core.run Sys2Proof.core j s = .next t ∧ t.eng = .busy ∧ t.host = op :: rest) ∧
    (∃ t, Host.Core.run Sys2Proof.core (k + 1) s = .next t ∧ t.eng = .idle ∧ t.done = true ∧ irq t = s.ie ∧
      t.host = op :: rest) ∧
    (∃ t, Host.Core.run Sys2Proof.core (k + 2) s = .next t ∧ t.eng = .idle ∧ t.done = true ∧
      t.host = if op = .waitIrq ∧ s.ie = false then op :: rest else rest))

/-- 70_reset_and_hazards.md R172: two CMD writes without a wait between them have two outcomes, both admitted.
The schedule is the model's own, log 8. -/
def Obligations.DoubleCommandRaceHasBothOutcomes : Prop :=
  ∀ (s : State) (v w : Word), Inv s → s.eng = .idle → s.host = [.stw 0x0010 v, .stw 0x0010 w] →
    (s.sched = [.host, .engine, .host] →
      ∃ t, Host.Core.run Sys2Proof.core 3 s = .next t ∧ t.eng = .busy ∧ t.lcmd = w ∧ t.ovr = s.ovr) ∧
    (s.sched = [.host, .host] →
      ∃ t, Host.Core.run Sys2Proof.core 2 s = .next t ∧ t.eng = .busy ∧ t.lcmd = v ∧ t.ovr = true)
end

