-- ==== Sys2Proof/Laws/Bits.lean ====
section
/-! SUPPORT. The laws of bit strings: `bin` and `val` are inverse, prefixes are values, and packing keeps every bit. -/

namespace Sys2Proof.Machine

@[simp] theorem length_bin (l v : Nat) : (bin l v).length = l := by simp [bin]

theorem getElem_bin {l v k : Nat} (h : k < (bin l v).length) : (bin l v)[k] = v.testBit (l - 1 - k) := by
  simp [bin]

theorem val_foldl (a : BitStr) (x : Nat) :
    a.foldl (fun v b => 2 * v + b.toNat) x = x * 2 ^ a.length + a.foldl (fun v b => 2 * v + b.toNat) 0 := by
  induction a generalizing x with
  | nil => simp
  | cons b a ih =>
    rw [List.foldl_cons, List.foldl_cons, ih, ih (2 * 0 + b.toNat), List.length_cons, Nat.pow_succ]
    ring

@[simp] theorem val_nil : val [] = 0 := rfl

theorem val_append (a b : BitStr) : val (a ++ b) = val a * 2 ^ b.length + val b := by
  rw [val, List.foldl_append, val_foldl]
  rfl

theorem val_cons (b : Bool) (a : BitStr) : val (b :: a) = b.toNat * 2 ^ a.length + val a := by
  have := val_append [b] a
  simpa [val] using this

theorem val_lt (a : BitStr) : val a < 2 ^ a.length := by
  induction a with
  | nil => simp
  | cons b a ih =>
    rw [val_cons, List.length_cons, Nat.pow_succ]
    have := Bool.toNat_le b
    have : b.toNat * 2 ^ a.length ≤ 1 * 2 ^ a.length := Nat.mul_le_mul_right _ this
    omega

/-- Bit `i` of a value is the character `i` places from the right. -/
theorem testBit_val (a : BitStr) (i : Nat) (h : i < a.length) : (val a).testBit i = a[a.length - 1 - i] := by
  induction a with
  | nil => simp at h
  | cons b a ih =>
    rw [val_cons]
    by_cases hi : i < a.length
    · rw [Nat.mul_comm, Nat.testBit_two_pow_mul_add _ (val_lt a), if_pos hi, ih hi]
      simp only [List.length_cons, List.getElem_cons]
      rw [dif_neg (by omega)]
      congr 1
      omega
    · obtain rfl : i = a.length := by simp only [List.length_cons] at h; omega
      rw [Nat.mul_comm, Nat.testBit_two_pow_mul_add _ (val_lt a), if_neg hi]
      cases b <;> simp

theorem bin_val (a : BitStr) : bin a.length (val a) = a := by
  refine List.ext_getElem (by simp) fun k h1 h2 => ?_
  rw [getElem_bin, testBit_val a _ (by omega)]
  congr 1
  omega

theorem val_bin {l v : Nat} (h : v < 2 ^ l) : val (bin l v) = v := by
  refine Nat.eq_of_testBit_eq fun i => ?_
  by_cases hi : i < l
  · rw [testBit_val _ _ (by simpa using hi), getElem_bin]
    congr 1
    simp only [length_bin]
    omega
  · have h1 : val (bin l v) < 2 ^ i :=
      Nat.lt_of_lt_of_le (val_lt _) (by simpa using Nat.pow_le_pow_right (by decide) (Nat.le_of_not_lt hi))
    have h2 : v < 2 ^ i := Nat.lt_of_lt_of_le h (Nat.pow_le_pow_right (by decide) (Nat.le_of_not_lt hi))
    rw [Nat.testBit_lt_two_pow h1, Nat.testBit_lt_two_pow h2]

/-- The codeword of length `l` and value `v` is a prefix exactly when the first `l` bits have that value. -/
theorem bin_isPrefix_iff {l v : Nat} (hv : v < 2 ^ l) (bits : BitStr) :
    (bin l v).IsPrefix bits ↔ l ≤ bits.length ∧ val (bits.take l) = v := by
  constructor
  · rintro ⟨rest, rfl⟩
    refine ⟨by simp, ?_⟩
    rw [List.take_left' (by simp), val_bin hv]
  · rintro ⟨hl, rfl⟩
    have : bin l (val (bits.take l)) = bits.take l := by
      conv_lhs => rw [show l = (bits.take l).length by simp [hl]]
      simpa [hl] using bin_val (bits.take l)
    rw [this]
    exact List.take_prefix _ _

/-- One codeword is a prefix of another exactly when its value is the other's leading part. -/
theorem bin_isPrefix_bin_iff {l v l' v' : Nat} (hv : v < 2 ^ l) (hv' : v' < 2 ^ l') :
    (bin l v).IsPrefix (bin l' v') ↔ l ≤ l' ∧ v' / 2 ^ (l' - l) = v := by
  rw [bin_isPrefix_iff hv, length_bin]
  refine and_congr_right fun hl => ?_
  have hsplit : val (bin l' v') = val ((bin l' v').take l) * 2 ^ (l' - l) + val ((bin l' v').drop l) := by
    conv_lhs => rw [← List.take_append_drop l (bin l' v'), val_append]
    simp
  have hlt : val ((bin l' v').drop l) < 2 ^ (l' - l) := by simpa using val_lt ((bin l' v').drop l)
  rw [val_bin hv'] at hsplit
  have : v' / 2 ^ (l' - l) = val ((bin l' v').take l) := by
    conv_lhs => rw [hsplit]
    rw [Nat.mul_comm, Nat.mul_add_div (Nat.two_pow_pos _), Nat.div_eq_of_lt hlt, Nat.add_zero]
  rw [this]

/-! ### Packing -/

/-- A string of fewer than 8 bits packs to nothing. -/
theorem packBytes_short {bits : BitStr} (h : bits.length < 8) : packBytes bits = [] := by
  unfold packBytes
  split
  · simp only [List.length_cons] at h
    omega
  · rfl

/-- A string that `packBytes` does not cut has fewer than 8 bits. -/
theorem length_lt_of_not_cons {bits : BitStr}
    (h : ∀ b7 b6 b5 b4 b3 b2 b1 b0 rest, bits = b7 :: b6 :: b5 :: b4 :: b3 :: b2 :: b1 :: b0 :: rest → False) :
    bits.length < 8 := by
  rcases bits with _ | ⟨_, _ | ⟨_, _ | ⟨_, _ | ⟨_, _ | ⟨_, _ | ⟨_, _ | ⟨_, _ | ⟨_, rest⟩⟩⟩⟩⟩⟩⟩⟩
  · simp
  · simp
  · simp
  · simp
  · simp
  · simp
  · simp
  · simp
  · exact (h _ _ _ _ _ _ _ _ _ rfl).elim

theorem length_packBytes (bits : BitStr) : (packBytes bits).length = bits.length / 8 := by
  induction bits using packBytes.induct with
  | case1 b7 b6 b5 b4 b3 b2 b1 b0 rest ih =>
    simp only [packBytes, List.length_cons, ih]
    omega
  | case2 bits h =>
    have hlt := length_lt_of_not_cons h
    simp [packBytes_short hlt, Nat.div_eq_of_lt hlt]

/-- Bit `j` of the packed bytes, most significant first, is bit `j` of the string. -/
theorem getLsbD_packBytes (bits : BitStr) (j : Nat) (hj : j < bits.length) (h8 : bits.length % 8 = 0) :
    ((packBytes bits).getD (j / 8) 0).getLsbD (7 - j % 8) = bits[j] := by
  induction bits using packBytes.induct generalizing j with
  | case1 b7 b6 b5 b4 b3 b2 b1 b0 rest ih =>
    by_cases h : j < 8
    · have hb : ∀ i, i < 8 → (BitVec.ofNat 8 (val [b7, b6, b5, b4, b3, b2, b1, b0])).getLsbD i =
          (val [b7, b6, b5, b4, b3, b2, b1, b0]).testBit i := fun i hi => by
        rw [BitVec.getLsbD_ofNat]
        simp [hi]
      rw [packBytes, Nat.div_eq_of_lt h, List.getD_cons_zero, Nat.mod_eq_of_lt h, hb _ (by omega),
        testBit_val _ _ (by simp only [List.length_cons, List.length_nil]; omega)]
      interval_cases j <;> rfl
    · obtain ⟨i, rfl⟩ : ∃ i, j = i + 8 := ⟨j - 8, by omega⟩
      have e1 : (i + 8) / 8 = i / 8 + 1 := by omega
      have e2 : (i + 8) % 8 = i % 8 := by omega
      simp only [List.length_cons] at hj h8
      rw [packBytes, e1, e2, List.getD_cons_succ, ih i (by omega) (by omega)]
      rfl
  | case2 bits h =>
    have hlt := length_lt_of_not_cons h
    omega

theorem add_paddingCount_mod (l : Nat) : (l + paddingCount l) % 8 = 0 := by
  unfold paddingCount
  omega

theorem paddingCount_lt (l : Nat) : paddingCount l < 8 := by
  unfold paddingCount
  omega

theorem length_packPayload (bits : BitStr) : (packPayload bits).length = (bits.length + 7) / 8 := by
  rw [packPayload, length_packBytes, List.length_append, List.length_replicate]
  unfold paddingCount
  omega

theorem length_containerBytes (es : List AlphaEntry) (bits : BitStr) :
    (containerBytes es bits).length = 2 + 2 * es.length + (bits.length + 7) / 8 := by
  simp only [containerBytes, List.length_cons, List.length_append, List.length_map, length_packPayload]
  omega

end Sys2Proof.Machine
end

