-- ==== Sys2Proof/Laws/Memory.lean ====
section
/-! SUPPORT. The laws of tables and buffers: what a read gives after a write, and the canonical form that every
buffer operation keeps. -/

namespace Sys2Proof.Machine

/-! ### Tables -/

@[simp] theorem tableAt_tableOf {α : Type} (f : Byte → α) (s : Byte) : tableAt (tableOf f) s = f s := by
  simp [tableAt, tableOf]

@[simp] theorem tableAt_replicate {α : Type} (x : α) (s : Byte) : tableAt (Vector.replicate 256 x) s = x := by
  simp [tableAt]

theorem table_ext {α : Type} {t u : Table α} (h : ∀ s, tableAt t s = tableAt u s) : t = u := by
  refine Vector.ext fun i hi => ?_
  simpa [tableAt, Nat.mod_eq_of_lt hi] using h (BitVec.ofNat 8 i)

theorem tableOf_tableAt {α : Type} (t : Table α) : tableOf (tableAt t) = t := table_ext fun s => by simp

theorem mem_allSymbols (s : Byte) : s ∈ allSymbols := by
  simp only [allSymbols, List.mem_map, List.mem_range]
  exact ⟨s.toNat, s.isLt, by simp⟩

theorem nodup_allSymbols : allSymbols.Nodup := by
  refine (List.nodup_map_iff_inj_on List.nodup_range).2 fun x hx y hy h => ?_
  simp only [List.mem_range] at hx hy
  simpa [Nat.mod_eq_of_lt hx, Nat.mod_eq_of_lt hy] using congrArg BitVec.toNat h

theorem ascending_allSymbols : allSymbols.Pairwise fun a b => a.toNat < b.toNat := by
  refine List.pairwise_map.2 (List.Pairwise.imp_of_mem (fun {a b} ha hb h => ?_) List.pairwise_lt_range)
  rw [List.mem_range] at ha hb
  rwa [BitVec.toNat_ofNat, BitVec.toNat_ofNat, Nat.mod_eq_of_lt ha, Nat.mod_eq_of_lt hb]

theorem length_allSymbols : allSymbols.length = 256 := by simp [allSymbols]

/-! ### Buffers -/

theorem lookup_putCell (a b : Nat) (v : Byte) (cs : List Host.Cell) :
    (putCell a v cs).lookup b = if b = a then some v else cs.lookup b := by
  induction cs with
  | nil =>
    by_cases h : b = a
    · simp [putCell, h]
    · simp [putCell, List.lookup, beq_false_of_ne h, h]
  | cons c cs ih =>
    obtain ⟨k, w⟩ := c
    simp only [putCell]
    split
    · by_cases h : b = a
      · simp [List.lookup, h]
      · rw [List.lookup, beq_false_of_ne h, if_neg h]
    · split
      · rename_i h1 h2
        subst h2
        by_cases h : b = a
        · simp [List.lookup, h]
        · simp [List.lookup, beq_false_of_ne h, h]
      · rename_i h1 h2
        by_cases h : b = k
        · subst h
          have : b ≠ a := fun e => h2 e.symm
          simp [List.lookup, this]
        · simp [List.lookup, beq_false_of_ne h, ih]

/-- A read after a write to the same place gives the value written, and every other place is left alone. -/
theorem Memory.read_write (m : Memory) (a b : Nat) (v : Byte) :
    (m.write a v).read b = if b = a then v else m.read b := by
  simp only [Memory.read, Memory.write, lookup_putCell]
  split <;> simp

@[simp] theorem Memory.write_draw (m : Memory) (a : Nat) (v : Byte) : (m.write a v).draw = m.draw := rfl

theorem mem_putCell {a : Nat} {v : Byte} {cs : List Host.Cell} {c : Host.Cell} (h : c ∈ putCell a v cs) :
    c = (a, v) ∨ c ∈ cs := by
  induction cs with
  | nil => simpa [putCell] using h
  | cons d ds ih =>
    obtain ⟨k, w⟩ := d
    simp only [putCell] at h
    split at h
    · simpa using h
    · split at h
      · rcases List.mem_cons.1 h with h | h
        · exact .inl h
        · exact .inr (List.mem_cons_of_mem _ h)
      · rcases List.mem_cons.1 h with h | h
        · exact .inr (h ▸ List.mem_cons_self)
        · exact (ih h).imp_right (List.mem_cons_of_mem _)

/-- A write keeps the canonical form. -/
theorem Memory.wf_write {m : Memory} (h : m.wf) (a : Nat) (v : Byte) : (m.write a v).wf := by
  obtain ⟨cs, d⟩ := m
  show (putCell a v cs).Pairwise _
  replace h : cs.Pairwise fun x y => x.1 < y.1 := h
  induction cs with
  | nil => simp [putCell]
  | cons c cs ih =>
    obtain ⟨k, w⟩ := c
    obtain ⟨hk, hcs⟩ := List.pairwise_cons.1 h
    simp only [putCell]
    split
    · rename_i hlt
      refine List.pairwise_cons.2 ⟨fun y hy => ?_, h⟩
      rcases List.mem_cons.1 hy with rfl | hy
      · exact hlt
      · exact Nat.lt_trans hlt (hk y hy)
    · split
      · rename_i h2
        subst h2
        exact List.pairwise_cons.2 ⟨hk, hcs⟩
      · rename_i h1 h2
        refine List.pairwise_cons.2 ⟨fun y hy => ?_, ih hcs⟩
        rcases mem_putCell hy with rfl | hy
        · show k < a
          omega
        · exact hk y hy

theorem Memory.within_write {m : Memory} {n : Nat} (h : m.within n) {a : Nat} (ha : a < n) (v : Byte) :
    (m.write a v).within n := fun c hc => by
  rcases mem_putCell hc with rfl | hc
  · exact ha
  · exact h c hc


/-- A word write keeps the canonical form. -/
theorem Memory.wf_writeWord {m : Memory} (h : m.wf) (a : Nat) (v : Word) : (m.writeWord a v).wf :=
  wf_write (wf_write (wf_write (wf_write h _ _) _ _) _ _) _ _

theorem Memory.within_writeWord {m : Memory} {n : Nat} (h : m.within n) {a : Nat} (ha : a + 3 < n) (v : Word) :
    (m.writeWord a v).within n :=
  within_write (within_write (within_write (within_write h (by omega) _) (by omega) _) (by omega) _) (by omega) _

@[simp] theorem Memory.writeWord_draw (m : Memory) (a : Nat) (v : Word) : (m.writeWord a v).draw = m.draw := rfl

/-- Every byte after a word write: lane `j` at `a + j`, all others as before. -/
theorem Memory.read_writeWord (m : Memory) (a b : Nat) (v : Word) :
    (m.writeWord a v).read b = if a ≤ b ∧ b < a + 4 then byteLane v (b - a) else m.read b := by
  simp only [Memory.writeWord, Memory.read_write]
  by_cases h : a ≤ b ∧ b < a + 4
  · obtain ⟨j, hj, rfl⟩ : ∃ j, j < 4 ∧ b = a + j := ⟨b - a, by omega, by omega⟩
    interval_cases j <;> simp [h]
  · rw [if_neg h]
    repeat rw [if_neg (by omega)]

theorem lookup_zipIdx_swap (bs : List Byte) (k a : Nat) :
    ((bs.zipIdx k).map fun p => (p.2, p.1)).lookup a = if k ≤ a then bs[a - k]? else none := by
  induction bs generalizing k with
  | nil => simp
  | cons b bs ih =>
    simp only [List.zipIdx_cons, List.map_cons, List.lookup]
    by_cases h : a = k
    · subst h
      simp
    · rw [beq_false_of_ne h, ih (k + 1)]
      by_cases hk : k ≤ a
      · rw [if_pos (by omega), if_pos hk, show a - k = (a - (k + 1)) + 1 by omega, List.getElem?_cons_succ]
      · rw [if_neg (by omega), if_neg hk]

/-- The bytes of an output: specified up to its length, unspecified beyond. -/
theorem Memory.lookup_ofBytes (d : Nat) (bs : List Byte) (a : Nat) : (Memory.ofBytes d bs).cells.lookup a = bs[a]? := by
  show ((bs.zipIdx 0).map fun p => (p.2, p.1)).lookup a = bs[a]?
  simp [lookup_zipIdx_swap]

theorem Memory.read_ofBytes (d : Nat) (bs : List Byte) (a : Nat) :
    (Memory.ofBytes d bs).read a = bs[a]?.getD (Config.freeByte d a) := by
  rw [Memory.read, Memory.lookup_ofBytes]
  rfl

theorem Memory.read_ofBytes_lt {d : Nat} {bs : List Byte} {a : Nat} (h : a < bs.length) :
    (Memory.ofBytes d bs).read a = bs[a] := by
  rw [Memory.read_ofBytes, List.getElem?_eq_getElem h]
  rfl

theorem Memory.read_ofBytes_ge {d : Nat} {bs : List Byte} {a : Nat} (h : bs.length ≤ a) :
    (Memory.ofBytes d bs).read a = Config.freeByte d a := by
  rw [Memory.read_ofBytes, List.getElem?_eq_none h]
  rfl

@[simp] theorem Memory.ofBytes_draw (d : Nat) (bs : List Byte) : (Memory.ofBytes d bs).draw = d := rfl

/-- An output is in canonical form. -/
theorem Memory.wf_ofBytes (d : Nat) (bs : List Byte) : (Memory.ofBytes d bs).wf := by
  show ((bs.zipIdx 0).map fun p => (p.2, p.1)).Pairwise _
  generalize 0 = k
  induction bs generalizing k with
  | nil => simp
  | cons b bs ih =>
    rw [List.zipIdx_cons, List.map_cons]
    refine List.pairwise_cons.2 ⟨fun y hy => ?_, ih (k + 1)⟩
    obtain ⟨p, hp, rfl⟩ := List.mem_map.1 hy
    have := (List.mem_zipIdx hp).1
    show k < p.2
    omega

@[simp] theorem Memory.length_bytes (m : Memory) (a n : Nat) : (m.bytes a n).length = n := by simp [Memory.bytes]

theorem Memory.getElem_bytes {m : Memory} {a n i : Nat} (h : i < (m.bytes a n).length) :
    (m.bytes a n)[i] = m.read (a + i) := by simp [Memory.bytes]

theorem Memory.getElem?_bytes {m : Memory} {a n i : Nat} (h : i < n) : (m.bytes a n)[i]? = some (m.read (a + i)) := by
  simp [Memory.bytes, h]

/-- The bytes of an output are the output. -/
theorem Memory.bytes_ofBytes (d : Nat) (bs : List Byte) : (Memory.ofBytes d bs).bytes 0 bs.length = bs := by
  refine List.ext_getElem (by simp) fun i h1 h2 => ?_
  rw [Memory.getElem_bytes, Nat.zero_add, Memory.read_ofBytes_lt h2]

/-- Two buffers that agree on a range have the same bytes there. -/
theorem Memory.bytes_congr {m n : Memory} {a k : Nat} (h : ∀ i, a ≤ i → i < a + k → m.read i = n.read i) :
    m.bytes a k = n.bytes a k := by
  refine List.map_congr_left fun i hi => h _ (by omega) ?_
  have := List.mem_range.1 hi
  omega

end Sys2Proof.Machine
end

