-- ==== Sys2Proof/Laws/Canon.lean ====
section
/-! SUPPORT. The laws of canonical assignment: the sort, the values as partial Kraft sums, and the tables written. -/

namespace Sys2Proof.Machine

/-! ### The canonical sort -/

theorem canonicalLe_total (a b : AlphaEntry) : canonicalLe a b ∨ canonicalLe b a := by
  unfold canonicalLe
  rcases Nat.lt_trichotomy a.len.toNat b.len.toNat with h | h | h
  · exact .inl (.inl h)
  · have := BitVec.eq_of_toNat_eq h
    rcases Nat.le_total a.sym.toNat b.sym.toNat with hs | hs
    · exact .inl (.inr ⟨this, hs⟩)
    · exact .inr (.inr ⟨this.symm, hs⟩)
  · exact .inr (.inl h)

theorem canonicalLe_trans {a b c : AlphaEntry} (h1 : canonicalLe a b) (h2 : canonicalLe b c) : canonicalLe a c := by
  unfold canonicalLe at *
  rcases h1 with h1 | ⟨h1, h1'⟩ <;> rcases h2 with h2 | ⟨h2, h2'⟩
  · exact .inl (h1.trans h2)
  · exact .inl (h2 ▸ h1)
  · exact .inl (h1 ▸ h2)
  · exact .inr ⟨h1.trans h2, h1'.trans h2'⟩

theorem canonicalLe_antisymm {a b : AlphaEntry} (h1 : canonicalLe a b) (h2 : canonicalLe b a) : a = b := by
  obtain ⟨as, al⟩ := a
  obtain ⟨bs, bl⟩ := b
  unfold canonicalLe at *
  simp only at h1 h2
  rcases h1 with h1 | ⟨h1, h1'⟩ <;> rcases h2 with h2 | ⟨h2, h2'⟩
  · omega
  · rw [h2] at h1; omega
  · rw [h1] at h2; omega
  · rw [h1, BitVec.eq_of_toNat_eq (Nat.le_antisymm h1' h2')]

theorem canonicalLe_len {a b : AlphaEntry} (h : canonicalLe a b) : a.len.toNat ≤ b.len.toNat := by
  rcases h with h | h
  · exact h.le
  · rw [h.1]

theorem perm_sortLS (ps : List AlphaEntry) : (sortLS ps).Perm ps := List.perm_insertionSort _ ps

theorem pairwise_sortLS (ps : List AlphaEntry) : (sortLS ps).Pairwise canonicalLe := by
  have : Std.Total canonicalLe := ⟨canonicalLe_total⟩
  have : IsTrans AlphaEntry canonicalLe := ⟨fun _ _ _ => canonicalLe_trans⟩
  exact List.pairwise_insertionSort _ ps

/-- A list in canonical order is the sort of every list with the same entries. -/
theorem sortLS_eq_of_perm {ps qs : List AlphaEntry} (hp : ps.Pairwise canonicalLe) (h : qs.Perm ps) : sortLS qs = ps :=
  ((perm_sortLS qs).trans h).eq_of_pairwise (fun _ _ _ _ => canonicalLe_antisymm) (pairwise_sortLS qs) hp

theorem sortLS_of_sorted {ps : List AlphaEntry} (hp : ps.Pairwise canonicalLe) : sortLS ps = ps :=
  sortLS_eq_of_perm hp (List.Perm.refl _)

@[simp] theorem length_sortLS (ps : List AlphaEntry) : (sortLS ps).length = ps.length := (perm_sortLS ps).length_eq

theorem kraftSum_perm {ps qs : List AlphaEntry} (h : ps.Perm qs) : kraftSum ps = kraftSum qs := (h.map _).sum_eq

@[simp] theorem kraftSum_nil : kraftSum [] = 0 := rfl

@[simp] theorem kraftSum_cons (e : AlphaEntry) (ps : List AlphaEntry) :
    kraftSum (e :: ps) = 2 ^ (255 - e.len.toNat) + kraftSum ps := rfl

/-! ### CanonAssign -/

/-- The value of the next entry, in the recurrence of `canonFrom`. -/
abbrev nextCode (next prev : Nat) (e : AlphaEntry) : Nat := next * 2 ^ (e.len.toNat - prev)

/-- `CanonAssign` on a nonempty list, when it succeeds. -/
theorem canonFrom_cons_ok {next prev k : Nat} {e : AlphaEntry} {ps : List AlphaEntry} {codes : List Nat} :
    canonFrom next prev k (e :: ps) = .ok codes ↔
      e.len.toNat ≤ 127 ∧ nextCode next prev e < 2 ^ e.len.toNat ∧
        ∃ rest, codes = nextCode next prev e :: rest ∧
          canonFrom (nextCode next prev e + 1) e.len.toNat (k + 1) ps = .ok rest := by
  rw [canonFrom]
  by_cases h : e.len.toNat > Config.maxCodeLen ∨ nextCode next prev e ≥ 2 ^ e.len.toNat
  · rw [if_pos h]
    simp only [Config.maxCodeLen] at h
    simp only [reduceCtorEq, false_iff, not_and]
    intro h1 h2
    omega
  · rw [if_neg h]
    simp only [Config.maxCodeLen] at h
    push Not at h
    constructor
    · intro hc
      refine ⟨h.1, h.2, ?_⟩
      split at hc
      · rename_i rest hr
        exact ⟨rest, by simpa using hc.symm, hr⟩
      · simp at hc
    · rintro ⟨-, -, rest, rfl, hr⟩
      rw [hr]

/-- `CanonAssign` on a nonempty list, when it fails. -/
theorem canonFrom_cons_error {next prev k j : Nat} {e : AlphaEntry} {ps : List AlphaEntry} :
    canonFrom next prev k (e :: ps) = .error j ↔
      ((127 < e.len.toNat ∨ 2 ^ e.len.toNat ≤ nextCode next prev e) ∧ j = k) ∨
        (e.len.toNat ≤ 127 ∧ nextCode next prev e < 2 ^ e.len.toNat ∧
          canonFrom (nextCode next prev e + 1) e.len.toNat (k + 1) ps = .error j) := by
  rw [canonFrom]
  by_cases h : e.len.toNat > Config.maxCodeLen ∨ nextCode next prev e ≥ 2 ^ e.len.toNat
  · rw [if_pos h]
    simp only [Config.maxCodeLen] at h
    simp only [Except.error.injEq]
    constructor
    · rintro rfl
      exact .inl ⟨h, rfl⟩
    · rintro (⟨-, rfl⟩ | ⟨h1, h2, -⟩)
      · rfl
      · omega
  · rw [if_neg h]
    simp only [Config.maxCodeLen] at h
    push Not at h
    constructor
    · intro hc
      refine .inr ⟨h.1, h.2, ?_⟩
      split at hc
      · simp at hc
      · rename_i j' hr
        rw [hr]
        simpa using hc
    · rintro (⟨h1, -⟩ | ⟨-, -, hr⟩)
      · omega
      · rw [hr]

theorem canonFrom_length {next prev k : Nat} {ps : List AlphaEntry} {codes : List Nat}
    (h : canonFrom next prev k ps = .ok codes) : codes.length = ps.length := by
  induction ps generalizing next prev k codes with
  | nil => simp only [canonFrom, Except.ok.injEq] at h; simp [← h]
  | cons e ps ih =>
    obtain ⟨-, -, rest, rfl, hr⟩ := canonFrom_cons_ok.1 h
    simp [ih hr]

theorem canonAssign_length {ps : List AlphaEntry} {codes : List Nat} (h : canonAssign ps = .ok codes) :
    codes.length = ps.length := canonFrom_length h

theorem canonFrom_error_lt {next prev k j : Nat} {ps : List AlphaEntry} (h : canonFrom next prev k ps = .error j) :
    k ≤ j ∧ j < k + ps.length := by
  induction ps generalizing next prev k with
  | nil => simp [canonFrom] at h
  | cons e ps ih =>
    rcases canonFrom_cons_error.1 h with ⟨-, rfl⟩ | ⟨-, -, hr⟩
    · simp
    · have := ih hr
      simp only [List.length_cons]
      omega

/-- A length bound that a sorted list keeps. -/
theorem sorted_cons_len {e : AlphaEntry} {ps : List AlphaEntry} (h : (e :: ps).Pairwise canonicalLe) :
    ps.Pairwise canonicalLe ∧ ∀ f ∈ ps, e.len.toNat ≤ f.len.toNat :=
  ⟨(List.pairwise_cons.1 h).2, fun f hf => canonicalLe_len ((List.pairwise_cons.1 h).1 f hf)⟩

theorem nextCode_scale {next prev : Nat} {e : AlphaEntry} (hp : prev ≤ e.len.toNat) :
    nextCode next prev e * 2 ^ (255 - e.len.toNat) = next * 2 ^ (255 - prev) := by
  have := e.len.isLt
  rw [nextCode, Nat.mul_assoc, ← Nat.pow_add]
  congr 2
  omega

/-- The values CanonAssign gives, in units of 2^-255, are the Kraft sums of the entries before them; each value fits
its length, and the lengths are at most 127. -/
theorem canonFrom_values {next prev k : Nat} {ps : List AlphaEntry} {codes : List Nat}
    (hs : ps.Pairwise canonicalLe) (hp : ∀ e ∈ ps, prev ≤ e.len.toNat) (h : canonFrom next prev k ps = .ok codes) :
    ∀ i, i < ps.length →
      codes.getD i 0 * 2 ^ (255 - (ps.getD i ⟨0, 0⟩).len.toNat) = next * 2 ^ (255 - prev) + kraftSum (ps.take i) ∧
      codes.getD i 0 < 2 ^ (ps.getD i ⟨0, 0⟩).len.toNat ∧ (ps.getD i ⟨0, 0⟩).len.toNat ≤ 127 := by
  induction ps generalizing next prev k codes with
  | nil => simp
  | cons e ps ih =>
    obtain ⟨h1, h2, rest, rfl, hr⟩ := canonFrom_cons_ok.1 h
    obtain ⟨hs', hl⟩ := sorted_cons_len hs
    intro i hi
    cases i with
    | zero => exact ⟨by simpa using nextCode_scale (hp e List.mem_cons_self), by simpa using h2, by simpa using h1⟩
    | succ i =>
      have := ih hs' hl hr i (by simpa using hi)
      simp only [List.getD_cons_succ, List.take_succ_cons, kraftSum_cons]
      refine ⟨?_, this.2⟩
      rw [this.1, Nat.add_mul, nextCode_scale (hp e List.mem_cons_self)]
      ring

theorem canonAssign_values {ps : List AlphaEntry} {codes : List Nat} (hs : ps.Pairwise canonicalLe)
    (h : canonAssign ps = .ok codes) : ∀ i, i < ps.length →
      codes.getD i 0 * 2 ^ (255 - (ps.getD i ⟨0, 0⟩).len.toNat) = kraftSum (ps.take i) ∧
      codes.getD i 0 < 2 ^ (ps.getD i ⟨0, 0⟩).len.toNat ∧ (ps.getD i ⟨0, 0⟩).len.toNat ≤ 127 := by
  intro i hi
  simpa using canonFrom_values hs (fun _ _ => Nat.zero_le _) h i hi

/-- CanonAssign succeeds exactly when the lengths are at most 127 and the Kraft sum stays within 1. -/
theorem canonFrom_ok_iff {next prev k : Nat} {ps : List AlphaEntry} (hs : ps.Pairwise canonicalLe)
    (hp : ∀ e ∈ ps, prev ≤ e.len.toNat) (hprev : prev ≤ 255) (hn : next ≤ 2 ^ prev) :
    (∃ codes, canonFrom next prev k ps = .ok codes) ↔
      (∀ e ∈ ps, e.len.toNat ≤ 127) ∧ next * 2 ^ (255 - prev) + kraftSum ps ≤ 2 ^ 255 := by
  induction ps generalizing next prev k with
  | nil =>
    simp only [canonFrom, Except.ok.injEq, exists_eq', List.not_mem_nil, false_implies, implies_true, kraftSum_nil,
      Nat.add_zero, true_and, true_iff]
    calc next * 2 ^ (255 - prev) ≤ 2 ^ prev * 2 ^ (255 - prev) := Nat.mul_le_mul_right _ hn
      _ = 2 ^ 255 := by rw [← Nat.pow_add]; congr 1; omega
  | cons e ps ih =>
    obtain ⟨hs', hl⟩ := sorted_cons_len hs
    have hpe := hp e List.mem_cons_self
    have h255 : e.len.toNat ≤ 255 := by have := e.len.isLt; omega
    have hscale := @nextCode_scale next prev e hpe
    have hone : 2 ^ e.len.toNat * 2 ^ (255 - e.len.toNat) = 2 ^ 255 := by
      rw [← Nat.pow_add]; congr 1; omega
    have hpos : 0 < 2 ^ (255 - e.len.toNat) := Nat.two_pow_pos _
    have hsum : (nextCode next prev e + 1) * 2 ^ (255 - e.len.toNat) + kraftSum ps =
        next * 2 ^ (255 - prev) + kraftSum (e :: ps) := by
      rw [Nat.add_mul, hscale, kraftSum_cons]; ring
    constructor
    · rintro ⟨codes, h⟩
      obtain ⟨h1, h2, rest, rfl, hr⟩ := canonFrom_cons_ok.1 h
      have := (ih hs' hl h255 h2).1 ⟨rest, hr⟩
      refine ⟨fun f hf => ?_, hsum ▸ this.2⟩
      rcases List.mem_cons.1 hf with rfl | hf
      · exact h1
      · exact this.1 f hf
    · rintro ⟨h1, h2⟩
      have hlt : nextCode next prev e < 2 ^ e.len.toNat := by
        by_contra hge
        have : 2 ^ e.len.toNat * 2 ^ (255 - e.len.toNat) ≤ nextCode next prev e * 2 ^ (255 - e.len.toNat) :=
          Nat.mul_le_mul_right _ (Nat.le_of_not_lt hge)
        rw [hone, hscale] at this
        rw [kraftSum_cons] at h2
        omega
      obtain ⟨rest, hr⟩ := (ih (k := k + 1) hs' hl h255 hlt).2
        ⟨fun f hf => h1 f (List.mem_cons_of_mem _ hf), hsum ▸ h2⟩
      exact ⟨_, canonFrom_cons_ok.2 ⟨h1 e List.mem_cons_self, hlt, rest, rfl, hr⟩⟩

theorem canonAssign_ok_iff {ps : List AlphaEntry} (hs : ps.Pairwise canonicalLe) :
    (∃ codes, canonAssign ps = .ok codes) ↔ (∀ e ∈ ps, e.len.toNat ≤ 127) ∧ kraftSum ps ≤ 2 ^ 255 := by
  simpa [canonAssign] using
    canonFrom_ok_iff (next := 0) (prev := 0) (k := 0) hs (fun _ _ => Nat.zero_le _) (by decide) (by decide)

theorem kraftSum_take_lt {ps : List AlphaEntry} {i j : Nat} (hij : i < j) (hi : i < ps.length) :
    kraftSum (ps.take i) + 2 ^ (255 - (ps.getD i ⟨0, 0⟩).len.toNat) ≤ kraftSum (ps.take j) := by
  induction ps generalizing i j with
  | nil => simp at hi
  | cons e ps ih =>
    obtain ⟨j, rfl⟩ : ∃ m, j = m + 1 := ⟨j - 1, by omega⟩
    cases i with
    | zero => simp
    | succ i =>
      have := ih (i := i) (j := j) (by omega) (by simpa using hi)
      simp only [List.take_succ_cons, kraftSum_cons, List.getD_cons_succ]
      omega

/-- Entries of a sorted list come in order of length. -/
theorem sorted_getD_len {ps : List AlphaEntry} (hs : ps.Pairwise canonicalLe) {i j : Nat} (hij : i < j)
    (hj : j < ps.length) : (ps.getD i ⟨0, 0⟩).len.toNat ≤ (ps.getD j ⟨0, 0⟩).len.toNat := by
  have := List.pairwise_iff_getElem.1 hs i j (by omega) hj hij
  rw [List.getD_eq_getElem _ _ (by omega), List.getD_eq_getElem _ _ hj]
  exact canonicalLe_len this

/-! ### The tables written from an alphabet -/

/-- Entries with distinct symbols: the one found for a symbol of the list is the entry itself. -/
theorem find?_sym {ps : List AlphaEntry} (hn : (ps.map (·.sym)).Nodup) {e : AlphaEntry} (he : e ∈ ps) :
    ps.find? (fun f => f.sym == e.sym) = some e := by
  induction ps with
  | nil => simp at he
  | cons p ps ih =>
    rw [List.map_cons, List.nodup_cons] at hn
    rcases List.mem_cons.1 he with rfl | he
    · simp
    · have : p.sym ≠ e.sym := fun h => hn.1 (h ▸ List.mem_map_of_mem he)
      rw [List.find?_cons_of_neg (by simpa using this), ih hn.2 he]

theorem find?_sym_none {ps : List AlphaEntry} {b : Byte} (hb : b ∉ ps.map (·.sym)) :
    ps.find? (fun f => f.sym == b) = none := by
  rw [List.find?_eq_none]
  intro e he h
  exact hb (List.mem_map.2 ⟨e, he, by simpa using h⟩)

theorem find?_zip_sym {ps : List AlphaEntry} {codes : List Nat} (hn : (ps.map (·.sym)).Nodup)
    {p : AlphaEntry × Nat} (hp : p ∈ ps.zip codes) :
    (ps.zip codes).find? (fun q => q.1.sym == p.1.sym) = some p := by
  induction ps generalizing codes with
  | nil => simp at hp
  | cons e ps ih =>
    cases codes with
    | nil => simp at hp
    | cons c codes =>
      rw [List.map_cons, List.nodup_cons] at hn
      rw [List.zip_cons_cons] at hp ⊢
      rcases List.mem_cons.1 hp with rfl | hp
      · simp
      · have : e.sym ≠ p.1.sym := fun h => hn.1 (h ▸ List.mem_map_of_mem (List.of_mem_zip hp).1)
        rw [List.find?_cons_of_neg (by simpa using this), ih hn.2 hp]

theorem tableAt_codeTableOf {ps : List AlphaEntry} {codes : List Nat} (hn : (ps.map (·.sym)).Nodup)
    {p : AlphaEntry × Nat} (hp : p ∈ ps.zip codes) : tableAt (codeTableOf ps codes) p.1.sym = BitVec.ofNat 128 p.2 := by
  rw [codeTableOf, tableAt_tableOf, find?_zip_sym hn hp]

theorem tableAt_codeTableOf_none {ps : List AlphaEntry} {codes : List Nat} {b : Byte} (hb : b ∉ ps.map (·.sym)) :
    tableAt (codeTableOf ps codes) b = 0 := by
  have : (ps.zip codes).find? (fun q => q.1.sym == b) = none := by
    rw [List.find?_eq_none]
    intro p hp h
    exact hb (List.mem_map.2 ⟨p.1, (List.of_mem_zip hp).1, by simpa using h⟩)
  rw [codeTableOf, tableAt_tableOf, this]

theorem tableAt_lenTableOf {ps : List AlphaEntry} (hn : (ps.map (·.sym)).Nodup) {e : AlphaEntry} (he : e ∈ ps) :
    tableAt (lenTableOf ps) e.sym = e.len := by
  rw [lenTableOf, tableAt_tableOf, find?_sym hn he]

theorem tableAt_lenTableOf_none {ps : List AlphaEntry} {b : Byte} (hb : b ∉ ps.map (·.sym)) :
    tableAt (lenTableOf ps) b = 0 := by
  rw [lenTableOf, tableAt_tableOf, find?_sym_none hb]

/-- A list of distinct symbols has at most 256 entries. -/
theorem length_le_of_nodup {ps : List AlphaEntry} (hn : (ps.map (·.sym)).Nodup) : ps.length ≤ 256 := by
  have : (ps.map (·.sym)).Subperm allSymbols := hn.subperm fun s _ => mem_allSymbols s
  simpa [length_allSymbols] using this.length_le

theorem toList_alphaTableOf_take {ps : List AlphaEntry} (hl : ps.length ≤ 256) :
    (alphaTableOf ps).toList.take ps.length = ps := by
  refine List.ext_getElem (by simp [hl]) fun i h1 h2 => ?_
  have hi : i < 256 := by omega
  simp [alphaTableOf, tableOf, h2]

/-- The alphabet that `installCode` leaves is the list it wrote. -/
theorem alphabet_installCode {ps : List AlphaEntry} (hl : ps.length ≤ 256) (codes : List Nat) (s : State) :
    alphabet (installCode ps codes s) = ps := by
  show (alphaTableOf ps).toList.take (BitVec.ofNat 9 ps.length).toNat = ps
  rw [BitVec.toNat_ofNat, Nat.mod_eq_of_lt (by omega), toList_alphaTableOf_take hl]

/-! ### Pairs(LEN) -/

theorem mem_lenPairs {len : Table Byte} {e : AlphaEntry} :
    e ∈ lenPairs len ↔ e.len = tableAt len e.sym ∧ e.len ≠ 0 := by
  rw [lenPairs, (perm_sortLS _).mem_iff, List.mem_map]
  constructor
  · rintro ⟨s, hs, rfl⟩
    exact ⟨rfl, by simpa using (List.mem_filter.1 hs).2⟩
  · rintro ⟨h1, h2⟩
    refine ⟨e.sym, List.mem_filter.2 ⟨mem_allSymbols _, by simpa [← h1] using h2⟩, ?_⟩
    rw [← h1]

theorem pairwise_lenPairs (len : Table Byte) : (lenPairs len).Pairwise canonicalLe := pairwise_sortLS _

theorem nodup_sym_lenPairs (len : Table Byte) : ((lenPairs len).map (·.sym)).Nodup := by
  rw [lenPairs, ((perm_sortLS _).map _).nodup_iff, List.map_map]
  show (List.map (fun s => s) _).Nodup
  rw [List.map_id']
  exact nodup_allSymbols.filter _

theorem len_pos_of_mem_lenPairs {len : Table Byte} {e : AlphaEntry} (h : e ∈ lenPairs len) : 1 ≤ e.len.toNat := by
  have := (mem_lenPairs.1 h).2
  by_contra hc
  exact this (BitVec.eq_of_toNat_eq (by simpa using hc))

/-- Reading the pairs back from the LEN table that a canonical alphabet wrote gives the alphabet. -/
theorem lenPairs_lenTableOf {ps : List AlphaEntry} (h : CanonicalAlphabet ps) : lenPairs (lenTableOf ps) = ps := by
  obtain ⟨hs, hn, hl⟩ := h
  refine sortLS_eq_of_perm hs ?_
  refine (List.perm_ext_iff_of_nodup ?_ hn.of_map).2 fun e => ?_
  · refine (nodup_allSymbols.filter _).map_on fun x _ y _ hxy => congrArg AlphaEntry.sym hxy
  · constructor
    · intro he
      obtain ⟨s, hs', rfl⟩ := List.mem_map.1 he
      have hne : tableAt (lenTableOf ps) s ≠ 0 := by simpa using (List.mem_filter.1 hs').2
      by_cases hm : s ∈ ps.map (·.sym)
      · obtain ⟨f, hf, rfl⟩ := List.mem_map.1 hm
        rw [tableAt_lenTableOf hn hf]
        exact hf
      · exact absurd (tableAt_lenTableOf_none hm) hne
    · intro he
      have := tableAt_lenTableOf hn he
      refine List.mem_map.2 ⟨e.sym, List.mem_filter.2 ⟨mem_allSymbols _, ?_⟩, by rw [this]⟩
      have h1 := (hl e he).1
      rw [this]
      simp only [bne_iff_ne, ne_eq]
      rintro h0
      rw [h0] at h1
      simp at h1

/-- The tables that `installCode` writes from a canonical alphabet hold its code. -/
theorem holdsCode_installCode {ps : List AlphaEntry} {codes : List Nat} {s : State} (hne : ps ≠ [])
    (hc : CanonicalAlphabet ps) (ha : canonAssign ps = .ok codes) (hlen : ∀ e ∈ ps, tableAt s.len e.sym = e.len) :
    HoldsCode (installCode ps codes s) ps codes := by
  have hn := hc.2.1
  have hl := length_le_of_nodup hn
  refine ⟨hne, hc, ha, ?_, fun k => ?_, hlen, fun p hp => ?_, fun b hb => tableAt_codeTableOf_none hb, rfl⟩
  · show (BitVec.ofNat 9 ps.length).toNat = ps.length
    rw [BitVec.toNat_ofNat, Nat.mod_eq_of_lt (by omega)]
  · show tableAt (alphaTableOf ps) k = _
    rw [alphaTableOf, tableAt_tableOf]
  · show (tableAt (codeTableOf ps codes) p.1.sym).toNat = p.2
    rw [tableAt_codeTableOf hn hp, BitVec.toNat_ofNat, Nat.mod_eq_of_lt]
    obtain ⟨i, hi, hpi⟩ := List.mem_iff_getElem.1 hp
    have hi1 : i < ps.length := by simp only [List.length_zip] at hi; omega
    have hi2 : i < codes.length := by simp only [List.length_zip] at hi; omega
    have hv := canonAssign_values hc.1 ha i hi1
    have hp2 : p.2 = codes.getD i 0 := by
      rw [← hpi, List.getElem_zip, List.getD_eq_getElem _ _ hi2]
    rw [hp2]
    exact hv.2.1.trans_le (Nat.pow_le_pow_right (by decide) (by omega))

end Sys2Proof.Machine
end

