-- ==== Sys2Proof/Laws/Code.lean ====
section
/-! SUPPORT. The laws of prefix codes: canonical codewords are prefix-free, encoding is concatenation, and matching
inverts it. -/

namespace Sys2Proof.Machine

/-! ### Prefix-freeness -/

/-- Canonical codewords are prefix-free (42_canonical_assign.md R104): of two entries, the codeword of one is a prefix
of the other's only if they are the same entry. -/
theorem canonAssign_prefix {ps : List AlphaEntry} {codes : List Nat} (hs : ps.Pairwise canonicalLe)
    (h : canonAssign ps = .ok codes) {i j : Nat} (hi : i < ps.length) (hj : j < ps.length)
    (hp : (bin (ps.getD i ⟨0, 0⟩).len.toNat (codes.getD i 0)).IsPrefix
      (bin (ps.getD j ⟨0, 0⟩).len.toNat (codes.getD j 0))) : i = j := by
  obtain ⟨ki, vi, li⟩ := canonAssign_values hs h i hi
  obtain ⟨kj, vj, lj⟩ := canonAssign_values hs h j hj
  obtain ⟨hle, hdiv⟩ := (bin_isPrefix_bin_iff vi vj).1 hp
  generalize hl : (ps.getD i ⟨0, 0⟩).len.toNat = l at *
  generalize hl' : (ps.getD j ⟨0, 0⟩).len.toNat = l' at *
  generalize codes.getD i 0 = v at *
  generalize codes.getD j 0 = v' at *
  have hpow : 2 ^ (l' - l) * 2 ^ (255 - l') = 2 ^ (255 - l) := by rw [← Nat.pow_add]; congr 1; omega
  have hlow : v * 2 ^ (255 - l) ≤ v' * 2 ^ (255 - l') := by
    rw [← hpow, ← Nat.mul_assoc]
    refine Nat.mul_le_mul_right _ ?_
    rw [← hdiv]
    exact Nat.div_mul_le_self _ _
  have hhigh : v' * 2 ^ (255 - l') < (v + 1) * 2 ^ (255 - l) := by
    rw [← hpow, ← Nat.mul_assoc]
    refine Nat.mul_lt_mul_of_pos_right ?_ (Nat.two_pow_pos _)
    rw [← hdiv]
    have := Nat.lt_mul_div_succ v' (Nat.two_pow_pos (l' - l))
    rwa [Nat.mul_comm] at this
  rcases Nat.lt_trichotomy i j with hij | hij | hij
  · have := kraftSum_take_lt hij hi
    rw [← ki, ← kj, hl] at this
    exfalso
    rw [Nat.add_mul] at hhigh
    omega
  · exact hij
  · have := kraftSum_take_lt hij hj
    rw [← ki, ← kj] at this
    have := Nat.two_pow_pos (255 - (ps.getD j ⟨0, 0⟩).len.toNat)
    omega

/-- A code table over entries: lengths between 1 and `maxLen`, values that fit them, and no codeword a prefix of
another entry's. -/
structure PrefixCode (entries : List AlphaEntry) (code : Table CodeWord) (maxLen : Nat) : Prop where
  len_pos : ∀ e ∈ entries, 1 ≤ e.len.toNat
  len_le : ∀ e ∈ entries, e.len.toNat ≤ maxLen
  fits : ∀ e ∈ entries, (tableAt code e.sym).toNat < 2 ^ e.len.toNat
  free : ∀ e ∈ entries, ∀ f ∈ entries, (codewordOf code e).IsPrefix (codewordOf code f) → e = f

theorem codes_zip_mem {ps : List AlphaEntry} {codes : List Nat} (h : codes.length = ps.length) {i : Nat}
    (hi : i < ps.length) : (ps.getD i ⟨0, 0⟩, codes.getD i 0) ∈ ps.zip codes := by
  rw [List.getD_eq_getElem _ _ hi, List.getD_eq_getElem _ _ (by omega), ← List.getElem_zip (h := by simp; omega)]
  exact List.getElem_mem _

theorem exists_getD {ps : List AlphaEntry} {e : AlphaEntry} (h : e ∈ ps) : ∃ i, i < ps.length ∧ ps.getD i ⟨0, 0⟩ = e := by
  obtain ⟨i, hi, he⟩ := List.mem_iff_getElem.1 h
  exact ⟨i, hi, by rw [List.getD_eq_getElem _ _ hi, he]⟩

/-- MAXLEN is the length of the last entry (10_state.md R38). -/
theorem maxLenOf_eq {ps : List AlphaEntry} (h : ps ≠ []) : maxLenOf ps = (ps.getD (ps.length - 1) ⟨0, 0⟩).len := by
  have := List.length_pos_iff.2 h
  rw [maxLenOf, List.getLast?_eq_getLast_of_ne_nil h, List.getLast_eq_getElem, List.getD_eq_getElem _ _ (by omega)]

/-- The last length of a canonical list is the greatest. -/
theorem len_le_maxLenOf {ps : List AlphaEntry} (hs : ps.Pairwise canonicalLe) {e : AlphaEntry} (he : e ∈ ps) :
    e.len.toNat ≤ (maxLenOf ps).toNat := by
  obtain ⟨i, hi, rfl⟩ := exists_getD he
  rw [maxLenOf_eq (List.ne_nil_of_mem he)]
  rcases Nat.lt_or_ge i (ps.length - 1) with h | h
  · exact sorted_getD_len hs h (by omega)
  · rw [show i = ps.length - 1 by omega]

/-- The code of a canonical alphabet is a prefix code. -/
theorem prefixCode_of_values {ps : List AlphaEntry} {codes : List Nat} {code : Table CodeWord}
    (hc : CanonicalAlphabet ps) (ha : canonAssign ps = .ok codes)
    (hv : ∀ p ∈ ps.zip codes, (tableAt code p.1.sym).toNat = p.2) : PrefixCode ps code (maxLenOf ps).toNat := by
  have hlen := canonAssign_length ha
  have hval : ∀ i, i < ps.length → (tableAt code (ps.getD i ⟨0, 0⟩).sym).toNat = codes.getD i 0 := fun i hi =>
    hv _ (codes_zip_mem hlen hi)
  refine ⟨fun e he => (hc.2.2 e he).1, fun e he => len_le_maxLenOf hc.1 he, fun e he => ?_, fun e he f hf h => ?_⟩
  · obtain ⟨i, hi, rfl⟩ := exists_getD he
    rw [hval i hi]
    exact (canonAssign_values hc.1 ha i hi).2.1
  · obtain ⟨i, hi, rfl⟩ := exists_getD he
    obtain ⟨j, hj, rfl⟩ := exists_getD hf
    rw [codewordOf, codewordOf, hval i hi, hval j hj] at h
    rw [canonAssign_prefix hc.1 ha hi hj h]

/-- The tables that hold a code list its alphabet. -/
theorem alphabet_of_holdsCode {s : State} {ps : List AlphaEntry} {codes : List Nat} (h : HoldsCode s ps codes) :
    alphabet s = ps := by
  obtain ⟨-, hc, -, hn, ha, -⟩ := h
  have h256 := length_le_of_nodup hc.2.1
  have : s.alpha = alphaTableOf ps := table_ext fun k => by rw [ha, alphaTableOf, tableAt_tableOf]
  rw [alphabet, this, hn, toList_alphaTableOf_take h256]

theorem alphabet_of_codeCleared {s : State} (h : CodeCleared s) : alphabet s = [] := by
  rw [alphabet, h.1]
  rfl

/-- Coherent tables hold a prefix code over distinct symbols. -/
theorem prefixCode_of_coherent {s : State} (h : TablesCoherent s) :
    PrefixCode (alphabet s) s.code s.maxLen.toNat ∧ ((alphabet s).map (·.sym)).Nodup := by
  rcases h with h | ⟨ps, codes, h⟩
  · rw [alphabet_of_codeCleared h]
    exact ⟨⟨by simp, by simp, by simp, by simp⟩, by simp⟩
  · rw [alphabet_of_holdsCode h]
    obtain ⟨-, hc, ha, -, -, -, hv, -, hm⟩ := h
    rw [hm]
    exact ⟨prefixCode_of_values hc ha hv, hc.2.1⟩

/-! ### Encoding -/

/-- The codeword of byte `b` over `entries`, empty when it has none. -/
def wordOf (entries : List AlphaEntry) (code : Table CodeWord) (b : Byte) : BitStr :=
  match entries.find? fun e => e.sym == b with
  | some e => codewordOf code e
  | none => []

theorem symbolCodeword_eq (s : State) (b : Byte) : symbolCodeword s b = wordOf (alphabet s) s.code b := rfl

/-- The alphabet has ALPHA_N entries, the first of ALPHA (10_state.md R37, R44). -/
theorem length_alphabet (s : State) (h : s.alphaN.toNat ≤ 256) : (alphabet s).length = s.alphaN.toNat := by
  rw [alphabet, List.length_take, Vector.length_toList, Nat.min_eq_left h]

theorem getElem_alphabet {s : State} {k : Byte} (h : k.toNat < (alphabet s).length) :
    (alphabet s)[k.toNat] = tableAt s.alpha k := by
  simp [alphabet, tableAt]

/-- Bit `k` of a codeword, from the first, is bit LEN - 1 - k of CODE (30_encoding.md R81). -/
theorem getD_codewordOf (code : Table CodeWord) {e : AlphaEntry} {k : Nat} (h : k < e.len.toNat) :
    (codewordOf code e).getD k false = (tableAt code e.sym).toNat.testBit (e.len.toNat - 1 - k) := by
  rw [codewordOf, List.getD_eq_getElem _ _ (by simpa using h), getElem_bin]

theorem encodeText_eq (s : State) (text : List Byte) :
    encodeText s text = text.flatMap (wordOf (alphabet s) s.code) := rfl

/-- Every byte of `text` has an entry. -/
def Covered (entries : List AlphaEntry) (text : List Byte) : Prop := ∀ b ∈ text, ∃ e ∈ entries, e.sym = b

theorem encodable_eq (s : State) (text : List Byte) : Encodable s text = Covered (alphabet s) text := rfl

theorem exists_find?_of_covered {entries : List AlphaEntry} {b : Byte} (h : ∃ e ∈ entries, e.sym = b) :
    ∃ e ∈ entries, e.sym = b ∧ entries.find? (fun e => e.sym == b) = some e := by
  obtain ⟨e, he, hb⟩ := h
  obtain ⟨f, hf⟩ := Option.isSome_iff_exists.1
    (List.find?_isSome (p := fun e : AlphaEntry => e.sym == b).2 ⟨e, he, by simpa using hb⟩)
  exact ⟨f, List.mem_of_find?_eq_some hf, by simpa using List.find?_some hf, hf⟩

theorem wordOf_of_covered {entries : List AlphaEntry} {code : Table CodeWord} {b : Byte}
    (h : ∃ e ∈ entries, e.sym = b) : ∃ e ∈ entries, e.sym = b ∧ wordOf entries code b = codewordOf code e := by
  obtain ⟨e, he, hb, hf⟩ := exists_find?_of_covered h
  exact ⟨e, he, hb, by rw [wordOf, hf]⟩

theorem wordOf_mem {entries : List AlphaEntry} {code : Table CodeWord} (hn : (entries.map (·.sym)).Nodup)
    {e : AlphaEntry} (he : e ∈ entries) : wordOf entries code e.sym = codewordOf code e := by
  rw [wordOf, find?_sym hn he]

/-- `EncodeBits` succeeds exactly on covered input, and then concatenates (43_container.md R108). -/
theorem encodeFrom_covered {entries : List AlphaEntry} {code : Table CodeWord} {text : List Byte} {i : Nat}
    (h : Covered entries text) : encodeFrom entries code i text = .ok (text.flatMap (wordOf entries code)) := by
  induction text generalizing i with
  | nil => rfl
  | cons b text ih =>
    obtain ⟨e, -, -, hf⟩ := exists_find?_of_covered (h b List.mem_cons_self)
    rw [encodeFrom, hf]
    simp only [ih fun c hc => h c (List.mem_cons_of_mem _ hc)]
    rw [List.flatMap_cons, wordOf, hf]

theorem encodeFrom_ok {entries : List AlphaEntry} {code : Table CodeWord} {text : List Byte} {i : Nat} {bits : BitStr}
    (h : encodeFrom entries code i text = .ok bits) : Covered entries text := by
  induction text generalizing i bits with
  | nil => simp [Covered]
  | cons b text ih =>
    rw [encodeFrom] at h
    split at h
    · simp at h
    · rename_i e he
      split at h
      · rename_i bits' hb
        intro c hc
        rcases List.mem_cons.1 hc with rfl | hc
        · exact ⟨e, List.mem_of_find?_eq_some he, by simpa using List.find?_some he⟩
        · exact ih hb c hc
      · simp at h

/-- `EncodeBits` reports the first byte without an entry. -/
theorem encodeFrom_uncovered {entries : List AlphaEntry} {code : Table CodeWord} {text : List Byte} {i k : Nat}
    (hk : k < text.length) (hc : Covered entries (text.take k)) (hb : ∀ e ∈ entries, e.sym ≠ text[k]) :
    encodeFrom entries code i text = .error (i + k) := by
  induction text generalizing i k with
  | nil => simp at hk
  | cons b text ih =>
    cases k with
    | zero =>
      have : entries.find? (fun e => e.sym == b) = none := List.find?_eq_none.2 fun e he => by simpa using hb e he
      rw [encodeFrom, this]
      rfl
    | succ k =>
      obtain ⟨e, -, -, hf⟩ := exists_find?_of_covered (hc b (by simp))
      have := ih (i := i + 1) (k := k) (by simpa using hk)
        (fun c hc' => hc c (by rw [List.take_succ_cons]; exact List.mem_cons_of_mem _ hc')) (by simpa using hb)
      rw [encodeFrom, hf]
      simp only [this]
      congr 1
      omega

/-- The bits depend only on the entries' codewords: more than 0 bits for a covered byte. -/
theorem length_wordOf_pos {entries : List AlphaEntry} {code : Table CodeWord} {maxLen : Nat}
    (hp : PrefixCode entries code maxLen) {b : Byte} (h : ∃ e ∈ entries, e.sym = b) :
    1 ≤ (wordOf entries code b).length := by
  obtain ⟨e, he, -, hw⟩ := wordOf_of_covered (code := code) h
  rw [hw, codewordOf, length_bin]
  exact hp.len_pos e he

/-! ### Matching -/

theorem entryFor_some {entries : List AlphaEntry} {code : Table CodeWord} {l v : Nat} {e : AlphaEntry}
    (h : entryFor entries code l v = some e) : e ∈ entries ∧ e.len.toNat = l ∧ (tableAt code e.sym).toNat = v := by
  refine ⟨List.mem_of_find?_eq_some h, ?_⟩
  simpa using List.find?_some h

theorem entryFor_none {entries : List AlphaEntry} {code : Table CodeWord} {l v : Nat}
    (h : entryFor entries code l v = none) {e : AlphaEntry} (he : e ∈ entries) (hl : e.len.toNat = l) :
    (tableAt code e.sym).toNat ≠ v := by
  have := List.find?_eq_none.1 h e he
  simpa [hl] using this

/-- A match is an entry whose codeword is a prefix of the bits. -/
theorem shortestMatch_some {entries : List AlphaEntry} {code : Table CodeWord} {maxLen : Nat}
    (hp : PrefixCode entries code maxLen) {bits : BitStr} {sym : Byte} {l : Nat}
    (h : shortestMatch entries code maxLen bits = some (sym, l)) :
    ∃ e ∈ entries, e.sym = sym ∧ e.len.toNat = l ∧ (codewordOf code e).IsPrefix bits := by
  obtain ⟨k, hk, hm⟩ := List.exists_of_findSome?_eq_some h
  obtain ⟨j, hj, rfl⟩ := List.mem_map.1 hk
  obtain ⟨e, he, heq⟩ := Option.map_eq_some_iff.1 hm
  obtain ⟨h1, h2, h3⟩ := entryFor_some he
  simp only [Prod.mk.injEq] at heq
  have hlt : j < min maxLen bits.length := by simpa using hj
  refine ⟨e, h1, heq.1, by omega, ?_⟩
  rw [codewordOf, bin_isPrefix_iff (hp.fits e h1), h2]
  exact ⟨by omega, h3.symm⟩

/-- Without a match no entry's codeword is a prefix of the bits. -/
theorem shortestMatch_none {entries : List AlphaEntry} {code : Table CodeWord} {maxLen : Nat}
    (hp : PrefixCode entries code maxLen) {bits : BitStr} (h : shortestMatch entries code maxLen bits = none)
    {e : AlphaEntry} (he : e ∈ entries) : ¬ (codewordOf code e).IsPrefix bits := by
  intro hpre
  rw [codewordOf, bin_isPrefix_iff (hp.fits e he)] at hpre
  have h1 := hp.len_pos e he
  have h2 := hp.len_le e he
  have := List.findSome?_eq_none_iff.1 h e.len.toNat
    (List.mem_map.2 ⟨e.len.toNat - 1, by simp only [List.mem_range]; omega, by omega⟩)
  exact entryFor_none (Option.map_eq_none_iff.1 this) he rfl hpre.2.symm

/-- At most one entry's codeword is a prefix of the bits (44_bit_matcher.md R125). -/
theorem prefix_unique {entries : List AlphaEntry} {code : Table CodeWord} {maxLen : Nat}
    (hp : PrefixCode entries code maxLen) {bits : BitStr} {e f : AlphaEntry} (he : e ∈ entries) (hf : f ∈ entries)
    (h1 : (codewordOf code e).IsPrefix bits) (h2 : (codewordOf code f).IsPrefix bits) : e = f := by
  rcases List.prefix_or_prefix_of_prefix h1 h2 with h | h
  · exact hp.free e he f hf h
  · exact (hp.free f hf e he h).symm

/-- The match of bits that begin with an entry's codeword is that entry. -/
theorem shortestMatch_codeword {entries : List AlphaEntry} {code : Table CodeWord} {maxLen : Nat}
    (hp : PrefixCode entries code maxLen) {e : AlphaEntry} (he : e ∈ entries) {bits : BitStr}
    (h : (codewordOf code e).IsPrefix bits) : shortestMatch entries code maxLen bits = some (e.sym, e.len.toNat) := by
  cases hm : shortestMatch entries code maxLen bits with
  | none => exact absurd h (shortestMatch_none hp hm he)
  | some p =>
    obtain ⟨sym, l⟩ := p
    obtain ⟨f, hf, rfl, rfl, hpre⟩ := shortestMatch_some hp hm
    rw [prefix_unique hp he hf h hpre]

/-- Matching the codewords of a text gives the text. -/
theorem matchFrom_encoded {entries : List AlphaEntry} {code : Table CodeWord} {maxLen cap : Nat}
    (hp : PrefixCode entries code maxLen) {text : List Byte} (hc : Covered entries text) {fuel c emitted : Nat}
    (hf : (text.flatMap (wordOf entries code)).length ≤ fuel) (he : emitted + text.length ≤ cap) :
    matchFrom entries code maxLen cap fuel c emitted (text.flatMap (wordOf entries code)) = .ok text := by
  induction text generalizing fuel c emitted with
  | nil => cases fuel <;> rfl
  | cons b text ih =>
    obtain ⟨e, hem, rfl, hw⟩ := wordOf_of_covered (code := code) (hc b List.mem_cons_self)
    have hlen : (codewordOf code e).length = e.len.toNat := length_bin _ _
    have hpos := hp.len_pos e hem
    have hm := shortestMatch_codeword hp hem
      (List.prefix_append (codewordOf code e) (text.flatMap (wordOf entries code)))
    rw [List.flatMap_cons, hw] at hf ⊢
    have hdrop : (codewordOf code e ++ text.flatMap (wordOf entries code)).drop e.len.toNat =
        text.flatMap (wordOf entries code) := by rw [← hlen]; simp
    rw [List.length_append] at hf
    generalize hb : codewordOf code e ++ text.flatMap (wordOf entries code) = bits at *
    cases bits with
    | nil =>
      have := congrArg List.length hb
      simp only [List.length_append, List.length_nil] at this
      omega
    | cons x bits =>
      cases fuel with
      | zero => omega
      | succ fuel =>
        simp only [List.length_cons] at he
        rw [matchFrom, hm]
        simp only
        rw [if_neg (by omega), hdrop, ih (fun c hc' => hc c (List.mem_cons_of_mem _ hc')) (by omega) (by omega)]

/-- What a successful match says: the bits are the codewords of its output, which fits. -/
theorem matchFrom_ok {entries : List AlphaEntry} {code : Table CodeWord} {maxLen cap : Nat}
    (hp : PrefixCode entries code maxLen) (hn : (entries.map (·.sym)).Nodup) {fuel c emitted : Nat} {bits : BitStr}
    {out : List Byte} (hcap : emitted ≤ cap)
    (h : matchFrom entries code maxLen cap fuel c emitted bits = .ok out) :
    Covered entries out ∧ bits = out.flatMap (wordOf entries code) ∧ emitted + out.length ≤ cap := by
  induction fuel generalizing c emitted bits out with
  | zero =>
    cases bits with
    | nil =>
      simp only [matchFrom, Except.ok.injEq] at h
      subst h
      exact ⟨by simp [Covered], rfl, by simpa using hcap⟩
    | cons b bits => simp [matchFrom] at h
  | succ fuel ih =>
    cases bits with
    | nil =>
      simp only [matchFrom, Except.ok.injEq] at h
      subst h
      exact ⟨by simp [Covered], rfl, by simpa using hcap⟩
    | cons b bits =>
      rw [matchFrom] at h
      split at h
      · simp at h
      · rename_i sym l hm
        split at h
        · simp at h
        · rename_i hne
          split at h
          · rename_i rest hr
            simp only [Except.ok.injEq] at h
            subst h
            obtain ⟨e, he, rfl, rfl, r, hr'⟩ := shortestMatch_some hp hm
            obtain ⟨h1, h2, h3⟩ := ih (by omega) hr
            refine ⟨fun x hx => ?_, ?_, ?_⟩
            · rcases List.mem_cons.1 hx with rfl | hx
              · exact ⟨e, he, rfl⟩
              · exact h1 x hx
            · rw [List.flatMap_cons, wordOf_mem hn he, ← h2, ← hr']
              have : (codewordOf code e).length = e.len.toNat := length_bin _ _
              rw [← this]
              simp
            · simp only [List.length_cons]
              omega
          · simp at h

/-- How matching fails: after the codewords of some text, either no codeword is a prefix of what remains, or one is and
the output is full. `ERR_INFO` is the cursor there. -/
theorem matchFrom_error {entries : List AlphaEntry} {code : Table CodeWord} {maxLen cap : Nat}
    (hp : PrefixCode entries code maxLen) (hn : (entries.map (·.sym)).Nodup) {fuel c emitted : Nat} {bits : BitStr}
    {f : Failure} (hcap : emitted ≤ cap) (hf : bits.length ≤ fuel)
    (h : matchFrom entries code maxLen cap fuel c emitted bits = .error f) :
    ∃ text rest, Covered entries text ∧ bits = text.flatMap (wordOf entries code) ++ rest ∧ rest ≠ [] ∧
      f.info = BitVec.ofNat 32 (c + (text.flatMap (wordOf entries code)).length) ∧
      ((f.status = .unmatchedBits ∧ emitted + text.length ≤ cap ∧ ∀ e ∈ entries, ¬ (codewordOf code e).IsPrefix rest) ∨
        (f.status = .outputOverflow ∧ emitted + text.length = cap ∧
          ∃ e ∈ entries, (codewordOf code e).IsPrefix rest)) := by
  induction fuel generalizing c emitted bits with
  | zero =>
    cases bits with
    | nil => simp [matchFrom] at h
    | cons b bits => simp at hf
  | succ fuel ih =>
    cases bits with
    | nil => simp [matchFrom] at h
    | cons b bits =>
      rw [matchFrom] at h
      split at h
      · rename_i hm
        simp only [Except.error.injEq] at h
        subst h
        exact ⟨[], b :: bits, by simp [Covered], rfl, by simp, by simp,
          .inl ⟨rfl, by simpa using hcap, fun e he => shortestMatch_none hp hm he⟩⟩
      · rename_i sym l hm
        obtain ⟨e, he, rfl, rfl, r, hr'⟩ := shortestMatch_some hp hm
        have hlen : (codewordOf code e).length = e.len.toNat := length_bin _ _
        split at h
        · rename_i hfull
          simp only [Except.error.injEq] at h
          subst h
          exact ⟨[], b :: bits, by simp [Covered], rfl, by simp, by simp, .inr ⟨rfl, by simpa using hfull, e, he, r, hr'⟩⟩
        · split at h
          · simp at h
          · rename_i g hr
            simp only [Except.error.injEq] at h
            subst h
            have hdrop : (b :: bits).drop e.len.toNat = r := by rw [← hr', ← hlen]; simp
            rw [hdrop] at hr
            have hpos := hp.len_pos e he
            have hlen' : r.length ≤ fuel := by
              have := congrArg List.length hr'
              simp only [List.length_append, List.length_cons] at this hf
              omega
            obtain ⟨text, rest, h1, h2, h3, h4, h5⟩ := ih (by omega) hlen' hr
            refine ⟨e.sym :: text, rest, fun x hx => ?_, ?_, h3, ?_, ?_⟩
            · rcases List.mem_cons.1 hx with rfl | hx
              · exact ⟨e, he, rfl⟩
              · exact h1 x hx
            · rw [List.flatMap_cons, wordOf_mem hn he, List.append_assoc, ← h2, hr']
            · rw [h4, List.flatMap_cons, wordOf_mem hn he, List.length_append, hlen]
              congr 1
              omega
            · simp only [List.length_cons]
              rcases h5 with ⟨h5, h6, h7⟩ | ⟨h5, h6, h7⟩
              · exact .inl ⟨h5, by omega, h7⟩
              · exact .inr ⟨h5, by omega, h7⟩

/-- The errors of matching, for every table, and the bound on its output. -/
theorem matchFrom_status {entries : List AlphaEntry} {code : Table CodeWord} {maxLen cap fuel c emitted : Nat}
    {bits : BitStr} {f : Failure} (h : matchFrom entries code maxLen cap fuel c emitted bits = .error f) :
    f.status = .unmatchedBits ∨ f.status = .outputOverflow := by
  induction fuel generalizing c emitted bits with
  | zero =>
    cases bits with
    | nil => simp [matchFrom] at h
    | cons b bits => simp only [matchFrom, Except.error.injEq] at h; exact .inl (by rw [← h])
  | succ fuel ih =>
    cases bits with
    | nil => simp [matchFrom] at h
    | cons b bits =>
      rw [matchFrom] at h
      split at h
      · simp only [Except.error.injEq] at h; exact .inl (by rw [← h])
      · split at h
        · simp only [Except.error.injEq] at h; exact .inr (by rw [← h])
        · split at h
          · simp at h
          · rename_i g hr
            simp only [Except.error.injEq] at h
            exact ih (h ▸ hr)

theorem matchFrom_length {entries : List AlphaEntry} {code : Table CodeWord} {maxLen cap fuel c emitted : Nat}
    {bits : BitStr} {out : List Byte} (hcap : emitted ≤ cap)
    (h : matchFrom entries code maxLen cap fuel c emitted bits = .ok out) : emitted + out.length ≤ cap := by
  induction fuel generalizing c emitted bits out with
  | zero =>
    cases bits with
    | nil => simp only [matchFrom, Except.ok.injEq] at h; subst h; simpa using hcap
    | cons b bits => simp [matchFrom] at h
  | succ fuel ih =>
    cases bits with
    | nil => simp only [matchFrom, Except.ok.injEq] at h; subst h; simpa using hcap
    | cons b bits =>
      rw [matchFrom] at h
      split at h
      · simp at h
      · split at h
        · simp at h
        · split at h
          · rename_i rest hr
            simp only [Except.ok.injEq] at h
            subst h
            have := ih (by omega) hr
            simp only [List.length_cons]
            omega
          · simp at h

theorem matchAll_length {entries : List AlphaEntry} {code : Table CodeWord} {maxLen cap : Nat} {bits : BitStr}
    {out : List Byte} (h : matchAll entries code maxLen cap bits = .ok out) : out.length ≤ cap := by
  simpa using matchFrom_length (Nat.zero_le _) h

theorem matchAll_encoded {entries : List AlphaEntry} {code : Table CodeWord} {maxLen cap : Nat}
    (hp : PrefixCode entries code maxLen) {text : List Byte} (hc : Covered entries text) (hl : text.length ≤ cap) :
    matchAll entries code maxLen cap (text.flatMap (wordOf entries code)) = .ok text :=
  matchFrom_encoded hp hc (Nat.le_refl _) (by omega)

theorem matchAll_ok {entries : List AlphaEntry} {code : Table CodeWord} {maxLen cap : Nat}
    (hp : PrefixCode entries code maxLen) (hn : (entries.map (·.sym)).Nodup) {bits : BitStr} {out : List Byte}
    (h : matchAll entries code maxLen cap bits = .ok out) :
    Covered entries out ∧ bits = out.flatMap (wordOf entries code) := by
  obtain ⟨h1, h2, -⟩ := matchFrom_ok hp hn (Nat.zero_le _) h
  exact ⟨h1, h2⟩

theorem length_payloadBits (s : State) : (payloadBits s).length = s.payBits.toNat := by simp [payloadBits]

end Sys2Proof.Machine
end

