-- ==== Sys2Proof/Laws/Container.lean ====
section
/-! SUPPORT. The laws of containers: the table check, the header, and reading back what was serialized. -/

namespace Sys2Proof.Machine

/-! ### CheckTable -/

/-- A pair a container may carry: a length in 1..127 and a symbol no earlier pair has (43_container.md R116). -/
def GoodEntries (es : List AlphaEntry) : Prop :=
  (∀ e ∈ es, 1 ≤ e.len.toNat ∧ e.len.toNat ≤ 127) ∧ (es.map (·.sym)).Nodup

theorem badEntryFrom_none_iff {seen : List Byte} {k : Nat} {es : List AlphaEntry} :
    badEntryFrom seen k es = none ↔ GoodEntries es ∧ ∀ e ∈ es, e.sym ∉ seen := by
  induction es generalizing seen k with
  | nil => simp [badEntryFrom, GoodEntries]
  | cons e es ih =>
    rw [badEntryFrom]
    by_cases hb : e.len.toNat = 0 ∨ e.len.toNat > Config.maxCodeLen ∨ e.sym ∈ seen
    · rw [if_pos hb]
      simp only [reduceCtorEq, false_iff, not_and]
      intro hg hs
      have h1 := hg.1 e List.mem_cons_self
      have h2 := hs e List.mem_cons_self
      simp only [Config.maxCodeLen] at hb
      rcases hb with hb | hb | hb
      · omega
      · omega
      · exact h2 hb
    · rw [if_neg hb, ih]
      simp only [Config.maxCodeLen] at hb
      push Not at hb
      simp only [GoodEntries, List.mem_cons, List.map_cons, List.nodup_cons, List.mem_map, not_or]
      constructor
      · rintro ⟨⟨h1, h2⟩, h3⟩
        refine ⟨⟨fun f hf => ?_, fun ⟨f, hf, hfe⟩ => (h3 f hf).1 hfe, h2⟩, fun f hf => ?_⟩
        · rcases hf with rfl | hf
          · omega
          · exact h1 f hf
        · rcases hf with rfl | hf
          · exact hb.2.2
          · exact (h3 f hf).2
      · rintro ⟨⟨h1, h2, h3⟩, h4⟩
        exact ⟨⟨fun f hf => h1 f (.inr hf), h3⟩, fun f hf => ⟨fun h => h2 ⟨f, hf, h⟩, h4 f (.inr hf)⟩⟩

/-- The first entry that may not stand where it stands is the one reported. -/
theorem badEntryFrom_first {seen : List Byte} {k i : Nat} {es : List AlphaEntry} (hi : i < es.length)
    (hb : es[i].len.toNat = 0 ∨ 127 < es[i].len.toNat ∨ es[i].sym ∈ seen ∨ ∃ j, ∃ h : j < i, es[j].sym = es[i].sym)
    (hg : GoodEntries (es.take i)) (hs : ∀ e ∈ es.take i, e.sym ∉ seen) :
    badEntryFrom seen k es = some (k + i) := by
  induction es generalizing seen k i with
  | nil => simp at hi
  | cons e es ih =>
    rw [badEntryFrom]
    simp only [Config.maxCodeLen]
    cases i with
    | zero =>
      rw [if_pos]
      · rfl
      · rcases hb with hb | hb | hb | ⟨j, h, -⟩
        · exact .inl hb
        · exact .inr (.inl hb)
        · exact .inr (.inr hb)
        · omega
    | succ i =>
      have h1 := hg.1 e (by simp)
      have h2 := hs e (by simp)
      rw [if_neg (by push Not; exact ⟨by omega, by omega, h2⟩), ih (i := i) (by simpa using hi)]
      · congr 1; omega
      · simp only [List.getElem_cons_succ] at hb
        rcases hb with hb | hb | hb | ⟨j, hj, hb⟩
        · exact .inl hb
        · exact .inr (.inl hb)
        · exact .inr (.inr (.inl (List.mem_cons_of_mem _ hb)))
        · cases j with
          | zero => exact .inr (.inr (.inl (by simp only [List.getElem_cons_zero] at hb; rw [← hb]; exact List.mem_cons_self)))
          | succ j => exact .inr (.inr (.inr ⟨j, by omega, by simpa using hb⟩))
      · refine ⟨fun f hf => hg.1 f (by rw [List.take_succ_cons]; exact List.mem_cons_of_mem _ hf), ?_⟩
        have := hg.2
        rw [List.take_succ_cons, List.map_cons, List.nodup_cons] at this
        exact this.2
      · intro f hf
        have := hg.2
        rw [List.take_succ_cons, List.map_cons, List.nodup_cons] at this
        rw [List.mem_cons, not_or]
        exact ⟨fun h => this.1 (h ▸ List.mem_map_of_mem hf),
          hs f (by rw [List.take_succ_cons]; exact List.mem_cons_of_mem _ hf)⟩

theorem canonicalAlphabet_sortLS {es : List AlphaEntry} (h : GoodEntries es) : CanonicalAlphabet (sortLS es) := by
  have hp := perm_sortLS es
  refine ⟨pairwise_sortLS es, (hp.map _).nodup_iff.2 h.2, fun e he => ?_⟩
  exact h.1 e (hp.mem_iff.1 he)

/-- `CheckTable` where it succeeds (43_container.md R116). -/
theorem checkTable_ok_iff {es ps : List AlphaEntry} {codes : List Nat} :
    checkTable es = .ok (ps, codes) ↔ GoodEntries es ∧ ps = sortLS es ∧ canonAssign ps = .ok codes := by
  rw [checkTable]
  cases hb : badEntryFrom [] 0 es with
  | some k =>
    simp only [reduceCtorEq, false_iff, not_and]
    intro hg
    have := (badEntryFrom_none_iff (seen := []) (k := 0)).2 ⟨hg, by simp⟩
    simp [hb] at this
  | none =>
    have hg := (badEntryFrom_none_iff.1 hb).1
    simp only [hg, true_and]
    cases hc : canonAssign (sortLS es) with
    | error m =>
      simp only [reduceCtorEq, false_iff, not_and]
      rintro rfl h
      simp [hc] at h
    | ok cs =>
      simp only [Except.ok.injEq, Prod.mk.injEq]
      constructor
      · rintro ⟨rfl, rfl⟩
        exact ⟨rfl, hc⟩
      · rintro ⟨rfl, h⟩
        exact ⟨rfl, by simpa [hc] using h⟩

/-- `CheckTable` fails with CorruptTable only. -/
theorem checkTable_error {es : List AlphaEntry} {f : Failure} (h : checkTable es = .error f) :
    f.status = .corruptTable := by
  rw [checkTable] at h
  split at h
  · simp only [Except.error.injEq] at h; rw [← h]
  · split at h
    · simp only [Except.error.injEq] at h; rw [← h]
    · simp at h

/-- A canonical alphabet passes the check as it stands. -/
theorem checkTable_canonical {ps : List AlphaEntry} {codes : List Nat} (hc : CanonicalAlphabet ps)
    (ha : canonAssign ps = .ok codes) : checkTable ps = .ok (ps, codes) :=
  checkTable_ok_iff.2 ⟨⟨hc.2.2, hc.2.1⟩, (sortLS_of_sorted hc.1).symm, ha⟩

/-! ### ParseHeader -/

/-- `ParseHeader` where it succeeds (43_container.md R115). -/
theorem parseHeader_ok_iff {m : Memory} {size : Nat} {h : Header} :
    parseHeader m size = .ok h ↔
      2 ≤ size ∧ (m.read 0).toNat ≤ 7 ∧ (m.read 1).toNat ≤ 128 ∧ 2 + 2 * (m.read 1).toNat ≤ size ∧
      (size = 2 + 2 * (m.read 1).toNat → (m.read 0).toNat = 0) ∧
      h = ⟨(m.read 0).toNat, containerEntries m (m.read 1).toNat, size - 2 - 2 * (m.read 1).toNat⟩ := by
  simp only [parseHeader, Config.maxAlpha]
  by_cases h1 : size < 2
  · rw [if_pos h1]
    simp only [reduceCtorEq, false_iff, not_and]
    omega
  rw [if_neg h1]
  by_cases h2 : (m.read 0).toNat > 7
  · rw [if_pos h2]
    simp only [reduceCtorEq, false_iff, not_and]
    omega
  rw [if_neg h2]
  by_cases h3 : (m.read 1).toNat > 128
  · rw [if_pos h3]
    simp only [reduceCtorEq, false_iff, not_and]
    omega
  rw [if_neg h3]
  by_cases h4 : size < 2 + 2 * (m.read 1).toNat
  · rw [if_pos h4]
    simp only [reduceCtorEq, false_iff, not_and]
    omega
  rw [if_neg h4]
  by_cases h5 : size - 2 - 2 * (m.read 1).toNat = 0 ∧ (m.read 0).toNat > 0
  · rw [if_pos h5]
    simp only [reduceCtorEq, false_iff, not_and]
    omega
  rw [if_neg h5]
  simp only [Except.ok.injEq]
  constructor
  · rintro rfl
    exact ⟨by omega, by omega, by omega, by omega, by omega, rfl⟩
  · rintro ⟨-, -, -, -, -, rfl⟩
    rfl

/-- The statuses with which `ParseHeader` fails. -/
theorem parseHeader_error {m : Memory} {size : Nat} {f : Failure} (h : parseHeader m size = .error f) :
    f.status = .truncatedHeader ∨ f.status = .corruptPadding ∨ f.status = .alphabetTooLarge := by
  simp only [parseHeader] at h
  split at h
  · simp only [Except.error.injEq] at h; exact .inl (by rw [← h])
  split at h
  · simp only [Except.error.injEq] at h; exact .inr (.inl (by rw [← h]))
  split at h
  · simp only [Except.error.injEq] at h; exact .inr (.inr (by rw [← h]))
  split at h
  · simp only [Except.error.injEq] at h; exact .inl (by rw [← h])
  split at h
  · simp only [Except.error.injEq] at h; exact .inr (.inl (by rw [← h]))
  · simp at h

@[simp] theorem length_containerEntries (m : Memory) (n : Nat) : (containerEntries m n).length = n := by
  simp [containerEntries]

/-- The payload of a parsed container lies inside the container. -/
theorem payload_within {m : Memory} {size : Nat} {h : Header} (hp : parseHeader m size = .ok h) :
    2 + 2 * h.entries.length + (8 * h.payloadBytes - h.padding + 7) / 8 ≤ size := by
  obtain ⟨h1, h2, h3, h4, h5, rfl⟩ := parseHeader_ok_iff.1 hp
  simp only [length_containerEntries]
  omega

/-! ### Reading a container back -/

theorem getD_containerBytes_zero (es : List AlphaEntry) (bits : BitStr) :
    (containerBytes es bits).getD 0 0 = BitVec.ofNat 8 (paddingCount bits.length) := rfl

theorem getD_containerBytes_one (es : List AlphaEntry) (bits : BitStr) :
    (containerBytes es bits).getD 1 0 = BitVec.ofNat 8 es.length := rfl

theorem getD_containerBytes_len (es : List AlphaEntry) (bits : BitStr) {k : Nat} (hk : k < es.length) :
    (containerBytes es bits).getD (2 + k) 0 = es[k].len := by
  rw [containerBytes, Nat.add_comm 2 k, List.getD_cons_succ, List.getD_cons_succ,
    List.getD_append _ _ _ _ (by simp; omega), List.getD_append _ _ _ _ (by simpa using hk),
    List.getD_eq_getElem _ _ (by simpa using hk), List.getElem_map]

theorem getD_containerBytes_sym (es : List AlphaEntry) (bits : BitStr) {k : Nat} (hk : k < es.length) :
    (containerBytes es bits).getD (2 + es.length + k) 0 = es[k].sym := by
  rw [containerBytes, show 2 + es.length + k = (es.length + k) + 1 + 1 by omega, List.getD_cons_succ,
    List.getD_cons_succ, List.getD_append _ _ _ _ (by simp; omega), List.getD_append_right _ _ _ _ (by simp),
    List.getD_eq_getElem _ _ (by simpa using hk), List.getElem_map]
  congr 2
  simp

theorem getD_containerBytes_payload (es : List AlphaEntry) (bits : BitStr) (j : Nat) :
    (containerBytes es bits).getD (2 + 2 * es.length + j) 0 = (packPayload bits).getD j 0 := by
  rw [containerBytes, show 2 + 2 * es.length + j = (2 * es.length + j) + 1 + 1 by omega, List.getD_cons_succ,
    List.getD_cons_succ, List.getD_append_right _ _ _ _ (by simp; omega)]
  congr 1
  simp only [List.length_append, List.length_map]
  omega

/-- Bit `j` of a packed payload is bit `j` of the string, 0 beyond its end (43_container.md R109). -/
theorem getLsbD_packPayload (bits : BitStr) {j : Nat} (hj : j < bits.length + paddingCount bits.length) :
    ((packPayload bits).getD (j / 8) 0).getLsbD (7 - j % 8) = bits.getD j false := by
  have h8 := add_paddingCount_mod bits.length
  rw [packPayload, getLsbD_packBytes _ j (by simpa using hj) (by simpa using h8)]
  by_cases h : j < bits.length
  · rw [List.getElem_append_left h, List.getD_eq_getElem _ _ h]
  · rw [List.getElem_append_right (by omega), List.getElem_replicate, List.getD_eq_default _ _ (by omega)]

/-- A buffer that holds a container at its start. -/
def HoldsContainer (m : Memory) (es : List AlphaEntry) (bits : BitStr) : Prop :=
  ∀ a, a < (containerBytes es bits).length → m.read a = (containerBytes es bits).getD a 0

theorem HoldsContainer.congr {m n : Memory} {es : List AlphaEntry} {bits : BitStr} (h : HoldsContainer m es bits)
    (hn : ∀ a, a < (containerBytes es bits).length → n.read a = m.read a) : HoldsContainer n es bits :=
  fun a ha => (hn a ha).trans (h a ha)

theorem holdsContainer_ofBytes (d : Nat) (es : List AlphaEntry) (bits : BitStr) :
    HoldsContainer (Memory.ofBytes d (containerBytes es bits)) es bits := fun a ha => by
  rw [Memory.read_ofBytes_lt ha, List.getD_eq_getElem _ _ ha]

section HoldsContainer

variable {m : Memory} {es : List AlphaEntry} {bits : BitStr} (h : HoldsContainer m es bits) (hn : es.length ≤ 128)

include h hn

theorem HoldsContainer.padding : (m.read 0).toNat = paddingCount bits.length := by
  have := length_containerBytes es bits
  rw [h 0 (by omega), getD_containerBytes_zero, BitVec.toNat_ofNat]
  have := paddingCount_lt bits.length
  omega

theorem HoldsContainer.size : (m.read 1).toNat = es.length := by
  have := length_containerBytes es bits
  rw [h 1 (by omega), getD_containerBytes_one, BitVec.toNat_ofNat]
  omega

omit hn in
theorem HoldsContainer.entries : containerEntries m es.length = es := by
  have hl := length_containerBytes es bits
  refine List.ext_getElem (by simp) fun k h1 h2 => ?_
  simp only [containerEntries, List.getElem_map, List.getElem_range]
  rw [h _ (by omega), h _ (by omega), getD_containerBytes_sym es bits h2, getD_containerBytes_len es bits h2]

/-- The header of a container that a buffer holds. -/
theorem HoldsContainer.parseHeader :
    parseHeader m (containerBytes es bits).length =
      .ok ⟨paddingCount bits.length, es, (bits.length + 7) / 8⟩ := by
  have hl := length_containerBytes es bits
  have hp := h.padding hn
  have hs := h.size hn
  have hlt := paddingCount_lt bits.length
  refine parseHeader_ok_iff.2 ⟨by omega, by omega, by omega, by omega, fun he => ?_, ?_⟩
  · rw [hp]
    have : bits.length = 0 := by omega
    rw [this]
    rfl
  · rw [hp, hs, h.entries, hl]
    congr 1
    omega

omit hn in
/-- Payload bit `j` of a container that a buffer holds. -/
theorem HoldsContainer.payloadBit {j : Nat} (hj : j < bits.length + paddingCount bits.length) :
    payloadBit m (2 + 2 * es.length) j = bits.getD j false := by
  have hl := length_containerBytes es bits
  have h8 := add_paddingCount_mod bits.length
  have hlt := paddingCount_lt bits.length
  rw [Machine.payloadBit, h _ (by omega), getD_containerBytes_payload, getLsbD_packPayload bits hj]

omit hn in
/-- The payload bits of a container that a buffer holds. -/
theorem HoldsContainer.payload :
    (List.range (8 * ((bits.length + 7) / 8) - paddingCount bits.length)).map
      (Machine.payloadBit m (2 + 2 * es.length)) = bits := by
  have hlen : 8 * ((bits.length + 7) / 8) - paddingCount bits.length = bits.length := by
    unfold paddingCount
    omega
  rw [hlen]
  refine List.ext_getElem (by simp) fun j h1 h2 => ?_
  rw [List.getElem_map, List.getElem_range, h.payloadBit (by omega), List.getD_eq_getElem _ _ h2]

end HoldsContainer

/-- Reading the LEN table that a container writes. -/
theorem holdsCode_installContainer {h : Header} {ps : List AlphaEntry} {codes : List Nat} {s : State} (hne : ps ≠ [])
    (hc : CanonicalAlphabet ps) (ha : canonAssign ps = .ok codes) :
    HoldsCode (installContainer h ps codes s) ps codes :=
  holdsCode_installCode (s := { s with len := lenTableOf ps }) hne hc ha fun _ he => tableAt_lenTableOf hc.2.1 he

end Sys2Proof.Machine
end

