-- ==== Sys2Proof/Laws/State.lean ====
section
/-! SUPPORT. One lemma per field per named update of State, so that no proof unfolds a record update. -/

namespace Sys2Proof.Machine

section Issue
variable (w : Word) (s : State)
@[simp] theorem issue_bufBytes : (issue w s).bufBytes = s.bufBytes := rfl
@[simp] theorem issue_eng : (issue w s).eng = .busy := rfl
@[simp] theorem issue_lcmd : (issue w s).lcmd = w := rfl
@[simp] theorem issue_ie : (issue w s).ie = s.ie := rfl
@[simp] theorem issue_done : (issue w s).done = false := rfl
@[simp] theorem issue_ovr : (issue w s).ovr = s.ovr := rfl
@[simp] theorem issue_statusCode : (issue w s).statusCode = .ok := rfl
@[simp] theorem issue_inLen : (issue w s).inLen = s.inLen := rfl
@[simp] theorem issue_outLen : (issue w s).outLen = s.outLen := rfl
@[simp] theorem issue_errInfo : (issue w s).errInfo = s.errInfo := rfl
@[simp] theorem issue_alphaN : (issue w s).alphaN = s.alphaN := rfl
@[simp] theorem issue_maxLen : (issue w s).maxLen = s.maxLen := rfl
@[simp] theorem issue_pad : (issue w s).pad = s.pad := rfl
@[simp] theorem issue_payOff : (issue w s).payOff = s.payOff := rfl
@[simp] theorem issue_payBits : (issue w s).payBits = s.payBits := rfl
@[simp] theorem issue_freq : (issue w s).freq = s.freq := rfl
@[simp] theorem issue_len : (issue w s).len = s.len := rfl
@[simp] theorem issue_alpha : (issue w s).alpha = s.alpha := rfl
@[simp] theorem issue_code : (issue w s).code = s.code := rfl
@[simp] theorem issue_ibuf : (issue w s).ibuf = s.ibuf := rfl
@[simp] theorem issue_obuf : (issue w s).obuf = s.obuf := rfl
@[simp] theorem issue_draws : (issue w s).draws = s.draws := rfl
@[simp] theorem issue_host : (issue w s).host = s.host := rfl
@[simp] theorem issue_reads : (issue w s).reads = s.reads := rfl
@[simp] theorem issue_sched : (issue w s).sched = s.sched := rfl
end Issue

section Complete
variable (c : Status) (w : Word) (s : State)
@[simp] theorem complete_bufBytes : (complete c w s).bufBytes = s.bufBytes := rfl
@[simp] theorem complete_eng : (complete c w s).eng = .idle := rfl
@[simp] theorem complete_lcmd : (complete c w s).lcmd = s.lcmd := rfl
@[simp] theorem complete_ie : (complete c w s).ie = s.ie := rfl
@[simp] theorem complete_done : (complete c w s).done = true := rfl
@[simp] theorem complete_ovr : (complete c w s).ovr = s.ovr := rfl
@[simp] theorem complete_statusCode : (complete c w s).statusCode = c := rfl
@[simp] theorem complete_inLen : (complete c w s).inLen = s.inLen := rfl
@[simp] theorem complete_outLen : (complete c w s).outLen = s.outLen := rfl
@[simp] theorem complete_errInfo : (complete c w s).errInfo = w := rfl
@[simp] theorem complete_alphaN : (complete c w s).alphaN = s.alphaN := rfl
@[simp] theorem complete_maxLen : (complete c w s).maxLen = s.maxLen := rfl
@[simp] theorem complete_pad : (complete c w s).pad = s.pad := rfl
@[simp] theorem complete_payOff : (complete c w s).payOff = s.payOff := rfl
@[simp] theorem complete_payBits : (complete c w s).payBits = s.payBits := rfl
@[simp] theorem complete_freq : (complete c w s).freq = s.freq := rfl
@[simp] theorem complete_len : (complete c w s).len = s.len := rfl
@[simp] theorem complete_alpha : (complete c w s).alpha = s.alpha := rfl
@[simp] theorem complete_code : (complete c w s).code = s.code := rfl
@[simp] theorem complete_ibuf : (complete c w s).ibuf = s.ibuf := rfl
@[simp] theorem complete_obuf : (complete c w s).obuf = s.obuf := rfl
@[simp] theorem complete_draws : (complete c w s).draws = s.draws := rfl
@[simp] theorem complete_host : (complete c w s).host = s.host := rfl
@[simp] theorem complete_reads : (complete c w s).reads = s.reads := rfl
@[simp] theorem complete_sched : (complete c w s).sched = s.sched := rfl
end Complete

section DiscardOutput
variable (s : State)
@[simp] theorem discardOutput_bufBytes : (discardOutput s).bufBytes = s.bufBytes := rfl
@[simp] theorem discardOutput_eng : (discardOutput s).eng = s.eng := rfl
@[simp] theorem discardOutput_lcmd : (discardOutput s).lcmd = s.lcmd := rfl
@[simp] theorem discardOutput_ie : (discardOutput s).ie = s.ie := rfl
@[simp] theorem discardOutput_done : (discardOutput s).done = s.done := rfl
@[simp] theorem discardOutput_ovr : (discardOutput s).ovr = s.ovr := rfl
@[simp] theorem discardOutput_statusCode : (discardOutput s).statusCode = s.statusCode := rfl
@[simp] theorem discardOutput_inLen : (discardOutput s).inLen = s.inLen := rfl
@[simp] theorem discardOutput_outLen : (discardOutput s).outLen = 0 := rfl
@[simp] theorem discardOutput_errInfo : (discardOutput s).errInfo = s.errInfo := rfl
@[simp] theorem discardOutput_alphaN : (discardOutput s).alphaN = s.alphaN := rfl
@[simp] theorem discardOutput_maxLen : (discardOutput s).maxLen = s.maxLen := rfl
@[simp] theorem discardOutput_pad : (discardOutput s).pad = s.pad := rfl
@[simp] theorem discardOutput_payOff : (discardOutput s).payOff = s.payOff := rfl
@[simp] theorem discardOutput_payBits : (discardOutput s).payBits = s.payBits := rfl
@[simp] theorem discardOutput_freq : (discardOutput s).freq = s.freq := rfl
@[simp] theorem discardOutput_len : (discardOutput s).len = s.len := rfl
@[simp] theorem discardOutput_alpha : (discardOutput s).alpha = s.alpha := rfl
@[simp] theorem discardOutput_code : (discardOutput s).code = s.code := rfl
@[simp] theorem discardOutput_ibuf : (discardOutput s).ibuf = s.ibuf := rfl
@[simp] theorem discardOutput_obuf : (discardOutput s).obuf = Memory.ofBytes s.draws [] := rfl
@[simp] theorem discardOutput_draws : (discardOutput s).draws = s.draws + 1 := rfl
@[simp] theorem discardOutput_host : (discardOutput s).host = s.host := rfl
@[simp] theorem discardOutput_reads : (discardOutput s).reads = s.reads := rfl
@[simp] theorem discardOutput_sched : (discardOutput s).sched = s.sched := rfl
end DiscardOutput

section StoreOutput
variable (out : List Byte) (s : State)
@[simp] theorem storeOutput_bufBytes : (storeOutput out s).bufBytes = s.bufBytes := rfl
@[simp] theorem storeOutput_eng : (storeOutput out s).eng = s.eng := rfl
@[simp] theorem storeOutput_lcmd : (storeOutput out s).lcmd = s.lcmd := rfl
@[simp] theorem storeOutput_ie : (storeOutput out s).ie = s.ie := rfl
@[simp] theorem storeOutput_done : (storeOutput out s).done = s.done := rfl
@[simp] theorem storeOutput_ovr : (storeOutput out s).ovr = s.ovr := rfl
@[simp] theorem storeOutput_statusCode : (storeOutput out s).statusCode = s.statusCode := rfl
@[simp] theorem storeOutput_inLen : (storeOutput out s).inLen = s.inLen := rfl
@[simp] theorem storeOutput_outLen : (storeOutput out s).outLen = BitVec.ofNat 32 out.length := rfl
@[simp] theorem storeOutput_errInfo : (storeOutput out s).errInfo = s.errInfo := rfl
@[simp] theorem storeOutput_alphaN : (storeOutput out s).alphaN = s.alphaN := rfl
@[simp] theorem storeOutput_maxLen : (storeOutput out s).maxLen = s.maxLen := rfl
@[simp] theorem storeOutput_pad : (storeOutput out s).pad = s.pad := rfl
@[simp] theorem storeOutput_payOff : (storeOutput out s).payOff = s.payOff := rfl
@[simp] theorem storeOutput_payBits : (storeOutput out s).payBits = s.payBits := rfl
@[simp] theorem storeOutput_freq : (storeOutput out s).freq = s.freq := rfl
@[simp] theorem storeOutput_len : (storeOutput out s).len = s.len := rfl
@[simp] theorem storeOutput_alpha : (storeOutput out s).alpha = s.alpha := rfl
@[simp] theorem storeOutput_code : (storeOutput out s).code = s.code := rfl
@[simp] theorem storeOutput_ibuf : (storeOutput out s).ibuf = s.ibuf := rfl
@[simp] theorem storeOutput_obuf : (storeOutput out s).obuf = Memory.ofBytes s.draws out := rfl
@[simp] theorem storeOutput_draws : (storeOutput out s).draws = s.draws + 1 := rfl
@[simp] theorem storeOutput_host : (storeOutput out s).host = s.host := rfl
@[simp] theorem storeOutput_reads : (storeOutput out s).reads = s.reads := rfl
@[simp] theorem storeOutput_sched : (storeOutput out s).sched = s.sched := rfl
end StoreOutput

section ClearCode
variable (s : State)
@[simp] theorem clearCode_bufBytes : (clearCode s).bufBytes = s.bufBytes := rfl
@[simp] theorem clearCode_eng : (clearCode s).eng = s.eng := rfl
@[simp] theorem clearCode_lcmd : (clearCode s).lcmd = s.lcmd := rfl
@[simp] theorem clearCode_ie : (clearCode s).ie = s.ie := rfl
@[simp] theorem clearCode_done : (clearCode s).done = s.done := rfl
@[simp] theorem clearCode_ovr : (clearCode s).ovr = s.ovr := rfl
@[simp] theorem clearCode_statusCode : (clearCode s).statusCode = s.statusCode := rfl
@[simp] theorem clearCode_inLen : (clearCode s).inLen = s.inLen := rfl
@[simp] theorem clearCode_outLen : (clearCode s).outLen = s.outLen := rfl
@[simp] theorem clearCode_errInfo : (clearCode s).errInfo = s.errInfo := rfl
@[simp] theorem clearCode_alphaN : (clearCode s).alphaN = 0 := rfl
@[simp] theorem clearCode_maxLen : (clearCode s).maxLen = 0 := rfl
@[simp] theorem clearCode_pad : (clearCode s).pad = s.pad := rfl
@[simp] theorem clearCode_payOff : (clearCode s).payOff = s.payOff := rfl
@[simp] theorem clearCode_payBits : (clearCode s).payBits = s.payBits := rfl
@[simp] theorem clearCode_freq : (clearCode s).freq = s.freq := rfl
@[simp] theorem clearCode_len : (clearCode s).len = s.len := rfl
@[simp] theorem clearCode_alpha : (clearCode s).alpha = tableOf fun _ => ⟨0, 0⟩ := rfl
@[simp] theorem clearCode_code : (clearCode s).code = tableOf fun _ => 0 := rfl
@[simp] theorem clearCode_ibuf : (clearCode s).ibuf = s.ibuf := rfl
@[simp] theorem clearCode_obuf : (clearCode s).obuf = s.obuf := rfl
@[simp] theorem clearCode_draws : (clearCode s).draws = s.draws := rfl
@[simp] theorem clearCode_host : (clearCode s).host = s.host := rfl
@[simp] theorem clearCode_reads : (clearCode s).reads = s.reads := rfl
@[simp] theorem clearCode_sched : (clearCode s).sched = s.sched := rfl
end ClearCode

section InstallCode
variable (ps : List AlphaEntry) (cs : List Nat) (s : State)
@[simp] theorem installCode_bufBytes : (installCode ps cs s).bufBytes = s.bufBytes := rfl
@[simp] theorem installCode_eng : (installCode ps cs s).eng = s.eng := rfl
@[simp] theorem installCode_lcmd : (installCode ps cs s).lcmd = s.lcmd := rfl
@[simp] theorem installCode_ie : (installCode ps cs s).ie = s.ie := rfl
@[simp] theorem installCode_done : (installCode ps cs s).done = s.done := rfl
@[simp] theorem installCode_ovr : (installCode ps cs s).ovr = s.ovr := rfl
@[simp] theorem installCode_statusCode : (installCode ps cs s).statusCode = s.statusCode := rfl
@[simp] theorem installCode_inLen : (installCode ps cs s).inLen = s.inLen := rfl
@[simp] theorem installCode_outLen : (installCode ps cs s).outLen = s.outLen := rfl
@[simp] theorem installCode_errInfo : (installCode ps cs s).errInfo = s.errInfo := rfl
@[simp] theorem installCode_alphaN : (installCode ps cs s).alphaN = BitVec.ofNat 9 ps.length := rfl
@[simp] theorem installCode_maxLen : (installCode ps cs s).maxLen = maxLenOf ps := rfl
@[simp] theorem installCode_pad : (installCode ps cs s).pad = s.pad := rfl
@[simp] theorem installCode_payOff : (installCode ps cs s).payOff = s.payOff := rfl
@[simp] theorem installCode_payBits : (installCode ps cs s).payBits = s.payBits := rfl
@[simp] theorem installCode_freq : (installCode ps cs s).freq = s.freq := rfl
@[simp] theorem installCode_len : (installCode ps cs s).len = s.len := rfl
@[simp] theorem installCode_alpha : (installCode ps cs s).alpha = alphaTableOf ps := rfl
@[simp] theorem installCode_code : (installCode ps cs s).code = codeTableOf ps cs := rfl
@[simp] theorem installCode_ibuf : (installCode ps cs s).ibuf = s.ibuf := rfl
@[simp] theorem installCode_obuf : (installCode ps cs s).obuf = s.obuf := rfl
@[simp] theorem installCode_draws : (installCode ps cs s).draws = s.draws := rfl
@[simp] theorem installCode_host : (installCode ps cs s).host = s.host := rfl
@[simp] theorem installCode_reads : (installCode ps cs s).reads = s.reads := rfl
@[simp] theorem installCode_sched : (installCode ps cs s).sched = s.sched := rfl
end InstallCode

section InstallContainer
variable (h : Header) (ps : List AlphaEntry) (cs : List Nat) (s : State)
@[simp] theorem installContainer_bufBytes : (installContainer h ps cs s).bufBytes = s.bufBytes := rfl
@[simp] theorem installContainer_eng : (installContainer h ps cs s).eng = s.eng := rfl
@[simp] theorem installContainer_lcmd : (installContainer h ps cs s).lcmd = s.lcmd := rfl
@[simp] theorem installContainer_ie : (installContainer h ps cs s).ie = s.ie := rfl
@[simp] theorem installContainer_done : (installContainer h ps cs s).done = s.done := rfl
@[simp] theorem installContainer_ovr : (installContainer h ps cs s).ovr = s.ovr := rfl
@[simp] theorem installContainer_statusCode : (installContainer h ps cs s).statusCode = s.statusCode := rfl
@[simp] theorem installContainer_inLen : (installContainer h ps cs s).inLen = s.inLen := rfl
@[simp] theorem installContainer_outLen : (installContainer h ps cs s).outLen = s.outLen := rfl
@[simp] theorem installContainer_errInfo : (installContainer h ps cs s).errInfo = s.errInfo := rfl
@[simp] theorem installContainer_alphaN : (installContainer h ps cs s).alphaN = BitVec.ofNat 9 ps.length := rfl
@[simp] theorem installContainer_maxLen : (installContainer h ps cs s).maxLen = maxLenOf ps := rfl
@[simp] theorem installContainer_pad : (installContainer h ps cs s).pad = BitVec.ofNat 3 h.padding := rfl
@[simp] theorem installContainer_payOff : (installContainer h ps cs s).payOff = BitVec.ofNat 32 (2 + 2 * h.entries.length) := rfl
@[simp] theorem installContainer_payBits : (installContainer h ps cs s).payBits = BitVec.ofNat 32 (8 * h.payloadBytes - h.padding) := rfl
@[simp] theorem installContainer_freq : (installContainer h ps cs s).freq = s.freq := rfl
@[simp] theorem installContainer_len : (installContainer h ps cs s).len = lenTableOf ps := rfl
@[simp] theorem installContainer_alpha : (installContainer h ps cs s).alpha = alphaTableOf ps := rfl
@[simp] theorem installContainer_code : (installContainer h ps cs s).code = codeTableOf ps cs := rfl
@[simp] theorem installContainer_ibuf : (installContainer h ps cs s).ibuf = s.ibuf := rfl
@[simp] theorem installContainer_obuf : (installContainer h ps cs s).obuf = s.obuf := rfl
@[simp] theorem installContainer_draws : (installContainer h ps cs s).draws = s.draws := rfl
@[simp] theorem installContainer_host : (installContainer h ps cs s).host = s.host := rfl
@[simp] theorem installContainer_reads : (installContainer h ps cs s).reads = s.reads := rfl
@[simp] theorem installContainer_sched : (installContainer h ps cs s).sched = s.sched := rfl
end InstallContainer

section DropWrite
variable (s : State)
@[simp] theorem dropWrite_bufBytes : (dropWrite s).bufBytes = s.bufBytes := rfl
@[simp] theorem dropWrite_eng : (dropWrite s).eng = s.eng := rfl
@[simp] theorem dropWrite_lcmd : (dropWrite s).lcmd = s.lcmd := rfl
@[simp] theorem dropWrite_ie : (dropWrite s).ie = s.ie := rfl
@[simp] theorem dropWrite_done : (dropWrite s).done = s.done := rfl
@[simp] theorem dropWrite_ovr : (dropWrite s).ovr = true := rfl
@[simp] theorem dropWrite_statusCode : (dropWrite s).statusCode = s.statusCode := rfl
@[simp] theorem dropWrite_inLen : (dropWrite s).inLen = s.inLen := rfl
@[simp] theorem dropWrite_outLen : (dropWrite s).outLen = s.outLen := rfl
@[simp] theorem dropWrite_errInfo : (dropWrite s).errInfo = s.errInfo := rfl
@[simp] theorem dropWrite_alphaN : (dropWrite s).alphaN = s.alphaN := rfl
@[simp] theorem dropWrite_maxLen : (dropWrite s).maxLen = s.maxLen := rfl
@[simp] theorem dropWrite_pad : (dropWrite s).pad = s.pad := rfl
@[simp] theorem dropWrite_payOff : (dropWrite s).payOff = s.payOff := rfl
@[simp] theorem dropWrite_payBits : (dropWrite s).payBits = s.payBits := rfl
@[simp] theorem dropWrite_freq : (dropWrite s).freq = s.freq := rfl
@[simp] theorem dropWrite_len : (dropWrite s).len = s.len := rfl
@[simp] theorem dropWrite_alpha : (dropWrite s).alpha = s.alpha := rfl
@[simp] theorem dropWrite_code : (dropWrite s).code = s.code := rfl
@[simp] theorem dropWrite_ibuf : (dropWrite s).ibuf = s.ibuf := rfl
@[simp] theorem dropWrite_obuf : (dropWrite s).obuf = s.obuf := rfl
@[simp] theorem dropWrite_draws : (dropWrite s).draws = s.draws := rfl
@[simp] theorem dropWrite_host : (dropWrite s).host = s.host := rfl
@[simp] theorem dropWrite_reads : (dropWrite s).reads = s.reads := rfl
@[simp] theorem dropWrite_sched : (dropWrite s).sched = s.sched := rfl
end DropWrite

section WriteStatus
variable (w : Word) (s : State)
@[simp] theorem writeStatus_bufBytes : (writeStatus w s).bufBytes = s.bufBytes := rfl
@[simp] theorem writeStatus_eng : (writeStatus w s).eng = s.eng := rfl
@[simp] theorem writeStatus_lcmd : (writeStatus w s).lcmd = s.lcmd := rfl
@[simp] theorem writeStatus_ie : (writeStatus w s).ie = s.ie := rfl
@[simp] theorem writeStatus_done : (writeStatus w s).done = (s.done && !w.getLsbD 1) := rfl
@[simp] theorem writeStatus_ovr : (writeStatus w s).ovr = (s.ovr && !w.getLsbD 3) := rfl
@[simp] theorem writeStatus_statusCode : (writeStatus w s).statusCode = s.statusCode := rfl
@[simp] theorem writeStatus_inLen : (writeStatus w s).inLen = s.inLen := rfl
@[simp] theorem writeStatus_outLen : (writeStatus w s).outLen = s.outLen := rfl
@[simp] theorem writeStatus_errInfo : (writeStatus w s).errInfo = s.errInfo := rfl
@[simp] theorem writeStatus_alphaN : (writeStatus w s).alphaN = s.alphaN := rfl
@[simp] theorem writeStatus_maxLen : (writeStatus w s).maxLen = s.maxLen := rfl
@[simp] theorem writeStatus_pad : (writeStatus w s).pad = s.pad := rfl
@[simp] theorem writeStatus_payOff : (writeStatus w s).payOff = s.payOff := rfl
@[simp] theorem writeStatus_payBits : (writeStatus w s).payBits = s.payBits := rfl
@[simp] theorem writeStatus_freq : (writeStatus w s).freq = s.freq := rfl
@[simp] theorem writeStatus_len : (writeStatus w s).len = s.len := rfl
@[simp] theorem writeStatus_alpha : (writeStatus w s).alpha = s.alpha := rfl
@[simp] theorem writeStatus_code : (writeStatus w s).code = s.code := rfl
@[simp] theorem writeStatus_ibuf : (writeStatus w s).ibuf = s.ibuf := rfl
@[simp] theorem writeStatus_obuf : (writeStatus w s).obuf = s.obuf := rfl
@[simp] theorem writeStatus_draws : (writeStatus w s).draws = s.draws := rfl
@[simp] theorem writeStatus_host : (writeStatus w s).host = s.host := rfl
@[simp] theorem writeStatus_reads : (writeStatus w s).reads = s.reads := rfl
@[simp] theorem writeStatus_sched : (writeStatus w s).sched = s.sched := rfl
end WriteStatus

section HardReset
variable (s : State)
@[simp] theorem hardReset_bufBytes : (hardReset s).bufBytes = s.bufBytes := rfl
@[simp] theorem hardReset_eng : (hardReset s).eng = .idle := rfl
@[simp] theorem hardReset_lcmd : (hardReset s).lcmd = Config.freeWord (s.draws + 2) := rfl
@[simp] theorem hardReset_ie : (hardReset s).ie = false := rfl
@[simp] theorem hardReset_done : (hardReset s).done = false := rfl
@[simp] theorem hardReset_ovr : (hardReset s).ovr = false := rfl
@[simp] theorem hardReset_statusCode : (hardReset s).statusCode = .ok := rfl
@[simp] theorem hardReset_inLen : (hardReset s).inLen = 0 := rfl
@[simp] theorem hardReset_outLen : (hardReset s).outLen = 0 := rfl
@[simp] theorem hardReset_errInfo : (hardReset s).errInfo = 0 := rfl
@[simp] theorem hardReset_alphaN : (hardReset s).alphaN = 0 := rfl
@[simp] theorem hardReset_maxLen : (hardReset s).maxLen = 0 := rfl
@[simp] theorem hardReset_pad : (hardReset s).pad = 0 := rfl
@[simp] theorem hardReset_payOff : (hardReset s).payOff = 0 := rfl
@[simp] theorem hardReset_payBits : (hardReset s).payBits = 0 := rfl
@[simp] theorem hardReset_freq : (hardReset s).freq = Vector.replicate 256 0 := rfl
@[simp] theorem hardReset_len : (hardReset s).len = Vector.replicate 256 0 := rfl
@[simp] theorem hardReset_alpha : (hardReset s).alpha = Vector.replicate 256 ⟨0, 0⟩ := rfl
@[simp] theorem hardReset_code : (hardReset s).code = Vector.replicate 256 0 := rfl
@[simp] theorem hardReset_ibuf : (hardReset s).ibuf = ⟨[], s.draws⟩ := rfl
@[simp] theorem hardReset_obuf : (hardReset s).obuf = ⟨[], s.draws + 1⟩ := rfl
@[simp] theorem hardReset_draws : (hardReset s).draws = s.draws + 3 := rfl
@[simp] theorem hardReset_host : (hardReset s).host = s.host := rfl
@[simp] theorem hardReset_reads : (hardReset s).reads = s.reads := rfl
@[simp] theorem hardReset_sched : (hardReset s).sched = s.sched := rfl
end HardReset

section SoftReset
variable (s : State)
@[simp] theorem softReset_bufBytes : (softReset s).bufBytes = s.bufBytes := rfl
@[simp] theorem softReset_eng : (softReset s).eng = .idle := rfl
@[simp] theorem softReset_lcmd : (softReset s).lcmd = Config.freeWord (s.draws + 2) := rfl
@[simp] theorem softReset_ie : (softReset s).ie = false := rfl
@[simp] theorem softReset_done : (softReset s).done = false := rfl
@[simp] theorem softReset_ovr : (softReset s).ovr = false := rfl
@[simp] theorem softReset_statusCode : (softReset s).statusCode = .ok := rfl
@[simp] theorem softReset_inLen : (softReset s).inLen = 0 := rfl
@[simp] theorem softReset_outLen : (softReset s).outLen = 0 := rfl
@[simp] theorem softReset_errInfo : (softReset s).errInfo = 0 := rfl
@[simp] theorem softReset_alphaN : (softReset s).alphaN = 0 := rfl
@[simp] theorem softReset_maxLen : (softReset s).maxLen = 0 := rfl
@[simp] theorem softReset_pad : (softReset s).pad = 0 := rfl
@[simp] theorem softReset_payOff : (softReset s).payOff = 0 := rfl
@[simp] theorem softReset_payBits : (softReset s).payBits = 0 := rfl
@[simp] theorem softReset_freq : (softReset s).freq = Vector.replicate 256 0 := rfl
@[simp] theorem softReset_len : (softReset s).len = Vector.replicate 256 0 := rfl
@[simp] theorem softReset_alpha : (softReset s).alpha = Vector.replicate 256 ⟨0, 0⟩ := rfl
@[simp] theorem softReset_code : (softReset s).code = Vector.replicate 256 0 := rfl
@[simp] theorem softReset_ibuf : (softReset s).ibuf = s.ibuf := rfl
@[simp] theorem softReset_obuf : (softReset s).obuf = ⟨[], s.draws + 1⟩ := rfl
@[simp] theorem softReset_draws : (softReset s).draws = s.draws + 3 := rfl
@[simp] theorem softReset_host : (softReset s).host = s.host := rfl
@[simp] theorem softReset_reads : (softReset s).reads = s.reads := rfl
@[simp] theorem softReset_sched : (softReset s).sched = s.sched := rfl
end SoftReset

section LatchCommand
variable (w : Word) (s : State)
@[simp] theorem latchCommand_bufBytes : (latchCommand w s).bufBytes = s.bufBytes := rfl
@[simp] theorem latchCommand_eng : (latchCommand w s).eng = .busy := rfl
@[simp] theorem latchCommand_lcmd : (latchCommand w s).lcmd = w := rfl
@[simp] theorem latchCommand_ie : (latchCommand w s).ie = s.ie := rfl
@[simp] theorem latchCommand_done : (latchCommand w s).done = false := rfl
@[simp] theorem latchCommand_ovr : (latchCommand w s).ovr = s.ovr := rfl
@[simp] theorem latchCommand_statusCode : (latchCommand w s).statusCode = .ok := rfl
@[simp] theorem latchCommand_inLen : (latchCommand w s).inLen = s.inLen := rfl
@[simp] theorem latchCommand_outLen : (latchCommand w s).outLen = s.outLen := rfl
@[simp] theorem latchCommand_errInfo : (latchCommand w s).errInfo = s.errInfo := rfl
@[simp] theorem latchCommand_alphaN : (latchCommand w s).alphaN = s.alphaN := rfl
@[simp] theorem latchCommand_maxLen : (latchCommand w s).maxLen = s.maxLen := rfl
@[simp] theorem latchCommand_pad : (latchCommand w s).pad = s.pad := rfl
@[simp] theorem latchCommand_payOff : (latchCommand w s).payOff = s.payOff := rfl
@[simp] theorem latchCommand_payBits : (latchCommand w s).payBits = s.payBits := rfl
@[simp] theorem latchCommand_freq : (latchCommand w s).freq = s.freq := rfl
@[simp] theorem latchCommand_len : (latchCommand w s).len = s.len := rfl
@[simp] theorem latchCommand_alpha : (latchCommand w s).alpha = s.alpha := rfl
@[simp] theorem latchCommand_code : (latchCommand w s).code = s.code := rfl
@[simp] theorem latchCommand_ibuf : (latchCommand w s).ibuf = s.ibuf := rfl
@[simp] theorem latchCommand_obuf : (latchCommand w s).obuf = s.obuf := rfl
@[simp] theorem latchCommand_draws : (latchCommand w s).draws = s.draws := rfl
@[simp] theorem latchCommand_host : (latchCommand w s).host = s.host := rfl
@[simp] theorem latchCommand_reads : (latchCommand w s).reads = s.reads := rfl
@[simp] theorem latchCommand_sched : (latchCommand w s).sched = .engine :: s.sched := rfl
end LatchCommand

end Sys2Proof.Machine
end

