-- ==== Sys2Proof/Laws/Tree.lean ====
section
/-! SUPPORT. The laws of the tree builder: the queue's order, the leaves of the code tree, their Kraft sum, and the
Fibonacci bound on their depths. -/

namespace Sys2Proof.Machine

/-! ### The queue -/

theorem perm_insertNode (n : Node) (q : List Node) : (insertNode n q).Perm (n :: q) := by
  induction q with
  | nil => exact List.Perm.refl _
  | cons m q ih =>
    rw [insertNode]
    split
    · exact List.Perm.refl _
    · exact (ih.cons m).trans (List.Perm.swap n m q)

theorem length_insertNode (n : Node) (q : List Node) : (insertNode n q).length = q.length + 1 :=
  (perm_insertNode n q).length_eq

theorem nodePrecedes_of_not {a b : Node} (h : ¬ nodePrecedes a b) (hs : b.seq ≠ a.seq) : nodePrecedes b a := by
  unfold nodePrecedes at *
  push Not at h
  rcases Nat.lt_or_eq_of_le h.1 with h1 | h1
  · exact .inl h1
  · have := BitVec.eq_of_toNat_eq h1
    exact .inr ⟨this, by have := h.2 this.symm; omega⟩

theorem nodePrecedes_trans {a b c : Node} (h1 : nodePrecedes a b) (h2 : nodePrecedes b c) : nodePrecedes a c := by
  unfold nodePrecedes at *
  rcases h1 with h1 | ⟨h1, h1'⟩ <;> rcases h2 with h2 | ⟨h2, h2'⟩
  · exact .inl (h1.trans h2)
  · exact .inl (h2 ▸ h1)
  · exact .inl (h1 ▸ h2)
  · exact .inr ⟨h1.trans h2, h1'.trans h2'⟩

theorem nodePrecedes_weight {a b : Node} (h : nodePrecedes a b) : a.weight.toNat ≤ b.weight.toNat := by
  rcases h with h | h
  · exact h.le
  · rw [h.1]

/-- Inserting a node with an unused sequence number keeps the priority order. -/
theorem pairwise_insertNode {n : Node} {q : List Node} (hq : q.Pairwise nodePrecedes) (hs : ∀ m ∈ q, m.seq ≠ n.seq) :
    (insertNode n q).Pairwise nodePrecedes := by
  induction q with
  | nil => simp [insertNode]
  | cons m q ih =>
    obtain ⟨hm, hq'⟩ := List.pairwise_cons.1 hq
    rw [insertNode]
    split
    · rename_i h
      refine List.pairwise_cons.2 ⟨fun x hx => ?_, hq⟩
      rcases List.mem_cons.1 hx with rfl | hx
      · exact h
      · exact nodePrecedes_trans h (hm x hx)
    · rename_i h
      refine List.pairwise_cons.2 ⟨fun x hx => ?_, ih hq' fun y hy => hs y (List.mem_cons_of_mem _ hy)⟩
      rcases List.mem_cons.1 ((perm_insertNode n q).mem_iff.1 hx) with rfl | hx
      · exact nodePrecedes_of_not h (hs m List.mem_cons_self)
      · exact hm x hx

/-- The weights of a queue rise. -/
abbrev WeightsRise (q : List Node) : Prop := q.Pairwise fun a b => a.weight.toNat ≤ b.weight.toNat

theorem weightsRise_insertNode {n : Node} {q : List Node} (hq : WeightsRise q) : WeightsRise (insertNode n q) := by
  induction q with
  | nil => simp [insertNode]
  | cons m q ih =>
    obtain ⟨hm, hq'⟩ := List.pairwise_cons.1 hq
    rw [insertNode]
    split
    · rename_i h
      have hnm := nodePrecedes_weight h
      refine List.pairwise_cons.2 ⟨fun x hx => ?_, hq⟩
      rcases List.mem_cons.1 hx with rfl | hx
      · exact hnm
      · exact hnm.trans (hm x hx)
    · rename_i h
      refine List.pairwise_cons.2 ⟨fun x hx => ?_, ih hq'⟩
      rcases List.mem_cons.1 ((perm_insertNode n q).mem_iff.1 hx) with rfl | hx
      · unfold nodePrecedes at h
        omega
      · exact hm x hx

theorem perm_foldr_insertNode (l : List Node) : (l.foldr insertNode []).Perm l := by
  induction l with
  | nil => exact List.Perm.refl _
  | cons n l ih => exact (perm_insertNode n _).trans (ih.cons n)

theorem weightsRise_foldr_insertNode (l : List Node) : WeightsRise (l.foldr insertNode []) := by
  induction l with
  | nil => exact List.Pairwise.nil
  | cons n l ih => exact weightsRise_insertNode ih

theorem pairwise_foldr_insertNode {l : List Node} (hl : (l.map (·.seq)).Nodup) :
    (l.foldr insertNode []).Pairwise nodePrecedes := by
  induction l with
  | nil => exact List.Pairwise.nil
  | cons n l ih =>
    rw [List.map_cons, List.nodup_cons] at hl
    refine pairwise_insertNode (ih hl.2) fun m hm h => hl.1 ?_
    rw [← h]
    exact List.mem_map_of_mem ((perm_foldr_insertNode l).mem_iff.1 hm)

theorem perm_initialQueue (freq : Table Word) : (initialQueue freq).Perm (leafNodes freq) := perm_foldr_insertNode _

theorem seqs_leafNodes (freq : Table Word) : (leafNodes freq).map (·.seq) = List.range (presentSymbols freq).length := by
  rw [leafNodes, List.map_map]
  show List.map (fun p : Byte × Nat => p.2) _ = _
  rw [List.zipIdx_map_snd, List.range_eq_range']

theorem nodup_seq_leafNodes (freq : Table Word) : ((leafNodes freq).map (·.seq)).Nodup := by
  rw [seqs_leafNodes]
  exact List.nodup_range

theorem length_leafNodes (freq : Table Word) : (leafNodes freq).length = (presentSymbols freq).length := by
  simp [leafNodes]

theorem length_initialQueue (freq : Table Word) : (initialQueue freq).length = (presentSymbols freq).length := by
  rw [(perm_initialQueue freq).length_eq, length_leafNodes]

theorem mem_presentSymbols {freq : Table Word} {b : Byte} : b ∈ presentSymbols freq ↔ tableAt freq b ≠ 0 := by
  simp [presentSymbols, mem_allSymbols]

/-- The present symbols in ascending order (41_tree_builder.md R91). -/
theorem ascending_presentSymbols (freq : Table Word) :
    (presentSymbols freq).Pairwise fun a b => a.toNat < b.toNat := ascending_allSymbols.filter _

/-- The leaf of the k-th present symbol (41_tree_builder.md R91). -/
theorem getElem?_leafNodes {freq : Table Word} {k : Nat} {b : Byte} (h : (presentSymbols freq)[k]? = some b) :
    (leafNodes freq)[k]? = some ⟨tableAt freq b, k, .leaf b⟩ := by
  simp [leafNodes, h]

theorem nodup_presentSymbols (freq : Table Word) : (presentSymbols freq).Nodup := nodup_allSymbols.filter _

theorem length_presentSymbols_le (freq : Table Word) : (presentSymbols freq).length ≤ 256 := by
  rw [← length_allSymbols]
  exact List.length_filter_le _ _

/-! ### The leaves of a tree -/

/-- The symbols of a tree's leaves, from left to right. -/
def CodeTree.symbols : CodeTree → List Byte
  | .leaf s => [s]
  | .branch l r => l.symbols ++ r.symbols

/-- The height of a tree. -/
def CodeTree.height : CodeTree → Nat
  | .leaf _ => 0
  | .branch l r => max l.height r.height + 1

theorem map_fst_leafDepths (d : Nat) (t : CodeTree) : (leafDepths d t).map (·.1) = t.symbols := by
  induction t generalizing d with
  | leaf s => rfl
  | branch l r ihl ihr => simp [leafDepths, CodeTree.symbols, ihl, ihr]

theorem length_symbols_pos (t : CodeTree) : 1 ≤ t.symbols.length := by
  induction t with
  | leaf s => simp [CodeTree.symbols]
  | branch l r ihl ihr => simp only [CodeTree.symbols, List.length_append]; omega

theorem height_lt_length (t : CodeTree) : t.height + 1 ≤ t.symbols.length := by
  induction t with
  | leaf s => simp [CodeTree.height, CodeTree.symbols]
  | branch l r ihl ihr =>
    simp only [CodeTree.height, CodeTree.symbols, List.length_append]
    omega

theorem leafDepths_range {d : Nat} {t : CodeTree} {p : Byte × Nat} (h : p ∈ leafDepths d t) :
    d ≤ p.2 ∧ p.2 ≤ d + t.height := by
  induction t generalizing d with
  | leaf s => simp only [leafDepths, List.mem_singleton] at h; subst h; simp
  | branch l r ihl ihr =>
    simp only [CodeTree.height]
    rcases List.mem_append.1 h with h | h
    · have := ihl h; omega
    · have := ihr h; omega

/-- Some leaf stands as deep as the tree is high. -/
theorem exists_leaf_height (d : Nat) (t : CodeTree) : ∃ p ∈ leafDepths d t, p.2 = d + t.height := by
  induction t generalizing d with
  | leaf s => exact ⟨_, List.mem_singleton.2 rfl, rfl⟩
  | branch l r ihl ihr =>
    simp only [leafDepths, List.mem_append, CodeTree.height]
    rcases Nat.le_total r.height l.height with h | h
    · obtain ⟨p, hp, h2⟩ := ihl (d + 1)
      exact ⟨p, .inl hp, by omega⟩
    · obtain ⟨p, hp, h2⟩ := ihr (d + 1)
      exact ⟨p, .inr hp, by omega⟩

/-- The leaves' Kraft sum is that of the root (41_tree_builder.md R98). -/
theorem kraft_leafDepths {n d : Nat} {t : CodeTree} (h : d + t.height ≤ n) :
    ((leafDepths d t).map fun p => 2 ^ (n - p.2)).sum = 2 ^ (n - d) := by
  induction t generalizing d with
  | leaf s => simp [leafDepths]
  | branch l r ihl ihr =>
    simp only [CodeTree.height] at h
    rw [leafDepths, List.map_append, List.sum_append, ihl (by omega), ihr (by omega), ← Nat.two_mul,
      ← Nat.pow_succ']
    congr 1
    omega

/-! ### The combinations -/

/-- A queue with fuel for its combinations ends in one tree. -/
theorem combineAll_isSome {fuel seq : Nat} {q : List Node} (hq : q ≠ []) (hf : q.length ≤ fuel + 1) :
    ∃ t, combineAll fuel seq q = some t := by
  induction fuel generalizing seq q with
  | zero =>
    match q, hq with
    | [n], _ => exact ⟨_, rfl⟩
    | a :: b :: q, _ => simp at hf
  | succ fuel ih =>
    match q, hq with
    | [n], _ => exact ⟨_, rfl⟩
    | a :: b :: q, _ =>
      refine ih (fun h => ?_) ?_
      · simpa [h] using length_insertNode (combineNodes a b seq) q
      · rw [length_insertNode]
        simp only [List.length_cons] at hf
        omega

theorem not_nodePrecedes_of {a b : Node} (h : nodePrecedes a b) : ¬ nodePrecedes b a := by
  unfold nodePrecedes at *
  rintro (h' | ⟨h', h2'⟩) <;> rcases h with h | ⟨h, h2⟩
  · omega
  · rw [h] at h'; omega
  · rw [h'] at h; omega
  · omega

/-- The least node of a queue is unique, whatever order its nodes are listed in. -/
theorem least_unique {a b : Node} {p q : List Node} (h : (a :: p).Perm (b :: q)) (ha : PrecedesAll a p)
    (hb : PrecedesAll b q) : a = b ∧ p.Perm q := by
  have : a = b := by
    rcases List.mem_cons.1 (h.mem_iff.1 List.mem_cons_self) with h1 | h1
    · exact h1
    · rcases List.mem_cons.1 (h.mem_iff.2 List.mem_cons_self) with h2 | h2
      · exact h2.symm
      · exact absurd (hb a h1) (not_nodePrecedes_of (ha b h2))
  subst this
  exact ⟨rfl, (List.perm_cons a).1 h⟩

theorem combinesTo_single_iff {n : Node} {seq : Nat} {p : List Node} {t : CodeTree} (hp : p.Perm [n]) :
    CombinesTo p seq t ↔ t = n.tree := by
  constructor
  · intro h
    cases h with
    | single m => rw [List.singleton_perm_singleton.1 hp]
    | combine nodes => simpa using (hp.symm.trans nodes).length_eq
  · rintro rfl
    rw [List.perm_singleton.1 hp]
    exact .single n seq

/-- `combineAll` on a queue in priority order, with `seq` above every sequence number in use, is the combinations of
41_tree_builder.md R92 on the same nodes in any order. -/
theorem combineAll_iff_combinesTo {fuel seq : Nat} {q p : List Node} {t : CodeTree} (hq : q.Pairwise nodePrecedes)
    (hs : ∀ n ∈ q, n.seq < seq) (hf : q.length ≤ fuel + 1) (hp : p.Perm q) :
    combineAll fuel seq q = some t ↔ CombinesTo p seq t := by
  induction fuel generalizing seq q p with
  | zero =>
    match q, hf with
    | [], _ => rw [List.perm_nil.1 hp]; exact ⟨fun h => by simp [combineAll] at h, fun h => by
        cases h with | combine nodes => simpa using nodes.length_eq⟩
    | [n], _ => rw [combinesTo_single_iff hp, combineAll, Option.some.injEq, eq_comm]
  | succ fuel ih =>
    match q, hf with
    | [], _ => rw [List.perm_nil.1 hp]; exact ⟨fun h => by simp [combineAll] at h, fun h => by
        cases h with | combine nodes => simpa using nodes.length_eq⟩
    | [n], _ => rw [combinesTo_single_iff hp, combineAll, Option.some.injEq, eq_comm]
    | a :: b :: rest, hf =>
      obtain ⟨ha, hr⟩ := List.pairwise_cons.1 hq
      obtain ⟨hb, hr⟩ := List.pairwise_cons.1 hr
      have hord : (insertNode (combineNodes a b seq) rest).Pairwise nodePrecedes :=
        pairwise_insertNode hr fun m hm => (hs m (by simp [hm])).ne
      have hseq : ∀ n ∈ insertNode (combineNodes a b seq) rest, n.seq < seq + 1 := fun n hn => by
        rcases List.mem_cons.1 ((perm_insertNode _ _).mem_iff.1 hn) with rfl | hn
        · exact Nat.lt_succ_self _
        · exact Nat.lt_succ_of_lt (hs n (by simp [hn]))
      have hlen : (insertNode (combineNodes a b seq) rest).length ≤ fuel + 1 := by
        rw [length_insertNode]
        simpa using hf
      rw [combineAll]
      refine ⟨fun h => .combine hp ha hb ((ih hord hseq hlen (perm_insertNode _ _).symm).1 h), fun h => ?_⟩
      cases h with
      | single n => simpa using hp.length_eq
      | combine nodes least next more =>
        obtain ⟨rfl, h1⟩ := least_unique (nodes.symm.trans hp) least ha
        obtain ⟨rfl, h2⟩ := least_unique h1 next hb
        exact (ih hord hseq hlen ((h2.cons _).trans (perm_insertNode _ _).symm)).2 more

/-- The leaves of the final tree are those of the queue. -/
theorem perm_symbols_combineAll {fuel seq : Nat} {q : List Node} {t : CodeTree} (h : combineAll fuel seq q = some t) :
    t.symbols.Perm (q.flatMap fun n => n.tree.symbols) := by
  induction fuel generalizing seq q with
  | zero =>
    match q, h with
    | [n], h =>
      simp only [combineAll, Option.some.injEq] at h
      simp [h]
  | succ fuel ih =>
    match q, h with
    | [n], h =>
      simp only [combineAll, Option.some.injEq] at h
      simp [h]
    | a :: b :: q, h =>
      refine (ih h).trans (((perm_insertNode _ q).flatMap_right _).trans ?_)
      simp [combineNodes, CodeTree.symbols]

/-- What the Fibonacci argument keeps of a queue whose weights sum to `total`: a node of height `h` weighs at least
Fib(h+2), and for a combined node every weight is at least Fib(h+1). -/
structure FibQueue (total threshold : Nat) (q : List Node) : Prop where
  rise : WeightsRise q
  sum : (q.map fun n => n.weight.toNat).sum = total
  least : ∀ n ∈ q, threshold ≤ n.weight.toNat
  weight : ∀ n ∈ q, Nat.fib (n.tree.height + 2) ≤ n.weight.toNat
  branch : ∀ n ∈ q, 1 ≤ n.tree.height → Nat.fib (n.tree.height + 1) ≤ threshold

theorem FibQueue.combine {total threshold seq : Nat} {a b : Node} {q : List Node} (ht : total < 2 ^ 32)
    (h : FibQueue total threshold (a :: b :: q)) :
    FibQueue total b.weight.toNat (insertNode (combineNodes a b seq) q) := by
  obtain ⟨ha, hr⟩ := List.pairwise_cons.1 h.rise
  obtain ⟨hb, hq⟩ := List.pairwise_cons.1 hr
  have hab : a.weight.toNat ≤ b.weight.toNat := ha b List.mem_cons_self
  have hsum := h.sum
  simp only [List.map_cons, List.sum_cons] at hsum
  have hw : (combineNodes a b seq).weight.toNat = a.weight.toNat + b.weight.toNat := by
    show (a.weight + b.weight).toNat = _
    rw [BitVec.toNat_add, Nat.mod_eq_of_lt (by omega)]
  have hmem : ∀ n, n ∈ insertNode (combineNodes a b seq) q ↔ n = combineNodes a b seq ∨ n ∈ q := fun n => by
    rw [(perm_insertNode _ q).mem_iff, List.mem_cons]
  have hta := h.least a List.mem_cons_self
  have hfa := h.weight a List.mem_cons_self
  have hfb := h.weight b (by simp)
  have hba := h.branch a List.mem_cons_self
  have hbb := h.branch b (by simp)
  have hheight : (combineNodes a b seq).tree.height = max a.tree.height b.tree.height + 1 := rfl
  have hmax : Nat.fib (max a.tree.height b.tree.height + 2) ≤ b.weight.toNat := by
    rcases Nat.le_total a.tree.height b.tree.height with hc | hc
    · rw [Nat.max_eq_right hc]; exact hfb
    · rw [Nat.max_eq_left hc]; omega
  refine ⟨weightsRise_insertNode hq, ?_, fun n hn => ?_, fun n hn => ?_, fun n hn h1 => ?_⟩
  · rw [((perm_insertNode _ q).map _).sum_eq, List.map_cons, List.sum_cons, hw]
    omega
  · rcases (hmem n).1 hn with rfl | hn
    · omega
    · exact hb n hn
  · rcases (hmem n).1 hn with rfl | hn
    · rw [hheight, hw, Nat.fib_add_two, show max a.tree.height b.tree.height + 1 + 1 = max a.tree.height b.tree.height + 2 by rfl,
        Nat.add_comm]
      have hlow : ∀ h, (1 ≤ h → Nat.fib (h + 1) ≤ threshold) → Nat.fib (h + 1) ≤ a.weight.toNat := fun h hh => by
        rcases Nat.eq_zero_or_pos h with rfl | hp
        · have := Nat.fib_pos.2 (show 0 < a.tree.height + 2 by omega)
          simp only [Nat.zero_add, Nat.fib_one]
          omega
        · exact (hh hp).trans hta
      have : Nat.fib (max a.tree.height b.tree.height + 1) ≤ a.weight.toNat := by
        rcases Nat.le_total a.tree.height b.tree.height with hc | hc
        · rw [Nat.max_eq_right hc]; exact hlow _ hbb
        · rw [Nat.max_eq_left hc]; exact hlow _ hba
      omega
    · exact h.weight n (by simp [hn])
  · rcases (hmem n).1 hn with rfl | hn
    · rw [hheight]
      exact hmax
    · exact (h.branch n (by simp [hn]) h1).trans (hta.trans hab)

/-- The final tree of a queue of total weight `total` has Fib(height + 2) <= total (41_tree_builder.md R99). -/
theorem fib_height_combineAll {fuel seq total threshold : Nat} {q : List Node} {t : CodeTree} (ht : total < 2 ^ 32)
    (hq : FibQueue total threshold q) (h : combineAll fuel seq q = some t) : Nat.fib (t.height + 2) ≤ total := by
  induction fuel generalizing seq threshold q with
  | zero =>
    match q, h with
    | [n], h =>
      simp only [combineAll, Option.some.injEq] at h
      subst h
      have := hq.sum
      simp only [List.map_cons, List.map_nil, List.sum_cons, List.sum_nil, Nat.add_zero] at this
      exact this ▸ hq.weight n List.mem_cons_self
  | succ fuel ih =>
    match q, h with
    | [n], h =>
      simp only [combineAll, Option.some.injEq] at h
      subst h
      have := hq.sum
      simp only [List.map_cons, List.map_nil, List.sum_cons, List.sum_nil, Nat.add_zero] at this
      exact this ▸ hq.weight n List.mem_cons_self
    | a :: b :: q, h => exact ih (hq.combine ht) h

/-! ### The code tree of a frequency table -/

/-- The sum of a frequency table (40_frequency.md R89). -/
def freqSum (freq : Table Word) : Nat := (allSymbols.map fun b => (tableAt freq b).toNat).sum

theorem sum_filter_ne_zero {α : Type} (l : List α) (f : α → Word) :
    ((l.filter fun x => f x != 0).map fun x => (f x).toNat).sum = (l.map fun x => (f x).toNat).sum := by
  induction l with
  | nil => rfl
  | cons x l ih =>
    by_cases h : f x = 0
    · rw [List.filter_cons_of_neg (by simp [h]), ih, List.map_cons, List.sum_cons, h]
      simp
    · rw [List.filter_cons_of_pos (by simpa using h), List.map_cons, List.sum_cons, ih, List.map_cons, List.sum_cons]

theorem map_leafNodes {β : Type} (freq : Table Word) (f : Word → CodeTree → β) :
    (leafNodes freq).map (fun n => f n.weight n.tree) =
      (presentSymbols freq).map fun b => f (tableAt freq b) (.leaf b) := by
  rw [leafNodes, List.map_map]
  have : ((fun n : Node => f n.weight n.tree) ∘ fun p : Byte × Nat => (⟨tableAt freq p.1, p.2, .leaf p.1⟩ : Node)) =
      (fun b => f (tableAt freq b) (.leaf b)) ∘ Prod.fst := rfl
  rw [this, ← List.map_map, List.zipIdx_map_fst]

theorem fibQueue_initialQueue (freq : Table Word) : FibQueue (freqSum freq) 0 (initialQueue freq) := by
  have hleaf : ∀ n ∈ initialQueue freq, 1 ≤ n.weight.toNat ∧ n.tree.height = 0 := fun n hn => by
    obtain ⟨p, hp, rfl⟩ := List.mem_map.1 ((perm_initialQueue freq).mem_iff.1 hn)
    have hb := mem_presentSymbols.1 (List.fst_mem_of_mem_zipIdx hp)
    refine ⟨Nat.pos_of_ne_zero fun h => hb ?_, rfl⟩
    exact BitVec.eq_of_toNat_eq (by simpa using h)
  refine ⟨weightsRise_foldr_insertNode _, ?_, fun n _ => Nat.zero_le _, fun n hn => ?_, fun n hn h => ?_⟩
  · rw [((perm_initialQueue freq).map _).sum_eq, map_leafNodes freq fun w _ => w.toNat, presentSymbols,
      sum_filter_ne_zero, freqSum]
  · rw [(hleaf n hn).2]
    exact (hleaf n hn).1
  · rw [(hleaf n hn).2] at h
    omega

theorem codeTree_isSome {freq : Table Word} (h : presentSymbols freq ≠ []) : ∃ t, codeTree freq = some t := by
  refine combineAll_isSome (fun hq => h ?_) ?_
  · rw [← List.length_eq_zero_iff, ← length_initialQueue, hq]
    rfl
  · rw [length_initialQueue, length_leafNodes]
    omega

theorem codeTree_eq_none {freq : Table Word} (h : presentSymbols freq = []) : codeTree freq = none := by
  have : initialQueue freq = [] := by
    rw [← List.length_eq_zero_iff, length_initialQueue, h]
    rfl
  unfold codeTree
  rw [this]
  unfold combineAll
  rfl

/-- The code tree is the one the combinations of 41_tree_builder.md R92 end in. -/
theorem codeTree_iff_combinesTo {freq : Table Word} {t : CodeTree} :
    codeTree freq = some t ↔ CombinesTo (leafNodes freq) (presentSymbols freq).length t := by
  rw [codeTree, length_leafNodes]
  refine combineAll_iff_combinesTo (pairwise_foldr_insertNode (nodup_seq_leafNodes freq)) (fun n hn => ?_) ?_
    (perm_initialQueue freq).symm
  · have := List.mem_map_of_mem (f := (·.seq)) ((perm_initialQueue freq).mem_iff.1 hn)
    rwa [seqs_leafNodes, List.mem_range] at this
  · rw [length_initialQueue]
    exact Nat.le_succ _

theorem perm_symbols_codeTree {freq : Table Word} {t : CodeTree} (h : codeTree freq = some t) :
    t.symbols.Perm (presentSymbols freq) := by
  refine (perm_symbols_combineAll h).trans (((perm_initialQueue freq).flatMap_right _).trans ?_)
  rw [List.flatMap_def, map_leafNodes freq fun _ t => t.symbols]
  simp [CodeTree.symbols, ← List.flatMap_def]

theorem length_symbols_codeTree {freq : Table Word} {t : CodeTree} (h : codeTree freq = some t) :
    t.symbols.length = (presentSymbols freq).length := (perm_symbols_codeTree h).length_eq

theorem fib_height_codeTree {freq : Table Word} {t : CodeTree} (h : codeTree freq = some t)
    (hs : freqSum freq < 2 ^ 32) : Nat.fib (t.height + 2) ≤ freqSum freq :=
  fib_height_combineAll hs (fibQueue_initialQueue freq) h

/-- With weights that sum to at most 2^24 no tree is higher than 34 (41_tree_builder.md R99). -/
theorem height_codeTree_le {freq : Table Word} {t : CodeTree} (h : codeTree freq = some t)
    (hs : freqSum freq ≤ 2 ^ 24) : t.height ≤ 34 := by
  by_contra hc
  have h1 := fib_height_codeTree h (by omega)
  have h2 : Nat.fib 37 ≤ Nat.fib (t.height + 2) := Nat.fib_mono (by omega)
  have h3 : Nat.fib 37 = 24157817 := by norm_num
  omega

/-! ### The lengths -/

theorem lookup_eq_of_mem {l : List (Byte × Nat)} (hn : (l.map (·.1)).Nodup) {p : Byte × Nat} (hp : p ∈ l) :
    l.lookup p.1 = some p.2 := by
  induction l with
  | nil => simp at hp
  | cons q l ih =>
    rw [List.map_cons, List.nodup_cons] at hn
    rcases List.mem_cons.1 hp with rfl | hp
    · simp [List.lookup]
    · have : p.1 ≠ q.1 := fun h => hn.1 (h ▸ List.mem_map_of_mem hp)
      rw [List.lookup, beq_false_of_ne this]
      exact ih hn.2 hp

theorem lookup_eq_none {l : List (Byte × Nat)} {b : Byte} (hb : b ∉ l.map (·.1)) : l.lookup b = none := by
  induction l with
  | nil => rfl
  | cons q l ih =>
    rw [List.map_cons, List.mem_cons, not_or] at hb
    rw [List.lookup, beq_false_of_ne hb.1]
    exact ih hb.2

/-- The length of a symbol that is not in the tree is 0. -/
theorem lengthIn_of_not_mem {t : CodeTree} {b : Byte} (h : b ∉ t.symbols) : lengthIn t b = 0 := by
  cases t with
  | leaf s => simp only [CodeTree.symbols, List.mem_singleton] at h; simp [lengthIn, h]
  | branch l r =>
    rw [lengthIn, lookup_eq_none]
    · rfl
    · rwa [map_fst_leafDepths]

/-- The length of a leaf of a tree with a branch is its depth. -/
theorem lengthIn_of_mem {l r : CodeTree} (hn : (CodeTree.branch l r).symbols.Nodup) {p : Byte × Nat}
    (hp : p ∈ leafDepths 0 (.branch l r)) : lengthIn (.branch l r) p.1 = p.2 := by
  rw [lengthIn, lookup_eq_of_mem (by rwa [map_fst_leafDepths]) hp]
  rfl

theorem exists_leafDepths {t : CodeTree} {b : Byte} (h : b ∈ t.symbols) (d : Nat) : ∃ p ∈ leafDepths d t, p.1 = b := by
  rw [← map_fst_leafDepths d] at h
  exact List.mem_map.1 h

/-- The length of a symbol of the tree lies between 1 and the height, or is 1 in a single-leaf tree. -/
theorem lengthIn_range {t : CodeTree} (hn : t.symbols.Nodup) {b : Byte} (h : b ∈ t.symbols) :
    1 ≤ lengthIn t b ∧ lengthIn t b ≤ max 1 t.height := by
  cases t with
  | leaf s => simp only [CodeTree.symbols, List.mem_singleton] at h; simp [lengthIn, h]
  | branch l r =>
    obtain ⟨p, hp, rfl⟩ := exists_leafDepths h 0
    rw [lengthIn_of_mem hn hp]
    have h1 := leafDepths_range hp
    refine ⟨?_, by omega⟩
    rcases List.mem_append.1 hp with h2 | h2
    · exact (leafDepths_range h2).1
    · exact (leafDepths_range h2).1

theorem lengthIn_le (t : CodeTree) (b : Byte) (hn : t.symbols.Nodup) : lengthIn t b ≤ max 1 t.height := by
  by_cases h : b ∈ t.symbols
  · exact (lengthIn_range hn h).2
  · rw [lengthIn_of_not_mem h]
    omega

/-- `BuildLengths` where it succeeds: the lengths of the code tree, each at most 127. -/
theorem buildLengths_ok {freq : Table Word} {L : Table Byte} (h : buildLengths freq = .ok L) :
    ∃ t, codeTree freq = some t ∧ ∀ b, (tableAt L b).toNat = lengthIn t b ∧ lengthIn t b ≤ 127 := by
  unfold buildLengths at h
  split at h
  · simp at h
  · rename_i t ht
    split at h
    · simp at h
    · rename_i hf
      simp only [Except.ok.injEq] at h
      refine ⟨t, ht, fun b => ?_⟩
      have hb : lengthIn t b ≤ 127 := by
        have := List.find?_eq_none.1 hf b (mem_allSymbols b)
        simpa [Config.maxCodeLen] using this
      rw [← h, tableAt_tableOf, BitVec.toNat_ofNat, Nat.mod_eq_of_lt (by omega)]
      exact ⟨rfl, hb⟩

/-- `BuildLengths` fails with EmptyAlphabet or CodeOverflow. -/
theorem buildLengths_error {freq : Table Word} {f : Failure} (h : buildLengths freq = .error f) :
    (presentSymbols freq = [] ∧ f = ⟨.emptyAlphabet, 0⟩) ∨
      (presentSymbols freq ≠ [] ∧ f.status = .codeOverflow ∧
        ∃ t b, codeTree freq = some t ∧ 127 < lengthIn t b ∧ f.info = b.setWidth 32 ∧
          ∀ c : Byte, c.toNat < b.toNat → lengthIn t c ≤ 127) := by
  unfold buildLengths at h
  split at h
  · rename_i ht
    refine .inl ⟨?_, by simpa using h.symm⟩
    by_contra hne
    obtain ⟨t, ht'⟩ := codeTree_isSome hne
    simp [ht'] at ht
  · rename_i t ht
    split at h
    · rename_i b hb
      refine .inr ⟨fun he => ?_, ?_, t, b, ht, ?_, ?_, fun c hc => ?_⟩
      · simp [codeTree_eq_none he] at ht
      · simp only [Except.error.injEq] at h; rw [← h]
      · simpa [Config.maxCodeLen] using List.find?_some hb
      · simp only [Except.error.injEq] at h; rw [← h]
      · by_contra hlong
        obtain ⟨-, as, bs, hl, has⟩ := List.find?_eq_some_iff_append.1 hb
        have hasc := ascending_allSymbols
        have hm := mem_allSymbols c
        rw [hl] at hasc hm
        rcases List.mem_append.1 hm with hm | hm
        · have := has c hm
          simp only [Config.maxCodeLen, Bool.not_eq_true', decide_eq_false_iff_not] at this
          exact this (by omega)
        · rcases List.mem_cons.1 hm with rfl | hm
          · omega
          · have := (List.pairwise_cons.1 (List.pairwise_append.1 hasc).2.1).1 c hm
            omega
    · simp at h

/-- `BuildLengths` succeeds on frequencies that sum to at most 2^24, not all 0. -/
theorem buildLengths_isOk {freq : Table Word} (hne : presentSymbols freq ≠ []) (hs : freqSum freq ≤ 2 ^ 24) :
    ∃ L, buildLengths freq = .ok L := by
  cases h : buildLengths freq with
  | ok L => exact ⟨L, rfl⟩
  | error f =>
    rcases buildLengths_error h with ⟨he, -⟩ | ⟨-, -, t, b, ht, hlt, -, -⟩
    · exact absurd he hne
    · have h1 := height_codeTree_le ht hs
      have h2 := lengthIn_le t b ((perm_symbols_codeTree ht).nodup_iff.2 (nodup_presentSymbols freq))
      omega

/-- With two or more present symbols each length is the depth of the symbol's leaf (41_tree_builder.md R93). -/
theorem buildLengths_depths {freq : Table Word} {L : Table Byte} (h : buildLengths freq = .ok L)
    (h2 : 2 ≤ (presentSymbols freq).length) :
    ∃ t, codeTree freq = some t ∧ (∀ b, tableAt freq b ≠ 0 → ∃ d, (b, d) ∈ leafDepths 0 t) ∧
      ∀ b d, (b, d) ∈ leafDepths 0 t → (tableAt L b).toNat = d := by
  obtain ⟨t, ht, hL⟩ := buildLengths_ok h
  have hp := perm_symbols_codeTree ht
  refine ⟨t, ht, fun b hb => ?_, fun b d hd => ?_⟩
  · obtain ⟨⟨_, d⟩, hd, rfl⟩ := exists_leafDepths (hp.mem_iff.2 (mem_presentSymbols.2 hb)) 0
    exact ⟨d, hd⟩
  · rw [(hL b).1]
    cases t with
    | leaf s => simp [← hp.length_eq, CodeTree.symbols] at h2
    | branch l r => exact lengthIn_of_mem (hp.nodup_iff.2 (nodup_presentSymbols freq)) hd

theorem buildLengths_zero {freq : Table Word} {L : Table Byte} (h : buildLengths freq = .ok L) (b : Byte) :
    tableAt L b = 0 ↔ tableAt freq b = 0 := by
  obtain ⟨t, ht, hL⟩ := buildLengths_ok h
  have hp := perm_symbols_codeTree ht
  constructor
  · intro h0
    by_contra hne
    have := (lengthIn_range (hp.nodup_iff.2 (nodup_presentSymbols freq)) (hp.mem_iff.2 (mem_presentSymbols.2 hne))).1
    rw [← (hL b).1, h0] at this
    simp at this
  · intro h0
    have : b ∉ t.symbols := fun hm => mem_presentSymbols.1 (hp.mem_iff.1 hm) h0
    exact BitVec.eq_of_toNat_eq (by rw [(hL b).1, lengthIn_of_not_mem this]; rfl)

/-- The pairs of the derived lengths are the present symbols. -/
theorem perm_sym_lenPairs {freq : Table Word} {L : Table Byte} (h : buildLengths freq = .ok L) :
    ((lenPairs L).map (·.sym)).Perm (presentSymbols freq) := by
  refine (List.perm_ext_iff_of_nodup (nodup_sym_lenPairs L) (nodup_presentSymbols freq)).2 fun b => ?_
  rw [mem_presentSymbols, List.mem_map]
  constructor
  · rintro ⟨e, he, rfl⟩
    have := mem_lenPairs.1 he
    exact fun h0 => this.2 (this.1.trans ((buildLengths_zero h _).2 h0))
  · intro hb
    exact ⟨⟨b, tableAt L b⟩, mem_lenPairs.2 ⟨rfl, fun h0 => hb ((buildLengths_zero h b).1 h0)⟩, rfl⟩

/-- The Kraft sum of the derived lengths: a half for one symbol, and exactly 1 for more (41_tree_builder.md R98). -/
theorem kraftSum_buildLengths {freq : Table Word} {L : Table Byte} (h : buildLengths freq = .ok L) :
    kraftSum (lenPairs L) = if (presentSymbols freq).length = 1 then 2 ^ 254 else 2 ^ 255 := by
  obtain ⟨t, ht, hL⟩ := buildLengths_ok h
  have hp := perm_symbols_codeTree ht
  have hlen := length_symbols_codeTree ht
  have h1 : kraftSum (lenPairs L) = (t.symbols.map fun b => 2 ^ (255 - lengthIn t b)).sum := by
    have : kraftSum (lenPairs L) = (((lenPairs L).map (·.sym)).map fun b => 2 ^ (255 - lengthIn t b)).sum := by
      rw [kraftSum, List.map_map]
      congr 1
      refine List.map_congr_left fun e he => ?_
      show _ = 2 ^ (255 - lengthIn t e.sym)
      rw [(mem_lenPairs.1 he).1, (hL e.sym).1]
    rw [this, (((perm_sym_lenPairs h).trans hp.symm).map _).sum_eq]
  rw [h1]
  cases t with
  | leaf s =>
    rw [if_pos (by rw [← hlen]; rfl)]
    simp [CodeTree.symbols, lengthIn]
  | branch l r =>
    have hn : (CodeTree.branch l r).symbols.Nodup := hp.nodup_iff.2 (nodup_presentSymbols freq)
    have hle := height_lt_length (.branch l r)
    have h256 := length_presentSymbols_le freq
    have h2 : 2 ≤ (CodeTree.branch l r).symbols.length := by
      have := height_lt_length (.branch l r)
      simp only [CodeTree.height] at this
      omega
    rw [if_neg (by omega), ← map_fst_leafDepths 0, List.map_map]
    have := kraft_leafDepths (n := 255) (d := 0) (t := .branch l r) (by omega)
    rw [Nat.sub_zero] at this
    rw [← this]
    congr 1
    refine List.map_congr_left fun p hpm => ?_
    show 2 ^ (255 - lengthIn _ p.1) = _
    rw [lengthIn_of_mem hn hpm]

/-- The derived lengths fit a canonical code, so ASSIGN cannot overflow (42_canonical_assign.md R106). -/
theorem canonAssign_buildLengths {freq : Table Word} {L : Table Byte} (h : buildLengths freq = .ok L) :
    ∃ codes, canonAssign (lenPairs L) = .ok codes := by
  refine (canonAssign_ok_iff (pairwise_lenPairs L)).2 ⟨fun e he => ?_, ?_⟩
  · obtain ⟨t, -, hL⟩ := buildLengths_ok h
    rw [(mem_lenPairs.1 he).1, (hL e.sym).1]
    exact (hL e.sym).2
  · rw [kraftSum_buildLengths h]
    split
    · exact Nat.pow_le_pow_right (by decide) (by decide)
    · exact Nat.le_refl _

end Sys2Proof.Machine
end

