-- ==== Sys2Proof/Laws/Stages.lean ====
section
/-! SUPPORT. What each stage can do, said once: when it succeeds and with which state, and with which status it fails;
and what a completion makes of a stage. -/

namespace Sys2Proof.Machine

/-! ### The stages, one by one -/

theorem checkLength_ok_iff {s : State} : checkLength s = .ok () ↔ s.inLen.toNat ≤ s.bufBytes := by
  unfold checkLength
  split <;> simp <;> omega

theorem checkLength_error_iff {s : State} {f : Failure} :
    checkLength s = .error f ↔ s.bufBytes < s.inLen.toNat ∧ f = ⟨.badLength, s.inLen⟩ := by
  unfold checkLength
  split
  · simp only [Except.error.injEq]
    constructor
    · rintro rfl; exact ⟨by omega, rfl⟩
    · rintro ⟨-, rfl⟩; rfl
  · simp only [reduceCtorEq, false_iff, not_and]
    omega

theorem countStage_ok_iff {s t : State} :
    countStage s = .ok t ↔ s.inLen.toNat ≤ s.bufBytes ∧ t = { s with freq := countTable (inputBytes s) } := by
  unfold countStage
  cases h : checkLength s with
  | error f => have := checkLength_error_iff.1 h; simp; omega
  | ok u => have := checkLength_ok_iff.1 h; simp [this, eq_comm]

theorem countStage_error_iff {s : State} {f : Failure} :
    countStage s = .error f ↔ s.bufBytes < s.inLen.toNat ∧ f = ⟨.badLength, s.inLen⟩ := by
  unfold countStage
  cases h : checkLength s with
  | error g => have := checkLength_error_iff.1 h; simp [this.1, this.2, eq_comm]
  | ok u => have := checkLength_ok_iff.1 h; simp; omega

theorem buildStage_ok_iff {s t : State} :
    buildStage s = .ok t ↔ ∃ L, buildLengths s.freq = .ok L ∧ t = { clearCode s with len := L } := by
  unfold buildStage
  cases buildLengths s.freq <;> simp [eq_comm]

theorem buildStage_error_iff {s : State} {f : Failure} :
    buildStage s = .error f ↔ buildLengths s.freq = .error f := by
  unfold buildStage
  cases buildLengths s.freq <;> simp

theorem assignStage_ok_iff {s t : State} :
    assignStage s = .ok t ↔
      lenPairs s.len ≠ [] ∧ ∃ codes, canonAssign (lenPairs s.len) = .ok codes ∧
        t = installCode (lenPairs s.len) codes s := by
  simp only [assignStage]
  by_cases h : lenPairs s.len = []
  · simp [h]
  · rw [if_neg h]
    cases canonAssign (lenPairs s.len) <;> simp [h, eq_comm]

theorem assignStage_error_iff {s : State} {f : Failure} :
    assignStage s = .error f ↔
      (lenPairs s.len = [] ∧ f = ⟨.emptyAlphabet, 0⟩) ∨
        (lenPairs s.len ≠ [] ∧ ∃ k, canonAssign (lenPairs s.len) = .error k ∧
          f = ⟨.codeOverflow, symbolInfo (lenPairs s.len) k⟩) := by
  simp only [assignStage]
  by_cases h : lenPairs s.len = []
  · simp [h, eq_comm]
  · rw [if_neg h]
    cases canonAssign (lenPairs s.len) <;> simp [h, eq_comm]

/-- What SERIALIZE commits. -/
def serialized (bits : BitStr) (s : State) : State :=
  { storeOutput (containerBytes (alphabet s) bits) s with pad := BitVec.ofNat 3 (paddingCount bits.length) }

section Serialized
variable (bits : BitStr) (s : State)
@[simp] theorem serialized_bufBytes : (serialized bits s).bufBytes = s.bufBytes := by unfold serialized; rfl
@[simp] theorem serialized_eng : (serialized bits s).eng = s.eng := by unfold serialized; rfl
@[simp] theorem serialized_lcmd : (serialized bits s).lcmd = s.lcmd := by unfold serialized; rfl
@[simp] theorem serialized_ie : (serialized bits s).ie = s.ie := by unfold serialized; rfl
@[simp] theorem serialized_done : (serialized bits s).done = s.done := by unfold serialized; rfl
@[simp] theorem serialized_ovr : (serialized bits s).ovr = s.ovr := by unfold serialized; rfl
@[simp] theorem serialized_statusCode : (serialized bits s).statusCode = s.statusCode := by unfold serialized; rfl
@[simp] theorem serialized_inLen : (serialized bits s).inLen = s.inLen := by unfold serialized; rfl
@[simp] theorem serialized_errInfo : (serialized bits s).errInfo = s.errInfo := by unfold serialized; rfl
@[simp] theorem serialized_alphaN : (serialized bits s).alphaN = s.alphaN := by unfold serialized; rfl
@[simp] theorem serialized_maxLen : (serialized bits s).maxLen = s.maxLen := by unfold serialized; rfl
@[simp] theorem serialized_payOff : (serialized bits s).payOff = s.payOff := by unfold serialized; rfl
@[simp] theorem serialized_payBits : (serialized bits s).payBits = s.payBits := by unfold serialized; rfl
@[simp] theorem serialized_freq : (serialized bits s).freq = s.freq := by unfold serialized; rfl
@[simp] theorem serialized_len : (serialized bits s).len = s.len := by unfold serialized; rfl
@[simp] theorem serialized_alpha : (serialized bits s).alpha = s.alpha := by unfold serialized; rfl
@[simp] theorem serialized_code : (serialized bits s).code = s.code := by unfold serialized; rfl
@[simp] theorem serialized_ibuf : (serialized bits s).ibuf = s.ibuf := by unfold serialized; rfl
@[simp] theorem serialized_host : (serialized bits s).host = s.host := by unfold serialized; rfl
@[simp] theorem serialized_reads : (serialized bits s).reads = s.reads := by unfold serialized; rfl
@[simp] theorem serialized_sched : (serialized bits s).sched = s.sched := by unfold serialized; rfl
@[simp] theorem serialized_pad : (serialized bits s).pad = BitVec.ofNat 3 (paddingCount bits.length) := by unfold serialized; rfl
@[simp] theorem serialized_outLen :
    (serialized bits s).outLen = BitVec.ofNat 32 (containerBytes (alphabet s) bits).length := by unfold serialized; rfl
@[simp] theorem serialized_obuf :
    (serialized bits s).obuf = Memory.ofBytes s.draws (containerBytes (alphabet s) bits) := by unfold serialized; rfl
@[simp] theorem serialized_draws : (serialized bits s).draws = s.draws + 1 := by unfold serialized; rfl
end Serialized

theorem serializeStage_ok_iff {s t : State} :
    serializeStage s = .ok t ↔
      s.inLen.toNat ≤ s.bufBytes ∧ s.alphaN.toNat ≤ 128 ∧ ∃ bits, encodeBits (alphabet s) s.code (inputBytes s) = .ok bits ∧
        (containerBytes (alphabet s) bits).length ≤ s.bufBytes ∧ t = serialized bits s := by
  unfold serializeStage
  cases h : checkLength s with
  | error f => have := checkLength_error_iff.1 h; simp; omega
  | ok u =>
    have := checkLength_ok_iff.1 h
    simp only [this, true_and, Config.maxAlpha]
    by_cases h2 : s.alphaN.toNat > 128
    · rw [if_pos h2]; simp; omega
    · rw [if_neg h2]
      cases h3 : encodeBits (alphabet s) s.code (inputBytes s) with
      | error i => simp
      | ok bits =>
        simp only
        by_cases h4 : (containerBytes (alphabet s) bits).length > s.bufBytes
        · rw [if_pos h4]; simp; omega
        · rw [if_neg h4]
          have h5 : s.alphaN.toNat ≤ 128 := by omega
          have h6 : (containerBytes (alphabet s) bits).length ≤ s.bufBytes := by omega
          simp only [Except.ok.injEq, h5, true_and, exists_eq_left', h6]
          exact eq_comm

theorem serializeStage_error_iff {s : State} {f : Failure} :
    serializeStage s = .error f ↔
      (s.bufBytes < s.inLen.toNat ∧ f = ⟨.badLength, s.inLen⟩) ∨
      (s.inLen.toNat ≤ s.bufBytes ∧ 128 < s.alphaN.toNat ∧ f = ⟨.alphabetTooLarge, s.alphaN.setWidth 32⟩) ∨
      (s.inLen.toNat ≤ s.bufBytes ∧ s.alphaN.toNat ≤ 128 ∧
        ((∃ i, encodeBits (alphabet s) s.code (inputBytes s) = .error i ∧ f = ⟨.symbolUncoded, BitVec.ofNat 32 i⟩) ∨
         (∃ bits, encodeBits (alphabet s) s.code (inputBytes s) = .ok bits ∧
            s.bufBytes < (containerBytes (alphabet s) bits).length ∧
            f = ⟨.outputOverflow, BitVec.ofNat 32 (containerBytes (alphabet s) bits).length⟩))) := by
  unfold serializeStage
  cases h : checkLength s with
  | error g =>
    have := checkLength_error_iff.1 h
    have h2 : ¬ s.inLen.toNat ≤ s.bufBytes := by omega
    simp [this.1, h2, this.2, eq_comm]
  | ok u =>
    have := checkLength_ok_iff.1 h
    have h1 : ¬ s.bufBytes < s.inLen.toNat := by omega
    simp only [this, true_and, h1, false_and, false_or, Config.maxAlpha]
    by_cases h2 : s.alphaN.toNat > 128
    · rw [if_pos h2]
      have h3 : ¬ s.alphaN.toNat ≤ 128 := by omega
      simp [h2, h3, eq_comm]
    · rw [if_neg h2]
      have h3 : s.alphaN.toNat ≤ 128 := by omega
      simp only [h3, h2, false_and, true_and, false_or]
      cases h3 : encodeBits (alphabet s) s.code (inputBytes s) with
      | error i => simp [eq_comm]
      | ok bits =>
        simp only
        by_cases h4 : (containerBytes (alphabet s) bits).length > s.bufBytes
        · rw [if_pos h4]; simp [h4, eq_comm]
        · rw [if_neg h4]; simp; omega

theorem deserializeStage_ok_iff {s t : State} :
    deserializeStage s = .ok t ↔
      s.inLen.toNat ≤ s.bufBytes ∧ ∃ h ps codes, parseHeader s.ibuf s.inLen.toNat = .ok h ∧
        checkTable h.entries = .ok (ps, codes) ∧ t = installContainer h ps codes s := by
  unfold deserializeStage
  cases h : checkLength s with
  | error f => have := checkLength_error_iff.1 h; simp; omega
  | ok u =>
    have := checkLength_ok_iff.1 h
    simp only [this, true_and]
    cases hp : parseHeader s.ibuf s.inLen.toNat with
    | error f => simp
    | ok h =>
      simp only
      cases hc : checkTable h.entries with
      | error f => simp [hc]
      | ok r => obtain ⟨ps, codes⟩ := r; simp [hc, eq_comm]

theorem deserializeStage_error_iff {s : State} {f : Failure} :
    deserializeStage s = .error f ↔
      (s.bufBytes < s.inLen.toNat ∧ f = ⟨.badLength, s.inLen⟩) ∨
      (s.inLen.toNat ≤ s.bufBytes ∧
        (parseHeader s.ibuf s.inLen.toNat = .error f ∨
          ∃ h, parseHeader s.ibuf s.inLen.toNat = .ok h ∧ checkTable h.entries = .error f)) := by
  unfold deserializeStage
  cases h : checkLength s with
  | error g =>
    have := checkLength_error_iff.1 h
    have h2 : ¬ s.inLen.toNat ≤ s.bufBytes := by omega
    simp [this.1, h2, this.2, eq_comm]
  | ok u =>
    have := checkLength_ok_iff.1 h
    have h1 : ¬ s.bufBytes < s.inLen.toNat := by omega
    simp only [this, true_and, h1, false_and, false_or]
    cases hp : parseHeader s.ibuf s.inLen.toNat with
    | error g => simp
    | ok h =>
      simp only
      cases hc : checkTable h.entries with
      | error g => simp [hc]
      | ok r => obtain ⟨ps, codes⟩ := r; simp [hc]

theorem matchStage_ok_iff {s t : State} :
    matchStage s = .ok t ↔
      ∃ out, matchAll (alphabet s) s.code s.maxLen.toNat s.bufBytes (payloadBits s) = .ok out ∧ t = storeOutput out s := by
  unfold matchStage
  cases matchAll (alphabet s) s.code s.maxLen.toNat s.bufBytes (payloadBits s) <;> simp [eq_comm]

theorem matchStage_error_iff {s : State} {f : Failure} :
    matchStage s = .error f ↔
      matchAll (alphabet s) s.code s.maxLen.toNat s.bufBytes (payloadBits s) = .error f := by
  unfold matchStage
  cases matchAll (alphabet s) s.code s.maxLen.toNat s.bufBytes (payloadBits s) <;> simp

theorem thenStage_ok_iff {r : Except Failure State} {stage : State → Except Failure State} {t : State} :
    thenStage r stage = .ok t ↔ ∃ u, r = .ok u ∧ stage u = .ok t := by
  cases r <;> simp [thenStage]

theorem thenStage_error_iff {r : Except Failure State} {stage : State → Except Failure State} {f : Failure} :
    thenStage r stage = .error f ↔ r = .error f ∨ ∃ u, r = .ok u ∧ stage u = .error f := by
  cases r <;> simp [thenStage]

/-! ### Completions -/

/-- The pseudocode of each command on a working copy. -/
def stageOf (i : Instr) (s : State) : Except Failure State :=
  match i with
  | .nop => .ok s
  | .count => countStage s
  | .build => buildStage s
  | .assign => assignStage s
  | .serialize => serializeStage s
  | .deserialize => deserializeStage s
  | .matchBits => matchStage s
  | .encode => encodeStages s
  | .decode => decodeStages s

theorem stageOf_nop (s : State) : stageOf .nop s = .ok s := rfl
theorem stageOf_count (s : State) : stageOf .count s = countStage s := rfl
theorem stageOf_build (s : State) : stageOf .build s = buildStage s := rfl
theorem stageOf_assign (s : State) : stageOf .assign s = assignStage s := rfl
theorem stageOf_serialize (s : State) : stageOf .serialize s = serializeStage s := rfl
theorem stageOf_deserialize (s : State) : stageOf .deserialize s = deserializeStage s := rfl
theorem stageOf_matchBits (s : State) : stageOf .matchBits s = matchStage s := rfl
theorem stageOf_encode (s : State) : stageOf .encode s = encodeStages s := rfl
theorem stageOf_decode (s : State) : stageOf .decode s = decodeStages s := rfl

/-- The completion of each command, from the outcome of its pseudocode. -/
def completion (i : Instr) (s : State) (r : Except Failure State) : State :=
  if isOutputCommand i then finishOutput s r else finish s r

/-- Every command completes, but for MATCH over a payload range outside IBUF. -/
theorem exec_eq (i : Instr) (s : State) (h : i = .matchBits → payloadInBuffer s = true) :
    exec i s = .next (completion i s (stageOf i s)) := by
  cases i
  case matchBits =>
    show execMatch s = _
    rw [execMatch, if_pos (h rfl)]
    rfl
  all_goals rfl

theorem exec_next {i : Instr} {s t : State} (h : exec i s = .next t) : t = completion i s (stageOf i s) := by
  by_cases hm : i = .matchBits → payloadInBuffer s = true
  · rw [exec_eq i s hm, Host.Outcome.next.injEq] at h
    exact h.symm
  · push Not at hm
    obtain ⟨rfl, hp⟩ := hm
    have : exec .matchBits s = execMatch s := rfl
    rw [this, execMatch, if_neg hp] at h
    simp at h

/-- A command stops in no other way than MATCH's fault. -/
theorem exec_fault {i : Instr} {s : State} {f : Fault} (h : exec i s = .fault f) :
    i = .matchBits ∧ payloadInBuffer s = false := by
  by_cases hm : i = .matchBits → payloadInBuffer s = true
  · simp [exec_eq i s hm] at h
  · push Not at hm
    exact ⟨hm.1, by simpa using hm.2⟩

theorem exec_ne_refused (i : Instr) (s : State) (r : Refusal) : exec i s ≠ .refused r := by
  intro h
  by_cases hm : i = .matchBits → payloadInBuffer s = true
  · simp [exec_eq i s hm] at h
  · push Not at hm
    obtain ⟨rfl, hp⟩ := hm
    have : exec .matchBits s = execMatch s := rfl
    rw [this, execMatch, if_neg hp] at h
    simp at h

theorem completion_ok (i : Instr) (s t : State) : completion i s (.ok t) = complete .ok 0 t := by
  unfold completion
  split <;> rfl

theorem completion_error_output {i : Instr} (h : isOutputCommand i = true) (s : State) (f : Failure) :
    completion i s (.error f) = takeOutputError f s := by
  unfold completion
  rw [if_pos h]
  rfl

theorem completion_error {i : Instr} (h : isOutputCommand i = false) (s : State) (f : Failure) :
    completion i s (.error f) = takeError f s := by
  unfold completion
  rw [if_neg (by simp [h])]
  rfl

theorem completion_statusCode_error (i : Instr) (s : State) (f : Failure) :
    (completion i s (.error f)).statusCode = f.status ∧ (completion i s (.error f)).errInfo = f.info := by
  unfold completion
  split <;> exact ⟨rfl, rfl⟩

theorem matchAll_status {entries : List AlphaEntry} {code : Table CodeWord} {maxLen cap : Nat} {bits : BitStr}
    {f : Failure} (h : matchAll entries code maxLen cap bits = .error f) :
    f.status = .unmatchedBits ∨ f.status = .outputOverflow := matchFrom_status h

/-- The statuses a command can fail with (60_exceptions.md R144, each command's rule). -/
def errorStatuses : Instr → List Status
  | .nop => []
  | .count => [.badLength]
  | .build => [.emptyAlphabet, .codeOverflow]
  | .assign => [.emptyAlphabet, .codeOverflow]
  | .serialize => [.badLength, .alphabetTooLarge, .symbolUncoded, .outputOverflow]
  | .deserialize => [.badLength, .truncatedHeader, .corruptPadding, .alphabetTooLarge, .corruptTable]
  | .matchBits => [.unmatchedBits, .outputOverflow]
  | .encode =>
    [.badLength, .emptyAlphabet, .codeOverflow, .alphabetTooLarge, .symbolUncoded, .outputOverflow]
  | .decode =>
    [.badLength, .truncatedHeader, .corruptPadding, .alphabetTooLarge, .corruptTable, .unmatchedBits, .outputOverflow]

theorem buildStage_status {s : State} {f : Failure} (h : buildStage s = .error f) :
    f.status = .emptyAlphabet ∨ f.status = .codeOverflow := by
  rcases buildLengths_error (buildStage_error_iff.1 h) with ⟨-, rfl⟩ | ⟨-, h, -⟩
  · exact .inl rfl
  · exact .inr h

theorem assignStage_status {s : State} {f : Failure} (h : assignStage s = .error f) :
    f.status = .emptyAlphabet ∨ f.status = .codeOverflow := by
  rcases assignStage_error_iff.1 h with ⟨-, rfl⟩ | ⟨-, k, -, rfl⟩
  · exact .inl rfl
  · exact .inr rfl

theorem serializeStage_status {s : State} {f : Failure} (h : serializeStage s = .error f) :
    f.status ∈ errorStatuses .serialize := by
  rcases serializeStage_error_iff.1 h with ⟨-, rfl⟩ | ⟨-, -, rfl⟩ | ⟨-, -, ⟨i, -, rfl⟩ | ⟨bits, -, -, rfl⟩⟩ <;>
    simp [errorStatuses]

theorem deserializeStage_status {s : State} {f : Failure} (h : deserializeStage s = .error f) :
    f.status ∈ errorStatuses .deserialize := by
  rcases deserializeStage_error_iff.1 h with ⟨-, rfl⟩ | ⟨-, h | ⟨p, -, h⟩⟩
  · simp [errorStatuses]
  · rcases parseHeader_error h with h | h | h <;> simp [errorStatuses, h]
  · simp [errorStatuses, checkTable_error h]

theorem stageOf_status {i : Instr} {s : State} {f : Failure} (h : stageOf i s = .error f) :
    f.status ∈ errorStatuses i := by
  cases i with
  | nop => simp [stageOf] at h
  | count => simp [(countStage_error_iff.1 h).2, errorStatuses]
  | build => rcases buildStage_status h with h | h <;> simp [errorStatuses, h]
  | assign => rcases assignStage_status h with h | h <;> simp [errorStatuses, h]
  | serialize => exact serializeStage_status h
  | deserialize => exact deserializeStage_status h
  | matchBits => rcases matchAll_status (matchStage_error_iff.1 h) with h | h <;> simp [errorStatuses, h]
  | encode =>
    rcases thenStage_error_iff.1 h with h | ⟨u, -, h⟩
    · rcases thenStage_error_iff.1 h with h | ⟨u, -, h⟩
      · simp [(countStage_error_iff.1 h).2, errorStatuses]
      · rw [encodeTables] at h
        split at h
        · simp at h
        · rcases thenStage_error_iff.1 h with h | ⟨u, -, h⟩
          · rcases buildStage_status h with h | h <;> simp [errorStatuses, h]
          · rcases assignStage_status h with h | h <;> simp [errorStatuses, h]
    · have := serializeStage_status h
      simp only [errorStatuses, List.mem_cons, List.not_mem_nil, or_false] at this ⊢
      rcases this with h | h | h | h <;> simp [h]
  | decode =>
    rcases thenStage_error_iff.1 h with h | ⟨u, -, h⟩
    · have := deserializeStage_status h
      simp only [errorStatuses, List.mem_cons, List.not_mem_nil, or_false] at this ⊢
      rcases this with h | h | h | h | h <;> simp [h]
    · rcases matchAll_status (matchStage_error_iff.1 h) with h | h <;> simp [errorStatuses, h]

theorem stageOf_status_ne_ok {i : Instr} {s : State} {f : Failure} (h : stageOf i s = .error f) : f.status ≠ .ok := by
  have := stageOf_status h
  intro hf
  rw [hf] at this
  cases i <;> simp [errorStatuses] at this

/-- A command that completes OK commits its pseudocode's state. -/
theorem exec_ok {i : Instr} {s t : State} (h : exec i s = .next t) (hs : t.statusCode = .ok) :
    ∃ u, stageOf i s = .ok u ∧ t = complete .ok 0 u := by
  have ht := exec_next h
  cases hr : stageOf i s with
  | ok u => exact ⟨u, rfl, by rw [ht, hr, completion_ok]⟩
  | error f =>
    rw [hr] at ht
    rw [ht, (completion_statusCode_error i s f).1] at hs
    exact absurd hs (stageOf_status_ne_ok hr)

/-- A command that completes with an error takes it. -/
theorem exec_error {i : Instr} {s t : State} (h : exec i s = .next t) (hs : t.statusCode ≠ .ok) :
    ∃ f, stageOf i s = .error f ∧ t = completion i s (.error f) := by
  have ht := exec_next h
  cases hr : stageOf i s with
  | ok u => rw [ht, hr, completion_ok] at hs; exact absurd rfl hs
  | error f => exact ⟨f, rfl, by rw [ht, hr]⟩

/-! ### What a stage leaves alone -/

/-- The state that no command's pseudocode touches. -/
structure SameInputs (s t : State) : Prop where
  bufBytes : t.bufBytes = s.bufBytes
  eng : t.eng = s.eng
  lcmd : t.lcmd = s.lcmd
  ie : t.ie = s.ie
  done : t.done = s.done
  ovr : t.ovr = s.ovr
  statusCode : t.statusCode = s.statusCode
  inLen : t.inLen = s.inLen
  errInfo : t.errInfo = s.errInfo
  ibuf : t.ibuf = s.ibuf
  host : t.host = s.host
  reads : t.reads = s.reads
  sched : t.sched = s.sched

theorem SameInputs.refl (s : State) : SameInputs s s := ⟨rfl, rfl, rfl, rfl, rfl, rfl, rfl, rfl, rfl, rfl, rfl, rfl, rfl⟩

theorem SameInputs.trans {s t u : State} (h : SameInputs s t) (k : SameInputs t u) : SameInputs s u :=
  ⟨k.1.trans h.1, k.2.trans h.2, k.3.trans h.3, k.4.trans h.4, k.5.trans h.5, k.6.trans h.6, k.7.trans h.7,
    k.8.trans h.8, k.9.trans h.9, k.10.trans h.10, k.11.trans h.11, k.12.trans h.12, k.13.trans h.13⟩

theorem sameInputs_countStage {s t : State} (h : countStage s = .ok t) : SameInputs s t := by
  obtain ⟨-, rfl⟩ := countStage_ok_iff.1 h
  exact ⟨rfl, rfl, rfl, rfl, rfl, rfl, rfl, rfl, rfl, rfl, rfl, rfl, rfl⟩

theorem sameInputs_buildStage {s t : State} (h : buildStage s = .ok t) : SameInputs s t := by
  obtain ⟨L, -, rfl⟩ := buildStage_ok_iff.1 h
  exact ⟨rfl, rfl, rfl, rfl, rfl, rfl, rfl, rfl, rfl, rfl, rfl, rfl, rfl⟩

theorem sameInputs_assignStage {s t : State} (h : assignStage s = .ok t) : SameInputs s t := by
  obtain ⟨-, codes, -, rfl⟩ := assignStage_ok_iff.1 h
  exact ⟨rfl, rfl, rfl, rfl, rfl, rfl, rfl, rfl, rfl, rfl, rfl, rfl, rfl⟩

theorem sameInputs_serializeStage {s t : State} (h : serializeStage s = .ok t) : SameInputs s t := by
  obtain ⟨-, -, bits, -, -, rfl⟩ := serializeStage_ok_iff.1 h
  exact ⟨rfl, rfl, rfl, rfl, rfl, rfl, rfl, rfl, rfl, rfl, rfl, rfl, rfl⟩

theorem sameInputs_deserializeStage {s t : State} (h : deserializeStage s = .ok t) : SameInputs s t := by
  obtain ⟨-, p, ps, codes, -, -, rfl⟩ := deserializeStage_ok_iff.1 h
  exact ⟨rfl, rfl, rfl, rfl, rfl, rfl, rfl, rfl, rfl, rfl, rfl, rfl, rfl⟩

theorem sameInputs_matchStage {s t : State} (h : matchStage s = .ok t) : SameInputs s t := by
  obtain ⟨out, -, rfl⟩ := matchStage_ok_iff.1 h
  exact ⟨rfl, rfl, rfl, rfl, rfl, rfl, rfl, rfl, rfl, rfl, rfl, rfl, rfl⟩

theorem sameInputs_encodeTables {s t : State} (h : encodeTables s = .ok t) : SameInputs s t := by
  rw [encodeTables] at h
  split at h
  · simp only [Except.ok.injEq] at h
    subst h
    exact ⟨rfl, rfl, rfl, rfl, rfl, rfl, rfl, rfl, rfl, rfl, rfl, rfl, rfl⟩
  · obtain ⟨u, h1, h2⟩ := thenStage_ok_iff.1 h
    exact (sameInputs_buildStage h1).trans (sameInputs_assignStage h2)

/-- No command's pseudocode touches its inputs, the control registers or the environment. -/
theorem sameInputs_stageOf {i : Instr} {s t : State} (h : stageOf i s = .ok t) : SameInputs s t := by
  cases i with
  | nop => simp only [stageOf, Except.ok.injEq] at h; subst h; exact .refl _
  | count => exact sameInputs_countStage h
  | build => exact sameInputs_buildStage h
  | assign => exact sameInputs_assignStage h
  | serialize => exact sameInputs_serializeStage h
  | deserialize => exact sameInputs_deserializeStage h
  | matchBits => exact sameInputs_matchStage h
  | encode =>
    obtain ⟨u, h1, h2⟩ := thenStage_ok_iff.1 h
    obtain ⟨v, h3, h4⟩ := thenStage_ok_iff.1 h1
    exact ((sameInputs_countStage h3).trans (sameInputs_encodeTables h4)).trans (sameInputs_serializeStage h2)
  | decode =>
    obtain ⟨u, h1, h2⟩ := thenStage_ok_iff.1 h
    exact (sameInputs_deserializeStage h1).trans (sameInputs_matchStage h2)

end Sys2Proof.Machine
end

