-- ==== Sys2Proof/Laws/Step.lean ====
section
/-! SUPPORT. What a step can do, said once: which agent moves, and the effect of each host operation. -/

namespace Sys2Proof.Machine

/-! ### Decoding -/

theorem toNat_opField (w : Word) : (opField w).toNat = w.toNat % 16 := by
  simp [opField, BitVec.extractLsb'_toNat]

theorem toNat_rsvField (w : Word) : (rsvField w).toNat = w.toNat / 16 := by
  have := w.isLt
  simp only [rsvField, BitVec.extractLsb'_toNat, Nat.shiftRight_eq_div_pow]
  omega

theorem rsvField_eq_zero_iff (w : Word) : rsvField w = 0 ↔ w.toNat / 16 = 0 := by
  rw [← toNat_rsvField]
  exact ⟨fun h => by simp [h], fun h => BitVec.eq_of_toNat_eq (by simpa using h)⟩

theorem commandOfOp_ok_iff {op : BitVec 4} {i : Instr} : commandOfOp op = .ok i ↔ op = opOf i := by
  cases i <;> revert op <;> decide

theorem opOf_le (i : Instr) : (opOf i).toNat ≤ 8 := by cases i <;> decide

theorem toNat_encode (i : Instr) : (encode i).toNat = (opOf i).toNat := by cases i <;> decide

theorem decode_ok_iff {w : Word} {i : Instr} : decode w = .ok i ↔ w = encode i := by
  unfold decode
  split
  · rename_i h
    rw [commandOfOp_ok_iff]
    rw [rsvField_eq_zero_iff] at h
    constructor
    · intro ho
      refine BitVec.eq_of_toNat_eq ?_
      rw [toNat_encode, ← ho, toNat_opField]
      omega
    · rintro rfl
      refine BitVec.eq_of_toNat_eq ?_
      rw [toNat_opField, toNat_encode]
      have := opOf_le i
      omega
  · rename_i h
    simp only [reduceCtorEq, false_iff]
    rintro rfl
    rw [rsvField_eq_zero_iff, toNat_encode] at h
    have := opOf_le i
    omega

theorem decode_encode (i : Instr) : decode (encode i) = .ok i := decode_ok_iff.2 rfl

/-- The legal words are those of value at most 8. -/
theorem exists_decode_iff (w : Word) : (∃ i, decode w = .ok i) ↔ w.toNat ≤ 8 := by
  constructor
  · rintro ⟨i, h⟩
    rw [decode_ok_iff.1 h, toNat_encode]
    exact opOf_le i
  · intro h
    have : ∀ n, n ≤ 8 → ∃ i, BitVec.ofNat 32 n = encode i := by
      intro n hn
      interval_cases n
      · exact ⟨.nop, by decide⟩
      · exact ⟨.count, by decide⟩
      · exact ⟨.build, by decide⟩
      · exact ⟨.assign, by decide⟩
      · exact ⟨.serialize, by decide⟩
      · exact ⟨.deserialize, by decide⟩
      · exact ⟨.matchBits, by decide⟩
      · exact ⟨.encode, by decide⟩
      · exact ⟨.decode, by decide⟩
    obtain ⟨i, hi⟩ := this w.toNat h
    exact ⟨i, decode_ok_iff.2 (by rw [← hi]; simp)⟩

/-! ### Whose turn it is -/

theorem step_host {s s' : State} {op : HostOp} (h : HostActs s op s') : step s = runHostOp op s' := by
  obtain ⟨rest, hr, ⟨turns, hs, rfl⟩ | ⟨hs, he, rfl⟩⟩ := h
  · rw [step, nextTurn, hs]
    show hostTurn { s with sched := turns } = _
    rw [hostTurn]
    simp only [hr]
  · rw [step, nextTurn, hs]
    show takeTurn (defaultTurn s) s = _
    rw [defaultTurn, he]
    show hostTurn s = _
    rw [hostTurn, hr]
    simp only [he, hs]

theorem step_engine {s s' : State} {i : Instr} (h : EngineActs s s') (hd : decode s.lcmd = .ok i) :
    step s = exec i s' := by
  obtain ⟨he, ⟨turns, hs, rfl⟩ | ⟨hs, rfl⟩⟩ := h
  · rw [step, nextTurn, hs]
    show engineTurn { s with sched := turns } = _
    rw [engineTurn]
    simp only [he, hd]
  · rw [step, nextTurn, hs]
    show takeTurn (defaultTurn s') s' = _
    rw [defaultTurn, he]
    show engineTurn s' = _
    rw [engineTurn]
    simp only [he, hd]

theorem step_illegal {s s' : State} (h : EngineActs s s') (hd : ∀ i, decode s.lcmd ≠ .ok i) :
    step s = .next (completeIllegal s') := by
  obtain ⟨e, hd'⟩ : ∃ e, decode s.lcmd = .error e := by
    cases hc : decode s.lcmd with
    | ok i => exact absurd hc (hd i)
    | error e => exact ⟨e, rfl⟩
  obtain ⟨he, ⟨turns, hs, rfl⟩ | ⟨hs, rfl⟩⟩ := h
  · rw [step, nextTurn, hs]
    show engineTurn { s with sched := turns } = _
    rw [engineTurn]
    simp only [he, hd']
  · rw [step, nextTurn, hs]
    show takeTurn (defaultTurn s') s' = _
    rw [defaultTurn, he]
    show engineTurn s' = _
    rw [engineTurn]
    simp only [he, hd']

theorem step_reset {s : State} {turns : List Turn} (h : s.sched = .reset :: turns) :
    step s = .next (hardReset { s with sched := turns }) := by
  rw [step, nextTurn, h]
  rfl

/-- A turn of the engine while IDLE does nothing (60_exceptions.md R160). -/
theorem step_engine_idle {s : State} {turns : List Turn} (he : s.eng = .idle) (hs : s.sched = .engine :: turns) :
    step s = .next { s with sched := turns } := by
  rw [step, nextTurn, hs]
  show engineTurn { s with sched := turns } = _
  rw [engineTurn]
  simp only [he]

/-- A turn of a host with nothing pending does nothing. -/
theorem step_host_idle {s : State} {turns : List Turn} (hh : s.host = []) (hs : s.sched = .host :: turns) :
    step s = .next { s with sched := turns } := by
  rw [step, nextTurn, hs]
  show hostTurn { s with sched := turns } = _
  rw [hostTurn]
  simp only [hh]

/-- With nothing scheduled, an IDLE block whose host has nothing pending stays as it is (60_exceptions.md R160). -/
theorem step_stutter {s : State} (he : s.eng = .idle) (hh : s.host = []) (hs : s.sched = []) : step s = .next s := by
  rw [step, nextTurn, hs]
  show takeTurn (defaultTurn s) s = _
  rw [defaultTurn, he]
  show hostTurn s = _
  rw [hostTurn, hh]

/-- Every step is one of these: a host operation, a completion, the completion of an illegal word, a reset, or a turn
of an agent that has nothing to do. -/
theorem step_cases (s : State) :
    (∃ op s', HostActs s op s' ∧ step s = runHostOp op s') ∨
    (∃ i s', EngineActs s s' ∧ decode s.lcmd = .ok i ∧ step s = exec i s') ∨
    (∃ s', EngineActs s s' ∧ (∀ i, decode s.lcmd ≠ .ok i) ∧ step s = .next (completeIllegal s')) ∨
    (∃ turns, s.sched = .reset :: turns ∧ step s = .next (hardReset { s with sched := turns })) ∨
    (∃ turns, (s.sched = [] ∨ ∃ t, s.sched = t :: turns) ∧ step s = .next { s with sched := turns }) := by
  have engine : ∀ s', EngineActs s s' →
      (∃ i s', EngineActs s s' ∧ decode s.lcmd = .ok i ∧ step s = exec i s') ∨
      (∃ s', EngineActs s s' ∧ (∀ i, decode s.lcmd ≠ .ok i) ∧ step s = .next (completeIllegal s')) := by
    intro s' h
    cases hd : decode s.lcmd with
    | ok i => exact .inl ⟨i, s', h, rfl, step_engine h hd⟩
    | error e =>
      have hd' : ∀ i, decode s.lcmd ≠ .ok i := by simp [hd]
      exact .inr ⟨s', h, by simp, step_illegal h hd'⟩
  cases hs : s.sched with
  | nil =>
    cases he : s.eng with
    | busy => rcases engine s ⟨he, .inr ⟨hs, rfl⟩⟩ with h | h; exacts [.inr (.inl h), .inr (.inr (.inl h))]
    | idle =>
      cases hh : s.host with
      | nil =>
        refine .inr (.inr (.inr (.inr ⟨[], .inl rfl, (step_stutter he hh hs).trans ?_⟩)))
        simp only [← hs, ← he, ← hh]
      | cons op rest =>
        have : HostActs s op { s with host := rest } := ⟨rest, hh, .inr ⟨hs, he, rfl⟩⟩
        exact .inl ⟨op, _, this, step_host this⟩
  | cons t turns =>
    cases t with
    | host =>
      cases hh : s.host with
      | nil =>
        exact .inr (.inr (.inr (.inr ⟨turns, .inr ⟨_, rfl⟩, (step_host_idle hh hs).trans (by simp only [hh])⟩)))
      | cons op rest =>
        have : HostActs s op { s with host := rest, sched := turns } := ⟨rest, hh, .inl ⟨turns, hs, rfl⟩⟩
        exact .inl ⟨op, _, this, step_host this⟩
    | engine =>
      cases he : s.eng with
      | busy =>
        rcases engine { s with sched := turns } ⟨he, .inl ⟨turns, hs, rfl⟩⟩ with h | h
        exacts [.inr (.inl h), .inr (.inr (.inl h))]
      | idle =>
        exact .inr (.inr (.inr (.inr ⟨turns, .inr ⟨_, rfl⟩, (step_engine_idle he hs).trans (by simp only [he])⟩)))
    | reset => exact .inr (.inr (.inr (.inl ⟨turns, rfl, step_reset hs⟩)))

/-! ### The effects of host operations -/

theorem accessRefusal_none_iff {off : Nat} : accessRefusal off = none ↔ off % 4 = 0 ∧ off < 0x04000000 := by
  unfold accessRefusal
  by_cases h1 : off % 4 = 0
  · rw [if_neg (by omega)]
    by_cases h2 : off < Config.windowBytes
    · rw [if_pos h2]
      simp only [Config.windowBytes] at h2
      simp [h1, h2]
    · rw [if_neg h2]
      simp only [Config.windowBytes] at h2
      simp [h2]
  · rw [if_pos h1]
    simp [h1]

theorem runHostOp_stw {s : State} {off : Nat} {v : Word} (h1 : off % 4 = 0) (h2 : off < 0x04000000) :
    runHostOp (.stw off v) s = .next (busWrite off v s) := by
  simp only [runHostOp, accessRefusal_none_iff.2 ⟨h1, h2⟩]

theorem runHostOp_ldw {s : State} {off : Nat} (h1 : off % 4 = 0) (h2 : off < 0x04000000) :
    runHostOp (.ldw off) s = .next { afterRead s off with reads := busRead s off :: s.reads } := by
  simp only [runHostOp, accessRefusal_none_iff.2 ⟨h1, h2⟩]

theorem bufBytesAdmitted_iff {n : Nat} : bufBytesAdmitted n = true ↔ n % 4 = 0 ∧ 512 ≤ n ∧ n ≤ 2 ^ 24 := by
  simp only [bufBytesAdmitted, Bool.and_eq_true, decide_eq_true_eq, beq_iff_eq, and_assoc]

/-- What a host write can do (20_memory.md R60, R61). -/
theorem busWrite_cases (off : Nat) (v : Word) (s : State) (ha : off % 4 = 0) :
    busWrite off v s = s ∨ busWrite off v s = softReset s ∨ (∃ b, busWrite off v s = { s with ie := b }) ∨
    (s.eng = .idle ∧ busWrite off v s = issue v s) ∨ (s.eng = .busy ∧ busWrite off v s = dropWrite s) ∨
    busWrite off v s = writeStatus v s ∨ (s.eng = .idle ∧ busWrite off v s = { s with inLen := v }) ∨
    (∃ a, a % 4 = 0 ∧ a < s.bufBytes ∧ s.eng = .idle ∧
      busWrite off v s = { s with ibuf := s.ibuf.writeWord a v }) := by
  unfold busWrite
  split
  · unfold writeCtrl
    split
    · exact .inr (.inl rfl)
    · exact .inr (.inr (.inl ⟨_, rfl⟩))
  split
  · unfold writeCmd
    cases he : s.eng with
    | idle => exact .inr (.inr (.inr (.inl ⟨rfl, rfl⟩)))
    | busy => exact .inr (.inr (.inr (.inr (.inl ⟨rfl, rfl⟩))))
  split
  · exact .inr (.inr (.inr (.inr (.inr (.inl rfl)))))
  split
  · unfold writeInLen
    cases he : s.eng with
    | idle => exact .inr (.inr (.inr (.inr (.inr (.inr (.inl ⟨rfl, rfl⟩))))))
    | busy => exact .inr (.inr (.inr (.inr (.inl ⟨rfl, rfl⟩))))
  split
  · rename_i hw
    unfold writeIbuf
    cases he : s.eng with
    | idle =>
      refine .inr (.inr (.inr (.inr (.inr (.inr (.inr ⟨off - ibufBase, ?_, ?_, rfl, rfl⟩))))))
      · simp only [inWindow, ibufBase] at hw ⊢
        omega
      · simp only [inWindow, ibufBase] at hw ⊢
        omega
    | busy => exact .inr (.inr (.inr (.inr (.inl ⟨rfl, rfl⟩))))
  · exact .inl rfl

/-- A host operation that has a step: a write, a read, or a wait that ends or goes on. -/
theorem runHostOp_cases {op : HostOp} {s t : State} (h : runHostOp op s = .next t) :
    (∃ off v, op = .stw off v ∧ off % 4 = 0 ∧ off < 0x04000000 ∧ t = busWrite off v s) ∨
    (∃ off, op = .ldw off ∧ off % 4 = 0 ∧ off < 0x04000000 ∧
      t = { afterRead s off with reads := busRead s off :: s.reads }) ∨
    t = s ∨ t = { s with host := op :: s.host } := by
  cases op with
  | stw off v =>
    simp only [runHostOp] at h
    split at h
    · simp at h
    · rename_i ha
      obtain ⟨h1, h2⟩ := accessRefusal_none_iff.1 ha
      exact .inl ⟨off, v, rfl, h1, h2, by simpa using h.symm⟩
  | ldw off =>
    simp only [runHostOp] at h
    split at h
    · simp at h
    · rename_i ha
      obtain ⟨h1, h2⟩ := accessRefusal_none_iff.1 ha
      exact .inr (.inl ⟨off, rfl, h1, h2, by simpa using h.symm⟩)
  | wait =>
    simp only [runHostOp] at h
    split at h
    · exact .inr (.inr (.inr (by simpa using h.symm)))
    · exact .inr (.inr (.inl (by simpa using h.symm)))
  | waitIrq =>
    simp only [runHostOp] at h
    split at h
    · exact .inr (.inr (.inl (by simpa using h.symm)))
    · exact .inr (.inr (.inr (by simpa using h.symm)))
  | oddAccess w b off => simp [runHostOp] at h

theorem runHostOp_ne_fault (op : HostOp) (s : State) (f : Fault) : runHostOp op s ≠ .fault f := by
  cases op <;> simp only [runHostOp] <;> (try split) <;> simp

/-- A step faults only where a command does. -/
theorem step_fault {s : State} {f : Fault} (h : step s = .fault f) :
    ∃ i s', EngineActs s s' ∧ decode s.lcmd = .ok i ∧ exec i s' = .fault f := by
  rcases step_cases s with ⟨op, s', -, hs⟩ | ⟨i, s', he, hd, hs⟩ | ⟨s', -, -, hs⟩ | ⟨_, -, hs⟩ | ⟨_, -, hs⟩
  · exact absurd (hs ▸ h) (runHostOp_ne_fault op s' f)
  · exact ⟨i, s', he, hd, hs ▸ h⟩
  · simp [hs] at h
  · simp [hs] at h
  · simp [hs] at h

end Sys2Proof.Machine
end

