-- ==== Sys2Proof/Laws/Bus.lean ====
section
/-! SUPPORT. The laws of the host bus: what a read of each window gives, the STATUS word's fields, and the step of a
write or a read. -/

namespace Sys2Proof.Machine

/-! ### Steps -/

/-- The state in which a host operation runs differs from the one before only in the environment. -/
theorem HostActs.environment {s s' : State} {op : HostOp} (h : HostActs s op s') :
    ∃ host sched, s' = { s with host := host, sched := sched } := by
  obtain ⟨rest, -, ⟨turns, -, rfl⟩ | ⟨-, -, rfl⟩⟩ := h
  · exact ⟨_, _, rfl⟩
  · exact ⟨rest, s.sched, rfl⟩

theorem EngineActs.environment {s s' : State} (h : EngineActs s s') : ∃ sched, s' = { s with sched := sched } := by
  obtain ⟨-, ⟨turns, -, rfl⟩ | ⟨-, rfl⟩⟩ := h
  · exact ⟨_, rfl⟩
  · exact ⟨s'.sched, rfl⟩

theorem step_stw {s s' : State} {off : Nat} {v : Word} (h : HostActs s (.stw off v) s') (h1 : off % 4 = 0)
    (h2 : off < 0x04000000) : step s = .next (busWrite off v s') := by
  rw [step_host h, runHostOp_stw h1 h2]

theorem step_ldw {s s' : State} {off : Nat} (h : HostActs s (.ldw off) s') (h1 : off % 4 = 0)
    (h2 : off < 0x04000000) : step s = .next { afterRead s' off with reads := busRead s' off :: s'.reads } := by
  rw [step_host h, runHostOp_ldw h1 h2]

/-- A read that is not free is exact and changes nothing. -/
theorem busRead_exact {s : State} {off : Nat} (h : readIsFree s off = false) :
    busRead s off = exactRead s off ∧ afterRead s off = s := by
  rw [busRead, afterRead, h]
  exact ⟨rfl, rfl⟩

theorem readIsFree_idle {s : State} (h : s.eng = .idle) (off : Nat) : readIsFree s off = false := by
  rw [readIsFree, statusBusy, h]
  rfl

/-- A host read while IDLE records the exact word and changes nothing else (20_memory.md R66). -/
theorem step_ldw_idle {s s' : State} {off : Nat} (h : HostActs s (.ldw off) s') (he : s.eng = .idle)
    (h1 : off % 4 = 0) (h2 : off < 0x04000000) : step s = .next { s' with reads := exactRead s off :: s.reads } := by
  rw [step_ldw h h1 h2]
  obtain ⟨r, q, rfl⟩ := h.environment
  obtain ⟨h3, h4⟩ := busRead_exact (readIsFree_idle (s := { s with host := r, sched := q }) he off)
  rw [h3, h4]
  rfl

/-- Reads of ID to IN_LEN are exact at all times (70_reset_and_hazards.md R167). -/
theorem readIsFree_register (s : State) {off : Nat} (h : off < 0x001C) : readIsFree s off = false := by
  rw [readIsFree, volatileOffset, Bool.and_eq_false_iff]
  refine .inr (decide_eq_false ?_)
  unfold inWindow obufBase
  omega

/-! ### Words -/

theorem toNat_append_bytes (a b c d : Byte) :
    (a ++ b ++ c ++ d : BitVec 32).toNat = d.toNat + 2 ^ 8 * c.toNat + 2 ^ 16 * b.toNat + 2 ^ 24 * a.toNat := by
  rw [BitVec.toNat_append, BitVec.toNat_append, BitVec.toNat_append, ← Nat.shiftLeft_add_eq_or_of_lt d.isLt,
    ← Nat.shiftLeft_add_eq_or_of_lt c.isLt, ← Nat.shiftLeft_add_eq_or_of_lt b.isLt]
  simp only [Nat.shiftLeft_eq]
  omega

/-- The four byte lanes of a word are the word. -/
theorem append_byteLanes (v : Word) : byteLane v 3 ++ byteLane v 2 ++ byteLane v 1 ++ byteLane v 0 = v := by
  apply BitVec.eq_of_toNat_eq
  rw [toNat_append_bytes]
  simp only [byteLane, BitVec.extractLsb'_toNat, Nat.shiftRight_eq_div_pow]
  have := v.isLt
  omega

theorem readWord_writeWord (m : Memory) (a : Nat) (v : Word) : (m.writeWord a v).readWord a = v := by
  simp only [Memory.readWord, Memory.read_writeWord]
  rw [if_pos (by omega), if_pos (by omega), if_pos (by omega), if_pos (by omega)]
  simp only [Nat.add_sub_cancel_left, Nat.sub_self]
  exact append_byteLanes v

theorem toNat_alphaWord (e : AlphaEntry) : (alphaWord e).toNat = 256 * e.len.toNat + e.sym.toNat := by
  rw [alphaWord, BitVec.toNat_append, BitVec.toNat_append, ← Nat.shiftLeft_add_eq_or_of_lt e.sym.isLt,
    ← Nat.shiftLeft_add_eq_or_of_lt e.len.isLt]
  have h0 : (0 : BitVec 16).toNat = 0 := rfl
  simp only [Nat.shiftLeft_eq]
  omega

/-! ### Runs -/

theorem core_run_succ (M : Host.Core) (k : Nat) {s t : M.State} (h : M.step s = .next t) :
    M.run (k + 1) s = M.run k t := by
  conv_lhs => unfold Host.Core.run
  rw [h]

theorem core_run_succ_fault (M : Host.Core) (k : Nat) {s : M.State} {f : M.Fault} (h : M.run (k + 1) s = .fault f) :
    M.step s = .fault f ∨ ∃ t, M.step s = .next t ∧ M.run k t = .fault f := by
  unfold Host.Core.run at h
  split at h
  · rename_i t ht
    exact .inr ⟨t, ht, h⟩
  · rename_i r hr
    simp only [Host.Outcome.fault.injEq] at h
    exact .inl (h ▸ hr)
  · simp at h

/-- A run's first step. -/
theorem run_succ {k : Nat} {s t : State} (h : step s = .next t) :
    Host.Core.run Sys2Proof.core (k + 1) s = Host.Core.run Sys2Proof.core k t := core_run_succ _ k h

/-- A run that faults does so in its first step or later. -/
theorem run_succ_fault {k : Nat} {s : State} {f : Fault} (h : Host.Core.run Sys2Proof.core (k + 1) s = .fault f) :
    step s = .fault f ∨ ∃ t, step s = .next t ∧ Host.Core.run Sys2Proof.core k t = .fault f :=
  core_run_succ_fault Sys2Proof.core k h

/-! ### Windows -/

theorem entryIndex_eq {base stride : Nat} (b : Byte) {j : Nat} (hj : j < stride) :
    entryIndex base stride (base + stride * b.toNat + j) = b := by
  have : (base + stride * b.toNat + j - base) / stride = b.toNat := by
    rw [show base + stride * b.toNat + j - base = j + stride * b.toNat by omega, Nat.add_mul_div_left _ _ (by omega),
      Nat.div_eq_of_lt hj, Nat.zero_add]
  rw [entryIndex, this]
  simp

theorem exactRead_register {s : State} {off : Nat} (h : off < 0x0400) : exactRead s off = readRegister s off := by
  rw [exactRead, if_pos h]

theorem readRegister_reserved {s : State} {off : Nat} (h : 0x0038 ≤ off) : readRegister s off = 0 := by
  unfold readRegister
  iterate 14 rw [if_neg (by omega)]

/-- What the registers read (10_state.md R23 to R25, R27, R34 to R41). -/
theorem exactRead_registers (s : State) :
    exactRead s 0x0000 = idWord ∧ exactRead s 0x0004 = paramWord ∧ exactRead s 0x0008 = BitVec.ofNat 32 s.bufBytes ∧
      exactRead s 0x0010 = 0 ∧ exactRead s 0x0018 = s.inLen ∧ exactRead s 0x001C = s.outLen ∧
      exactRead s 0x0020 = s.errInfo ∧ exactRead s 0x0024 = s.alphaN.setWidth 32 ∧
      exactRead s 0x0028 = s.maxLen.setWidth 32 ∧ exactRead s 0x002C = s.pad.setWidth 32 ∧
      exactRead s 0x0030 = s.payOff ∧ exactRead s 0x0034 = s.payBits :=
  ⟨rfl, rfl, rfl, rfl, rfl, rfl, rfl, rfl, rfl, rfl, rfl, rfl⟩

theorem exactRead_freq (s : State) (b : Byte) : exactRead s (0x0400 + 4 * b.toNat) = tableAt s.freq b := by
  have := b.isLt
  have he : entryIndex 0x0400 4 (0x0400 + 4 * b.toNat) = b := entryIndex_eq (j := 0) b (by decide)
  rw [exactRead, if_neg (by omega), if_pos (by constructor <;> omega), he]

theorem exactRead_len (s : State) (b : Byte) : exactRead s (0x0800 + 4 * b.toNat) = (tableAt s.len b).setWidth 32 := by
  have := b.isLt
  have he : entryIndex 0x0800 4 (0x0800 + 4 * b.toNat) = b := entryIndex_eq (j := 0) b (by decide)
  rw [exactRead, if_neg (by omega), if_neg (by unfold inWindow; omega), if_pos (by unfold inWindow; omega), he]

theorem exactRead_alpha (s : State) (b : Byte) : exactRead s (0x0C00 + 4 * b.toNat) = alphaWord (tableAt s.alpha b) := by
  have := b.isLt
  have he : entryIndex 0x0C00 4 (0x0C00 + 4 * b.toNat) = b := entryIndex_eq (j := 0) b (by decide)
  rw [exactRead, if_neg (by omega), if_neg (by unfold inWindow; omega), if_neg (by unfold inWindow; omega),
    if_pos (by unfold inWindow; omega), he]

theorem exactRead_code (s : State) (b : Byte) {j : Nat} (hj : j < 4) :
    exactRead s (0x1000 + 16 * b.toNat + 4 * j) = (tableAt s.code b).extractLsb' (32 * j) 32 := by
  have := b.isLt
  have he : entryIndex 0x1000 16 (0x1000 + 16 * b.toNat + 4 * j) = b := entryIndex_eq (j := 4 * j) b (by omega)
  rw [exactRead, if_neg (by omega), if_neg (by unfold inWindow; omega), if_neg (by unfold inWindow; omega),
    if_neg (by unfold inWindow; omega), if_pos (by unfold inWindow; omega), he]
  congr 2
  omega

/-- Every ALPHA word has bits 31:16 zero. -/
theorem exactRead_alpha_lt {s : State} {off : Nat} (h1 : 0x0C00 ≤ off) (h2 : off < 0x1000) :
    (exactRead s off).toNat < 2 ^ 16 := by
  rw [exactRead, if_neg (by omega), if_neg (by unfold inWindow; omega), if_neg (by unfold inWindow; omega),
    if_pos (by unfold inWindow; omega), toNat_alphaWord]
  have h3 := (tableAt s.alpha (entryIndex 0x0C00 4 off)).len.isLt
  have h4 := (tableAt s.alpha (entryIndex 0x0C00 4 off)).sym.isLt
  omega

theorem exactRead_ibuf {s : State} {k : Nat} (h : 4 * k < s.bufBytes) :
    exactRead s (0x01000000 + 4 * k) = s.ibuf.readWord (4 * k) := by
  rw [exactRead, if_neg (by omega), if_neg (by unfold inWindow; omega), if_neg (by unfold inWindow; omega),
    if_neg (by unfold inWindow; omega), if_neg (by unfold inWindow; omega),
    if_pos (by unfold inWindow ibufBase; omega), Nat.add_sub_cancel_left]

theorem exactRead_obuf {s : State} {k : Nat} (hs : s.bufBytes ≤ 2 ^ 24) (h : 4 * k < s.bufBytes) :
    exactRead s (0x02000000 + 4 * k) = s.obuf.readWord (4 * k) := by
  rw [exactRead, if_neg (by omega), if_neg (by unfold inWindow; omega), if_neg (by unfold inWindow; omega),
    if_neg (by unfold inWindow; omega), if_neg (by unfold inWindow; omega),
    if_neg (by unfold inWindow ibufBase; omega), if_pos (by unfold inWindow obufBase; omega), Nat.add_sub_cancel_left]

/-- Reserved offsets read 0 (20_memory.md R57). -/
theorem exactRead_reserved {s : State} {off : Nat} (hs : s.bufBytes ≤ 2 ^ 24)
    (h : (0x0038 ≤ off ∧ off < 0x0400) ∨ (0x2000 ≤ off ∧ off < 0x01000000) ∨ 0x03000000 ≤ off ∨
      (0x01000000 + s.bufBytes ≤ off ∧ off < 0x02000000) ∨ (0x02000000 + s.bufBytes ≤ off)) :
    exactRead s off = 0 := by
  by_cases hr : off < 0x0400
  · rw [exactRead_register hr, readRegister_reserved (by omega)]
  · rw [exactRead, if_neg hr, if_neg (by unfold inWindow; omega), if_neg (by unfold inWindow; omega),
      if_neg (by unfold inWindow; omega), if_neg (by unfold inWindow; omega),
      if_neg (by unfold inWindow ibufBase; omega), if_neg (by unfold inWindow obufBase; omega)]

/-! ### STATUS -/

/-- The fields of the STATUS word (10_state.md R28). -/
theorem statusWord_fields (s : State) :
    (statusWord s)[0] = statusBusy s ∧ (statusWord s)[1] = s.done ∧ (statusWord s)[2] = statusErr s ∧
      (statusWord s)[3] = s.ovr ∧ (statusWord s).extractLsb' 4 4 = 0 ∧
      (statusWord s).extractLsb' 8 4 = codeNumber s.statusCode ∧ (statusWord s).extractLsb' 12 20 = 0 := by
  unfold statusWord
  generalize statusBusy s = a
  generalize s.done = b
  generalize statusErr s = c
  generalize s.ovr = d
  generalize s.statusCode = e
  cases a <;> cases b <;> cases c <;> cases d <;> cases e <;> decide

theorem statusErr_eq (s : State) : statusErr s = decide (s.statusCode ≠ .ok) := by
  unfold statusErr
  cases s.statusCode <;> rfl

/-! ### Waits -/

/-- A poll of STATUS sees BUSY (30_encoding.md R85, WAIT). -/
theorem busRead_status_busy (s : State) : (busRead s 0x0014).getLsbD 0 = decide (s.eng = .busy) := by
  rw [(busRead_exact (readIsFree_register s (by decide))).1]
  exact (statusWord_fields s).1

/-- The step of a WAIT: it ends at the first poll that finds BUSY 0 (30_encoding.md R85). -/
theorem step_wait {s s' : State} (h : HostActs s .wait s') :
    step s = .next (if s.eng = .busy then { s' with host := .wait :: s'.host } else s') := by
  have he : s'.eng = s.eng := by obtain ⟨r, q, rfl⟩ := h.environment; rfl
  rw [step_host h, runHostOp]
  by_cases hb : s.eng = .busy
  · rw [if_pos (by rw [busRead_status_busy, he, hb]; rfl), if_pos hb]
  · rw [if_neg (by rw [busRead_status_busy, he, decide_eq_true_eq]; exact hb), if_neg hb]

/-- The step of a wait for the interrupt: it ends at the first that finds IRQ 1 (70_reset_and_hazards.md R168). -/
theorem step_waitIrq {s s' : State} (h : HostActs s .waitIrq s') :
    step s = .next (if irq s = true then s' else { s' with host := .waitIrq :: s'.host }) := by
  have he : irq s' = irq s := by obtain ⟨r, q, rfl⟩ := h.environment; rfl
  rw [step_host h, runHostOp, he]
  by_cases hi : irq s = true
  · rw [if_pos hi, if_pos hi]
  · rw [if_neg hi, if_neg hi]

end Sys2Proof.Machine
end

