-- ==== Sys2Proof/Laws/Composite.lean ====
section
/-! SUPPORT. The laws of the composite commands: the frequencies of an input, what ENCODE's table stages leave, and
what DECODE makes of a container. -/

namespace Sys2Proof.Machine

/-! ### Frequencies -/

theorem count_allSymbols (b : Byte) : allSymbols.count b = 1 :=
  List.count_eq_one_of_mem nodup_allSymbols (mem_allSymbols b)

theorem sum_indicator (x : Byte) (l : List Byte) : (l.map fun b => if x == b then 1 else 0).sum = l.count x := by
  induction l with
  | nil => rfl
  | cons b l ih =>
    rw [List.map_cons, List.sum_cons, ih, List.count_cons, Nat.add_comm]
    congr 1
    by_cases h : x = b
    · simp [h]
    · simp [h, Ne.symm h]

theorem sum_map_add_nat (l : List Byte) (f g : Byte → Nat) :
    (l.map fun b => f b + g b).sum = (l.map f).sum + (l.map g).sum := by
  induction l with
  | nil => rfl
  | cons b l ih => simp only [List.map_cons, List.sum_cons, ih]; omega

/-- The counts of all symbols sum to the length. -/
theorem sum_count (input : List Byte) : (allSymbols.map fun b => input.count b).sum = input.length := by
  induction input with
  | nil => simp
  | cons x xs ih =>
    have : (fun b => (x :: xs).count b) = fun b => xs.count b + (if x == b then 1 else 0) := by
      funext b
      rw [List.count_cons]
    rw [this, sum_map_add_nat, ih, sum_indicator, count_allSymbols]
    rfl

theorem toNat_countTable {input : List Byte} (h : input.length < 2 ^ 32) (b : Byte) :
    (tableAt (countTable input) b).toNat = input.count b := by
  rw [countTable, tableAt_tableOf, BitVec.toNat_ofNat, Nat.mod_eq_of_lt]
  have : input.count b ≤ input.length := List.count_le_length
  omega

/-- The frequencies of an input sum to its length (40_frequency.md R89). -/
theorem freqSum_countTable {input : List Byte} (h : input.length < 2 ^ 32) :
    freqSum (countTable input) = input.length := by
  rw [← sum_count input, freqSum]
  exact congrArg List.sum (List.map_congr_left fun b _ => toNat_countTable h b)

theorem mem_presentSymbols_countTable {input : List Byte} (h : input.length < 2 ^ 32) {b : Byte} :
    b ∈ presentSymbols (countTable input) ↔ b ∈ input := by
  rw [mem_presentSymbols, ← List.count_pos_iff, ← toNat_countTable h]
  constructor
  · intro hne
    exact Nat.pos_of_ne_zero fun h0 => hne (BitVec.eq_of_toNat_eq (by simpa using h0))
  · intro hp h0
    simp [h0] at hp

/-- The present symbols of an input are its distinct bytes. -/
theorem length_presentSymbols_countTable {input : List Byte} (h : input.length < 2 ^ 32) :
    (presentSymbols (countTable input)).length = distinctCount input := by
  refine List.Perm.length_eq ((List.perm_ext_iff_of_nodup (nodup_presentSymbols _) (List.nodup_dedup _)).2 fun b => ?_)
  rw [mem_presentSymbols_countTable h, List.mem_dedup]

@[simp] theorem length_inputBytes (s : State) : (inputBytes s).length = s.inLen.toNat := by simp [inputBytes]

theorem length_inputBytes_lt (s : State) : (inputBytes s).length < 2 ^ 32 := by
  rw [length_inputBytes]
  exact s.inLen.isLt

/-! ### ENCODE -/

/-- The state after ENCODE's table stages on a nonempty input. -/
def encodedTables (s : State) (L : Table Byte) (codes : List Nat) : State :=
  installCode (lenPairs L) codes { clearCode { s with freq := countTable (inputBytes s) } with len := L }

theorem canonicalAlphabet_lenPairs {len : Table Byte} {codes : List Nat} (h : canonAssign (lenPairs len) = .ok codes) :
    CanonicalAlphabet (lenPairs len) := by
  refine ⟨pairwise_lenPairs _, nodup_sym_lenPairs _, fun e he => ⟨len_pos_of_mem_lenPairs he, ?_⟩⟩
  exact ((canonAssign_ok_iff (pairwise_lenPairs len)).1 ⟨codes, h⟩).1 e he

theorem buildLengths_countTable {input : List Byte} (hne : input ≠ []) (hl : input.length ≤ 2 ^ 24) :
    ∃ L codes, buildLengths (countTable input) = .ok L ∧ canonAssign (lenPairs L) = .ok codes ∧ lenPairs L ≠ [] ∧
      ((lenPairs L).map (·.sym)).Perm (presentSymbols (countTable input)) := by
  have h32 : input.length < 2 ^ 32 := by omega
  have hp : presentSymbols (countTable input) ≠ [] := by
    obtain ⟨b, hb⟩ := List.exists_mem_of_ne_nil _ hne
    exact List.ne_nil_of_mem ((mem_presentSymbols_countTable h32).2 hb)
  obtain ⟨L, hL⟩ := buildLengths_isOk hp (by rw [freqSum_countTable h32]; exact hl)
  obtain ⟨codes, hc⟩ := canonAssign_buildLengths hL
  have hperm := perm_sym_lenPairs hL
  refine ⟨L, codes, hL, hc, fun h0 => hp ?_, hperm⟩
  rw [h0] at hperm
  simpa using hperm

/-- ENCODE of a nonempty input is SERIALIZE after the table stages, which succeed. -/
theorem encodeStages_nonempty {s : State} (hb : s.bufBytes ≤ 2 ^ 24) (h1 : s.inLen ≠ 0)
    (h2 : s.inLen.toNat ≤ s.bufBytes) :
    ∃ L codes, buildLengths (countTable (inputBytes s)) = .ok L ∧ canonAssign (lenPairs L) = .ok codes ∧
      lenPairs L ≠ [] ∧ ((lenPairs L).map (·.sym)).Perm (presentSymbols (countTable (inputBytes s))) ∧
      encodeStages s = serializeStage (encodedTables s L codes) := by
  have hne : inputBytes s ≠ [] := by
    intro h0
    have := congrArg List.length h0
    rw [length_inputBytes] at this
    exact h1 (BitVec.eq_of_toNat_eq (by simpa using this))
  obtain ⟨L, codes, hL, hc, hn, hp⟩ := buildLengths_countTable hne (by rw [length_inputBytes]; omega)
  refine ⟨L, codes, hL, hc, hn, hp, ?_⟩
  have e1 : countStage s = .ok { s with freq := countTable (inputBytes s) } := countStage_ok_iff.2 ⟨h2, rfl⟩
  have e2 : buildStage { s with freq := countTable (inputBytes s) } =
      .ok { clearCode { s with freq := countTable (inputBytes s) } with len := L } :=
    buildStage_ok_iff.2 ⟨L, hL, rfl⟩
  have e3 : assignStage { clearCode { s with freq := countTable (inputBytes s) } with len := L } =
      .ok (encodedTables s L codes) := assignStage_ok_iff.2 ⟨hn, codes, hc, rfl⟩
  rw [encodeStages, e1]
  show thenStage (encodeTables { s with freq := countTable (inputBytes s) }) serializeStage = _
  rw [encodeTables, if_neg h1, e2]
  show thenStage (assignStage _) serializeStage = _
  rw [e3]
  rfl

theorem holdsCode_encodedTables {s : State} {L : Table Byte} {codes : List Nat}
    (hc : canonAssign (lenPairs L) = .ok codes) (hn : lenPairs L ≠ []) :
    HoldsCode (encodedTables s L codes) (lenPairs L) codes :=
  holdsCode_installCode hn (canonicalAlphabet_lenPairs hc) hc fun _ he => (mem_lenPairs.1 he).1.symm

/-- The input's bytes all have a codeword. -/
theorem covered_of_perm {entries : List AlphaEntry} {input : List Byte} (h : input.length < 2 ^ 32)
    (hp : (entries.map (·.sym)).Perm (presentSymbols (countTable input))) : Covered entries input := fun b hb => by
  have : b ∈ entries.map (·.sym) := hp.mem_iff.2 ((mem_presentSymbols_countTable h).2 hb)
  exact List.mem_map.1 this

theorem length_flatMap_wordOf {entries : List AlphaEntry} {code : Table CodeWord} {L : Table Byte}
    (hL : ∀ e ∈ entries, e.len = tableAt L e.sym) {text : List Byte} (hc : Covered entries text) :
    (text.flatMap (wordOf entries code)).length = (text.map fun b => (tableAt L b).toNat).sum := by
  induction text with
  | nil => rfl
  | cons b text ih =>
    obtain ⟨e, he, rfl, hw⟩ := wordOf_of_covered (code := code) (hc b List.mem_cons_self)
    rw [List.flatMap_cons, List.length_append, hw, codewordOf, length_bin, List.map_cons, List.sum_cons,
      ih fun c hc' => hc c (List.mem_cons_of_mem _ hc'), hL e he]

theorem alphabet_cleared (s : State) (freq : Table Word) (len : Table Byte) :
    alphabet { clearCode { s with freq := freq } with len := len } = [] := rfl

theorem codeCleared_clearCode (s : State) : CodeCleared (clearCode s) :=
  ⟨rfl, fun k => tableAt_tableOf (fun _ => (⟨0, 0⟩ : AlphaEntry)) k, fun b => tableAt_tableOf (fun _ => (0 : CodeWord)) b,
    rfl⟩

/-- ENCODE of an empty input (45_composite.md R131). -/
theorem encodeStages_empty {s : State} (h : s.inLen = 0) (hb : 2 ≤ s.bufBytes) :
    encodeStages s = .ok (serialized [] { clearCode { s with freq := countTable [] } with len := tableOf fun _ => 0 }) := by
  have hi : inputBytes s = [] := by
    rw [← List.length_eq_zero_iff, length_inputBytes, h]
    rfl
  have e1 : countStage s = .ok { s with freq := countTable [] } :=
    countStage_ok_iff.2 ⟨by rw [h]; exact Nat.zero_le _, by rw [hi]⟩
  rw [encodeStages, e1]
  show thenStage (encodeTables { s with freq := countTable [] }) serializeStage = _
  rw [encodeTables, if_pos h]
  refine serializeStage_ok_iff.2 ⟨?_, ?_, [], ?_, ?_, rfl⟩
  · show s.inLen.toNat ≤ s.bufBytes
    rw [h]
    exact Nat.zero_le _
  · exact Nat.zero_le _
  · show encodeBits _ _ (inputBytes s) = _
    rw [hi]
    rfl
  · rw [alphabet_cleared, length_containerBytes]
    exact hb

/-! ### DECODE -/

theorem alphabet_installContainer {h : Header} {ps : List AlphaEntry} {codes : List Nat} {s : State}
    (hl : ps.length ≤ 256) : alphabet (installContainer h ps codes s) = ps :=
  alphabet_installCode hl codes { s with len := lenTableOf ps }

/-- The payload bits that a parsed container locates. -/
theorem payloadBits_installContainer {h : Header} {ps : List AlphaEntry} {codes : List Nat} {s : State}
    (h1 : 2 + 2 * h.entries.length < 2 ^ 32) (h2 : 8 * h.payloadBytes - h.padding < 2 ^ 32) :
    payloadBits (installContainer h ps codes s) =
      (List.range (8 * h.payloadBytes - h.padding)).map (payloadBit s.ibuf (2 + 2 * h.entries.length)) := by
  show (List.range (BitVec.ofNat 32 (8 * h.payloadBytes - h.padding)).toNat).map
    (payloadBit s.ibuf (BitVec.ofNat 32 (2 + 2 * h.entries.length)).toNat) = _
  rw [BitVec.toNat_ofNat, BitVec.toNat_ofNat, Nat.mod_eq_of_lt h1, Nat.mod_eq_of_lt h2]

theorem payloadInBuffer_installContainer {h : Header} {ps : List AlphaEntry} {codes : List Nat} {s : State}
    (hb : s.bufBytes ≤ 2 ^ 24) (hl : s.inLen.toNat ≤ s.bufBytes)
    (hp : parseHeader s.ibuf s.inLen.toNat = .ok h) : payloadInBuffer (installContainer h ps codes s) = true := by
  have hw := payload_within hp
  have h2 : 8 * h.payloadBytes - h.padding < 2 ^ 32 := by omega
  rw [payloadInBuffer, decide_eq_true_eq]
  show (BitVec.ofNat 32 (2 + 2 * h.entries.length)).toNat +
    ((BitVec.ofNat 32 (8 * h.payloadBytes - h.padding)).toNat + 7) / 8 ≤ s.bufBytes
  rw [BitVec.toNat_ofNat, BitVec.toNat_ofNat, Nat.mod_eq_of_lt h2, Nat.mod_eq_of_lt (by omega)]
  omega

/-- DESERIALIZE of a container of a canonical alphabet. -/
theorem deserializeStage_container {s : State} {es : List AlphaEntry} {codes : List Nat} {bits : BitStr}
    (hn : es.length ≤ 128) (hs : s.inLen.toNat = (containerBytes es bits).length) (hl : s.inLen.toNat ≤ s.bufBytes)
    (hm : HoldsContainer s.ibuf es bits) (hc : CanonicalAlphabet es) (ha : canonAssign es = .ok codes) :
    deserializeStage s =
      .ok (installContainer ⟨paddingCount bits.length, es, (bits.length + 7) / 8⟩ es codes s) :=
  deserializeStage_ok_iff.2 ⟨hl, _, es, codes, by rw [hs]; exact hm.parseHeader hn, checkTable_canonical hc ha, rfl⟩

theorem payloadBits_container {s : State} {es : List AlphaEntry} {codes : List Nat} {bits : BitStr}
    (hn : es.length ≤ 128) (hb : s.bufBytes ≤ 2 ^ 24) (hs : s.inLen.toNat = (containerBytes es bits).length)
    (hl : s.inLen.toNat ≤ s.bufBytes) (hm : HoldsContainer s.ibuf es bits) :
    payloadBits (installContainer ⟨paddingCount bits.length, es, (bits.length + 7) / 8⟩ es codes s) = bits := by
  have hlen := length_containerBytes es bits
  rw [payloadBits_installContainer (by simp only; omega) (by simp only; omega)]
  exact hm.payload

/-- DECODE of a container of a canonical alphabet whose payload is the codewords of `text` gives `text`. -/
theorem decodeStages_container {s : State} {es : List AlphaEntry} {codes : List Nat} {text : List Byte}
    (hn : es.length ≤ 128) (hb : s.bufBytes ≤ 2 ^ 24) (hc : CanonicalAlphabet es) (ha : canonAssign es = .ok codes)
    (hcov : Covered es text) (ht : text.length ≤ s.bufBytes)
    (hs : s.inLen.toNat = (containerBytes es (text.flatMap (wordOf es (codeTableOf es codes)))).length)
    (hl : s.inLen.toNat ≤ s.bufBytes)
    (hm : HoldsContainer s.ibuf es (text.flatMap (wordOf es (codeTableOf es codes)))) :
    ∃ h, decodeStages s = .ok (storeOutput text (installContainer h es codes s)) := by
  refine ⟨⟨paddingCount (text.flatMap (wordOf es (codeTableOf es codes))).length, es,
    ((text.flatMap (wordOf es (codeTableOf es codes))).length + 7) / 8⟩,
    thenStage_ok_iff.2 ⟨_, deserializeStage_container hn hs hl hm hc ha, ?_⟩⟩
  refine matchStage_ok_iff.2 ⟨text, ?_, rfl⟩
  rw [payloadBits_container hn hb hs hl hm, alphabet_installContainer (by omega)]
  refine matchAll_encoded ?_ hcov ht
  refine prefixCode_of_values hc ha fun p hp => ?_
  obtain ⟨i, hi, hpi⟩ := List.mem_iff_getElem.1 hp
  have hi1 : i < es.length := by simp only [List.length_zip] at hi; omega
  have hi2 : i < codes.length := by simp only [List.length_zip] at hi; omega
  have hv := canonAssign_values hc.1 ha i hi1
  show (tableAt (codeTableOf es codes) p.1.sym).toNat = p.2
  rw [tableAt_codeTableOf hc.2.1 hp, BitVec.toNat_ofNat, Nat.mod_eq_of_lt]
  have hp2 : p.2 = codes.getD i 0 := by rw [← hpi, List.getElem_zip, List.getD_eq_getElem _ _ hi2]
  rw [hp2]
  exact hv.2.1.trans_le (Nat.pow_le_pow_right (by decide) (by omega))

/-! ### Agreement of states -/

theorem inputBytes_congr {s t : State} (h1 : t.ibuf = s.ibuf) (h2 : t.inLen = s.inLen) :
    inputBytes t = inputBytes s := by
  rw [inputBytes, inputBytes, h1, h2]

theorem alphabet_congr {s t : State} (h1 : t.alpha = s.alpha) (h2 : t.alphaN = s.alphaN) :
    alphabet t = alphabet s := by
  rw [alphabet, alphabet, h1, h2]

theorem inLen_ne_zero {s : State} (h : 1 ≤ s.inLen.toNat) : s.inLen ≠ 0 := by
  intro h0; rw [h0] at h; simp at h

/-- SERIALIZE's outcome is a function of what it reads. -/
theorem serializeStage_congr {x y : State} (h1 : y.bufBytes = x.bufBytes) (h2 : y.inLen = x.inLen)
    (h3 : y.alphaN = x.alphaN) (h4 : alphabet y = alphabet x) (h5 : y.code = x.code)
    (h6 : inputBytes y = inputBytes x) :
    (∃ f, serializeStage x = .error f ∧ serializeStage y = .error f) ∨
    (∃ bits, serializeStage x = .ok (serialized bits x) ∧ serializeStage y = .ok (serialized bits y)) := by
  cases hx : serializeStage x with
  | error f =>
    refine .inl ⟨f, rfl, ?_⟩
    rw [serializeStage_error_iff] at hx ⊢
    rw [h1, h2, h3, h4, h5, h6]; exact hx
  | ok t =>
    obtain ⟨a, b, bits, c, d, rfl⟩ := serializeStage_ok_iff.1 hx
    exact .inr ⟨bits, rfl, serializeStage_ok_iff.2
      ⟨by rw [h1, h2]; exact a, by rw [h3]; exact b, bits, by rw [h4, h5, h6]; exact c,
        by rw [h4, h1]; exact d, rfl⟩⟩

theorem packBytes_replicate_false (n : Nat) :
    packBytes (List.replicate (8 * n) false) = List.replicate n 0 := by
  induction n with
  | zero => rfl
  | succ n ih =>
    rw [show 8 * (n + 1) = 8 * n + 1 + 1 + 1 + 1 + 1 + 1 + 1 + 1 by omega]
    simp only [List.replicate_succ]
    rw [packBytes, ih]; rfl

/-- A payload of zero bits packs to zero bytes. -/
theorem packPayload_replicate_false (n : Nat) :
    packPayload (List.replicate n false) = List.replicate ((n + 7) / 8) 0 := by
  rw [packPayload, List.length_replicate, List.replicate_append_replicate]
  have : n + paddingCount n = 8 * ((n + 7) / 8) := by unfold paddingCount; omega
  rw [this, packBytes_replicate_false]

end Sys2Proof.Machine
end

