-- ==== Sys2Proof/Laws/Invariant.lean ====
section
/-! SUPPORT. What each stage, each completion and each host operation does to the invariant, piece by piece. -/

namespace Sys2Proof.Machine

/-- The part of the invariant that the commands' pseudocode keeps: all of it but the clauses about BUSY and ERR_INFO. -/
structure Steady (s : State) : Prop where
  admitted : bufBytesAdmitted s.bufBytes = true
  tables : TablesCoherent s
  lengths : LengthsFit s
  payload : payloadInBuffer s = true
  freq : FrequenciesBounded s
  ibuf : s.ibuf.wf ∧ s.ibuf.within s.bufBytes
  output : OutputHeld s
  drawn : s.ibuf.draw < s.draws ∧ s.obuf.draw < s.draws ∧ s.ibuf.draw ≠ s.obuf.draw

theorem Inv.steady {s : State} (h : Inv s) : Steady s :=
  ⟨h.admitted, h.tables, h.lengths, h.payload, h.freq, h.ibuf, h.output, h.drawn⟩

theorem Steady.inv {s : State} (h : Steady s) (hb : s.eng = .busy → s.done = false ∧ s.statusCode = .ok)
    (he : s.eng = .idle → s.statusCode = .ok → s.errInfo = 0) : Inv s :=
  ⟨h.admitted, h.tables, h.lengths, h.payload, h.freq, h.ibuf, h.output, h.drawn, hb, he⟩

theorem Steady.bufBytes_le {s : State} (h : Steady s) : s.bufBytes ≤ 2 ^ 24 := (bufBytesAdmitted_iff.1 h.admitted).2.2

theorem Steady.bufBytes_ge {s : State} (h : Steady s) : 512 ≤ s.bufBytes := (bufBytesAdmitted_iff.1 h.admitted).2.1

/-! ### Table coherence, stage by stage -/

/-- Coherence looks only at the code's tables. -/
theorem coherent_congr {s t : State} (h : TablesCoherent s) (h1 : t.len = s.len) (h2 : t.alpha = s.alpha)
    (h3 : t.alphaN = s.alphaN) (h4 : t.code = s.code) (h5 : t.maxLen = s.maxLen) : TablesCoherent t := by
  unfold TablesCoherent CodeCleared HoldsCode at *
  rw [h1, h2, h3, h4, h5]
  exact h

theorem codeCleared_of_empty {h : Header} {codes : List Nat} {s : State} :
    CodeCleared (installContainer h [] codes s) := by
  refine ⟨rfl, fun k => ?_, fun b => ?_, rfl⟩
  · show tableAt (alphaTableOf []) k = _
    rw [alphaTableOf, tableAt_tableOf]
    rfl
  · show tableAt (codeTableOf [] codes) b = 0
    exact tableAt_codeTableOf_none (by simp)

theorem coherent_buildStage {s t : State} (h : buildStage s = .ok t) : TablesCoherent t := by
  obtain ⟨L, -, rfl⟩ := buildStage_ok_iff.1 h
  have hc := codeCleared_clearCode s
  exact .inl ⟨hc.1, hc.2.1, hc.2.2.1, hc.2.2.2⟩

theorem coherent_assignStage {s t : State} (h : assignStage s = .ok t) : TablesCoherent t := by
  obtain ⟨hne, codes, hc, rfl⟩ := assignStage_ok_iff.1 h
  exact .inr ⟨_, codes, holdsCode_installCode hne (canonicalAlphabet_lenPairs hc) hc
    fun e he => (mem_lenPairs.1 he).1.symm⟩

theorem coherent_deserializeStage {s t : State} (h : deserializeStage s = .ok t) : TablesCoherent t := by
  obtain ⟨-, hd, ps, codes, -, hc, rfl⟩ := deserializeStage_ok_iff.1 h
  obtain ⟨hg, rfl, ha⟩ := checkTable_ok_iff.1 hc
  by_cases hne : sortLS hd.entries = []
  · rw [hne]
    exact .inl codeCleared_of_empty
  · exact .inr ⟨_, codes, holdsCode_installContainer hne (canonicalAlphabet_sortLS hg) ha⟩

theorem coherent_encodeTables {s t : State} (h : encodeTables s = .ok t) : TablesCoherent t := by
  rw [encodeTables] at h
  split at h
  · simp only [Except.ok.injEq] at h
    subst h
    have hc := codeCleared_clearCode s
    exact .inl ⟨hc.1, hc.2.1, hc.2.2.1, hc.2.2.2⟩
  · obtain ⟨u, -, h2⟩ := thenStage_ok_iff.1 h
    exact coherent_assignStage h2

/-- Every command's pseudocode keeps the tables coherent (10_state.md R52). -/
theorem coherent_stageOf {i : Instr} {s t : State} (hs : TablesCoherent s) (h : stageOf i s = .ok t) :
    TablesCoherent t := by
  cases i with
  | nop => simp only [stageOf, Except.ok.injEq] at h; exact h ▸ hs
  | count =>
    obtain ⟨-, rfl⟩ := countStage_ok_iff.1 h
    exact coherent_congr hs rfl rfl rfl rfl rfl
  | build => exact coherent_buildStage h
  | assign => exact coherent_assignStage h
  | serialize =>
    obtain ⟨-, -, bits, -, -, rfl⟩ := serializeStage_ok_iff.1 h
    exact coherent_congr hs (by simp) (by simp) (by simp) (by simp) (by simp)
  | deserialize => exact coherent_deserializeStage h
  | matchBits =>
    obtain ⟨out, -, rfl⟩ := matchStage_ok_iff.1 h
    exact coherent_congr hs rfl rfl rfl rfl rfl
  | encode =>
    obtain ⟨u, h1, h2⟩ := thenStage_ok_iff.1 h
    obtain ⟨v, -, h4⟩ := thenStage_ok_iff.1 h1
    obtain ⟨-, -, bits, -, -, rfl⟩ := serializeStage_ok_iff.1 h2
    exact coherent_congr (coherent_encodeTables h4) (by simp) (by simp) (by simp) (by simp) (by simp)
  | decode =>
    obtain ⟨u, h1, h2⟩ := thenStage_ok_iff.1 h
    obtain ⟨out, -, rfl⟩ := matchStage_ok_iff.1 h2
    exact coherent_congr (coherent_deserializeStage h1) rfl rfl rfl rfl rfl

/-! ### The steady part, stage by stage -/

theorem outputHeld_storeOutput {s : State} {out : List Byte} (hb : s.bufBytes ≤ 2 ^ 24) (hl : out.length ≤ s.bufBytes) :
    OutputHeld (storeOutput out s) := by
  refine ⟨out, rfl, ?_, hl⟩
  show (BitVec.ofNat 32 out.length).toNat = out.length
  rw [BitVec.toNat_ofNat, Nat.mod_eq_of_lt (by omega)]

/-- Storing an output keeps the steady part. -/
theorem Steady.storeOutput {s : State} (h : Steady s) {out : List Byte} (hl : out.length ≤ s.bufBytes) (pad : BitVec 3) :
    Steady { Machine.storeOutput out s with pad := pad } := by
  obtain ⟨out', h1, h2, h3⟩ := outputHeld_storeOutput (s := s) h.bufBytes_le hl
  refine ⟨h.admitted, coherent_congr h.tables rfl rfl rfl rfl rfl, h.lengths, h.payload, h.freq, h.ibuf,
    ⟨out', h1, h2, h3⟩, ?_⟩
  have hd := h.drawn
  show s.ibuf.draw < s.draws + 1 ∧ s.draws < s.draws + 1 ∧ s.ibuf.draw ≠ s.draws
  omega

theorem Steady.discardOutput {s : State} (h : Steady s) : Steady (Machine.discardOutput s) := by
  refine ⟨h.admitted, coherent_congr h.tables rfl rfl rfl rfl rfl, h.lengths, h.payload, h.freq, h.ibuf,
    ⟨[], rfl, rfl, Nat.zero_le _⟩, ?_⟩
  have hd := h.drawn
  show s.ibuf.draw < s.draws + 1 ∧ s.draws < s.draws + 1 ∧ s.ibuf.draw ≠ s.draws
  omega

theorem Steady.withFreq {s : State} (hs : Steady s) (freq : Table Word) (hf : freqSum freq ≤ s.bufBytes) :
    Steady { s with freq := freq } :=
  ⟨hs.admitted, coherent_congr hs.tables rfl rfl rfl rfl rfl, hs.lengths, hs.payload, hf, hs.ibuf, hs.output, hs.drawn⟩

theorem steady_countStage {s t : State} (hs : Steady s) (h : countStage s = .ok t) : Steady t := by
  obtain ⟨hl, rfl⟩ := countStage_ok_iff.1 h
  refine hs.withFreq _ ?_
  rw [freqSum_countTable (length_inputBytes_lt s), length_inputBytes]
  exact hl

theorem steady_buildStage {s t : State} (hs : Steady s) (h : buildStage s = .ok t) : Steady t := by
  have hc := coherent_buildStage h
  obtain ⟨L, hL, rfl⟩ := buildStage_ok_iff.1 h
  exact ⟨hs.admitted, hc, canonAssign_buildLengths hL, hs.payload, hs.freq, hs.ibuf, hs.output, hs.drawn⟩

theorem steady_assignStage {s t : State} (hs : Steady s) (h : assignStage s = .ok t) : Steady t := by
  have hc := coherent_assignStage h
  obtain ⟨-, codes, -, rfl⟩ := assignStage_ok_iff.1 h
  exact ⟨hs.admitted, hc, hs.lengths, hs.payload, hs.freq, hs.ibuf, hs.output, hs.drawn⟩

theorem steady_serializeStage {s t : State} (hs : Steady s) (h : serializeStage s = .ok t) : Steady t := by
  obtain ⟨-, -, bits, -, hl, rfl⟩ := serializeStage_ok_iff.1 h
  exact hs.storeOutput hl _

theorem steady_matchStage {s t : State} (hs : Steady s) (h : matchStage s = .ok t) : Steady t := by
  obtain ⟨out, ho, rfl⟩ := matchStage_ok_iff.1 h
  exact hs.storeOutput (matchAll_length ho) s.pad

theorem steady_deserializeStage {s t : State} (hs : Steady s) (h : deserializeStage s = .ok t) : Steady t := by
  have hco := coherent_deserializeStage h
  obtain ⟨hl, hd, ps, codes, hp, hc, rfl⟩ := deserializeStage_ok_iff.1 h
  obtain ⟨hg, rfl, ha⟩ := checkTable_ok_iff.1 hc
  refine ⟨hs.admitted, hco, ⟨codes, ?_⟩, payloadInBuffer_installContainer hs.bufBytes_le hl hp, hs.freq, hs.ibuf,
    hs.output, hs.drawn⟩
  show canonAssign (lenPairs (lenTableOf (sortLS hd.entries))) = .ok codes
  rw [lenPairs_lenTableOf (canonicalAlphabet_sortLS hg)]
  exact ha

theorem lenPairs_zero : lenPairs (tableOf fun _ => 0) = [] := by
  rw [lenPairs, List.filter_eq_nil_iff.2 fun b _ => by simp]
  rfl

theorem steady_encodeTables {s t : State} (hs : Steady s) (h : encodeTables s = .ok t) : Steady t := by
  have hc := coherent_encodeTables h
  rw [encodeTables] at h
  split at h
  · simp only [Except.ok.injEq] at h
    subst h
    refine ⟨hs.admitted, hc, ⟨[], ?_⟩, hs.payload, hs.freq, hs.ibuf, hs.output, hs.drawn⟩
    show canonAssign (lenPairs (tableOf fun _ => 0)) = .ok []
    rw [lenPairs_zero]
    rfl
  · obtain ⟨u, h1, h2⟩ := thenStage_ok_iff.1 h
    exact steady_assignStage (steady_buildStage hs h1) h2

/-- Every command's pseudocode keeps the steady part. -/
theorem steady_stageOf {i : Instr} {s t : State} (hs : Steady s) (h : stageOf i s = .ok t) : Steady t := by
  cases i with
  | nop => simp only [stageOf, Except.ok.injEq] at h; exact h ▸ hs
  | count => exact steady_countStage hs h
  | build => exact steady_buildStage hs h
  | assign => exact steady_assignStage hs h
  | serialize => exact steady_serializeStage hs h
  | deserialize => exact steady_deserializeStage hs h
  | matchBits => exact steady_matchStage hs h
  | encode =>
    obtain ⟨u, h1, h2⟩ := thenStage_ok_iff.1 h
    obtain ⟨v, h3, h4⟩ := thenStage_ok_iff.1 h1
    exact steady_serializeStage (steady_encodeTables (steady_countStage hs h3) h4) h2
  | decode =>
    obtain ⟨u, h1, h2⟩ := thenStage_ok_iff.1 h
    exact steady_matchStage (steady_deserializeStage hs h1) h2

/-! ### Completions, resets and host operations -/

theorem Steady.complete {s : State} (h : Steady s) (c : Status) (w : Word) (hw : c = .ok → w = 0) :
    Inv (Machine.complete c w s) := by
  refine Steady.inv ⟨h.admitted, coherent_congr h.tables rfl rfl rfl rfl rfl, h.lengths, h.payload, h.freq, h.ibuf,
    h.output, h.drawn⟩ (fun he => ?_) fun _ hc => hw hc
  simp at he

/-- Every command's completion keeps the invariant. -/
theorem inv_exec {i : Instr} {s t : State} (hs : Inv s) (h : exec i s = .next t) : Inv t := by
  have ht := exec_next h
  cases hr : stageOf i s with
  | ok u =>
    rw [ht, hr, completion_ok]
    exact (steady_stageOf hs.steady hr).complete _ _ fun _ => rfl
  | error f =>
    have hne := stageOf_status_ne_ok hr
    rw [ht, hr]
    cases ho : isOutputCommand i with
    | true =>
      rw [completion_error_output ho]
      exact hs.steady.discardOutput.complete _ _ fun hc => absurd hc hne
    | false =>
      rw [completion_error ho]
      exact hs.steady.complete _ _ fun hc => absurd hc hne

theorem inv_completeIllegal {s : State} (hs : Inv s) : Inv (completeIllegal s) :=
  hs.steady.complete _ _ fun hc => by simp at hc

/-- The invariant does not look at the environment. -/
theorem Inv.environment {s : State} (h : Inv s) (host : List HostOp) (reads : List Word) (sched : List Turn) :
    Inv { s with host := host, reads := reads, sched := sched } :=
  ⟨h.admitted, coherent_congr h.tables rfl rfl rfl rfl rfl, h.lengths, h.payload, h.freq, h.ibuf, h.output, h.drawn,
    h.busy, h.errInfo⟩

theorem inv_afterReset {n d : Nat} (h : bufBytesAdmitted n = true) : Inv (State.afterReset n d) := by
  have hlen : lenPairs (Vector.replicate 256 0) = [] := by
    rw [lenPairs, List.filter_eq_nil_iff.2 fun b _ => by simp]
    rfl
  refine ⟨h, .inl ⟨rfl, fun k => tableAt_replicate _ k, fun b => tableAt_replicate _ b, rfl⟩, ⟨[], ?_⟩, ?_, ?_, ?_,
    ⟨[], rfl, rfl, Nat.zero_le _⟩, ?_, fun he => ?_, fun _ _ => rfl⟩
  · show canonAssign (lenPairs (Vector.replicate 256 0)) = .ok []
    rw [hlen]
    rfl
  · rw [payloadInBuffer, decide_eq_true_eq]
    show 0 + (0 + 7) / 8 ≤ n
    omega
  · have : (allSymbols.map fun b => (tableAt (State.afterReset n d).freq b).toNat) = allSymbols.map fun _ => 0 :=
      List.map_congr_left fun b _ => by
        show (tableAt (Vector.replicate 256 (0 : Word)) b).toNat = 0
        rw [tableAt_replicate]
        rfl
    show (allSymbols.map fun b => (tableAt (State.afterReset n d).freq b).toNat).sum ≤ n
    rw [this, List.map_const', List.sum_replicate]
    simp
  · exact ⟨List.Pairwise.nil, fun c hc => absurd hc (by simp [State.afterReset])⟩
  · show d < d + 3 ∧ d + 1 < d + 3 ∧ d ≠ d + 1
    omega
  · simp [State.afterReset] at he

theorem inv_hardReset {s : State} (h : bufBytesAdmitted s.bufBytes = true) : Inv (hardReset s) :=
  (inv_afterReset h).environment s.host s.reads s.sched

theorem inv_softReset {s : State} (h : Inv s) : Inv (softReset s) := by
  have hr := inv_hardReset h.admitted
  refine ⟨hr.admitted, coherent_congr hr.tables rfl rfl rfl rfl rfl, hr.lengths, hr.payload, hr.freq, h.ibuf, hr.output,
    ?_, hr.busy, hr.errInfo⟩
  have hd := h.drawn
  show s.ibuf.draw < s.draws + 3 ∧ s.draws + 1 < s.draws + 3 ∧ s.ibuf.draw ≠ s.draws + 1
  omega

/-- A host write keeps the invariant. -/
theorem inv_busWrite {s : State} (h : Inv s) {off : Nat} (ha : off % 4 = 0) (v : Word) : Inv (busWrite off v s) := by
  rcases busWrite_cases off v s ha with he | he | ⟨b, he⟩ | ⟨hi, he⟩ | ⟨hi, he⟩ | he | ⟨hi, he⟩ | ⟨a, h4, hlt, hi, he⟩ <;>
    rw [he]
  · exact h
  · exact inv_softReset h
  · exact ⟨h.admitted, coherent_congr h.tables rfl rfl rfl rfl rfl, h.lengths, h.payload, h.freq, h.ibuf, h.output,
      h.drawn, h.busy, h.errInfo⟩
  · refine ⟨h.admitted, coherent_congr h.tables rfl rfl rfl rfl rfl, h.lengths, h.payload, h.freq, h.ibuf, h.output,
      h.drawn, fun _ => ⟨rfl, rfl⟩, fun hc => ?_⟩
    simp at hc
  · exact ⟨h.admitted, coherent_congr h.tables rfl rfl rfl rfl rfl, h.lengths, h.payload, h.freq, h.ibuf, h.output,
      h.drawn, h.busy, h.errInfo⟩
  · refine ⟨h.admitted, coherent_congr h.tables rfl rfl rfl rfl rfl, h.lengths, h.payload, h.freq, h.ibuf, h.output,
      h.drawn, fun hc => ⟨?_, (h.busy hc).2⟩, h.errInfo⟩
    simp [(h.busy hc).1]
  · exact ⟨h.admitted, coherent_congr h.tables rfl rfl rfl rfl rfl, h.lengths, h.payload, h.freq, h.ibuf, h.output,
      h.drawn, h.busy, h.errInfo⟩
  · have hb := (bufBytesAdmitted_iff.1 h.admitted).1
    exact ⟨h.admitted, coherent_congr h.tables rfl rfl rfl rfl rfl, h.lengths, h.payload, h.freq,
      ⟨Memory.wf_writeWord h.ibuf.1 a v, Memory.within_writeWord h.ibuf.2 (by omega) v⟩, h.output, h.drawn, h.busy,
      h.errInfo⟩

/-- A host read keeps the invariant. -/
theorem inv_afterRead {s : State} (h : Inv s) (off : Nat) : Inv (afterRead s off) := by
  unfold afterRead
  split
  · refine ⟨h.admitted, coherent_congr h.tables rfl rfl rfl rfl rfl, h.lengths, h.payload, h.freq, h.ibuf, h.output,
      ?_, h.busy, h.errInfo⟩
    have hd := h.drawn
    show s.ibuf.draw < s.draws + 1 ∧ s.obuf.draw < s.draws + 1 ∧ s.ibuf.draw ≠ s.obuf.draw
    omega
  · exact h

/-- A host operation keeps the invariant. -/
theorem inv_runHostOp {op : HostOp} {s t : State} (h : Inv s) (hr : runHostOp op s = .next t) : Inv t := by
  rcases runHostOp_cases hr with ⟨off, v, -, ha, -, rfl⟩ | ⟨off, -, -, -, rfl⟩ | rfl | rfl
  · exact inv_busWrite h ha v
  · have hi := inv_afterRead h off
    exact hi.environment _ _ _
  · exact h
  · exact h.environment _ _ _

theorem Inv.hostActs {s s' : State} {op : HostOp} (h : Inv s) (ha : HostActs s op s') : Inv s' := by
  obtain ⟨rest, -, ⟨turns, -, rfl⟩ | ⟨-, -, rfl⟩⟩ := ha
  · exact h.environment rest s.reads turns
  · exact h.environment rest s.reads s.sched

theorem Inv.engineActs {s s' : State} (h : Inv s) (ha : EngineActs s s') : Inv s' := by
  obtain ⟨-, ⟨turns, -, rfl⟩ | ⟨-, rfl⟩⟩ := ha
  · exact h.environment s.host s.reads turns
  · exact h

end Sys2Proof.Machine
end

