-- ==== Sys2Proof/Laws/PerInstr.lean ====
section
/-! SUPPORT. What holds of each instruction as syntax: one lemma per constructor of Instr. -/

/-- The instruction is well formed, its word is a legal command word equal to its number, and the word decodes to it
(30_encoding.md R72, R73). -/
def Sys2Proof.Laws.Encoding.Statement (i : Sys2Proof.Instr) : Prop :=
  i.wellFormed = true ∧ Sys2Proof.legalCommandWord (Sys2Proof.encode i) = true ∧
    (Sys2Proof.encode i).toNat = (Sys2Proof.opOf i).toNat ∧ Sys2Proof.decode (Sys2Proof.encode i) = .ok i

theorem Sys2Proof.Laws.Encoding.nop : Sys2Proof.Laws.Encoding.Statement .nop := by
  unfold Sys2Proof.Laws.Encoding.Statement; decide
theorem Sys2Proof.Laws.Encoding.count : Sys2Proof.Laws.Encoding.Statement .count := by
  unfold Sys2Proof.Laws.Encoding.Statement; decide
theorem Sys2Proof.Laws.Encoding.build : Sys2Proof.Laws.Encoding.Statement .build := by
  unfold Sys2Proof.Laws.Encoding.Statement; decide
theorem Sys2Proof.Laws.Encoding.assign : Sys2Proof.Laws.Encoding.Statement .assign := by
  unfold Sys2Proof.Laws.Encoding.Statement; decide
theorem Sys2Proof.Laws.Encoding.serialize : Sys2Proof.Laws.Encoding.Statement .serialize := by
  unfold Sys2Proof.Laws.Encoding.Statement; decide
theorem Sys2Proof.Laws.Encoding.deserialize : Sys2Proof.Laws.Encoding.Statement .deserialize := by
  unfold Sys2Proof.Laws.Encoding.Statement; decide
theorem Sys2Proof.Laws.Encoding.matchBits : Sys2Proof.Laws.Encoding.Statement .matchBits := by
  unfold Sys2Proof.Laws.Encoding.Statement; decide
theorem Sys2Proof.Laws.Encoding.encode : Sys2Proof.Laws.Encoding.Statement .encode := by
  unfold Sys2Proof.Laws.Encoding.Statement; decide
theorem Sys2Proof.Laws.Encoding.decode : Sys2Proof.Laws.Encoding.Statement .decode := by
  unfold Sys2Proof.Laws.Encoding.Statement; decide
end

