-- ==== Sys2Proof/Tests/Slice0.lean ====
section
/-! SUPPORT. The model's own tests. Part 1: what is ill formed is refused. Part 2: words written out bit by bit decode
to their commands. Part 3: small tests of each command and of the host interface, with expected results from the
vectors of 95_test_vectors.md (named by their ids). Part 4: for each obligation that has hypotheses, a concrete state
and operands that meet them together. -/

namespace Sys2Proof.Tests
open Sys2Proof Sys2Proof.Machine

set_option Elab.async false

/-! ### Helpers -/

/-- The hard-reset state of an instance with BUF_BYTES = 512, the least admitted value. -/
def start : State := State.afterReset 512 0

/-- `LOAD` (30_encoding.md R86): the bytes at the start of IBUF, IN_LEN their number. -/
def load (bytes : List Byte) (s : State) : State :=
  { s with ibuf := Memory.ofBytes 0 bytes, inLen := BitVec.ofNat 32 bytes.length }

/-- The state a command completes in. -/
def after (i : Instr) (s : State) : State :=
  match exec i s with
  | .next t => t
  | .fault _ => s
  | .refused _ => s

/-- The output, OBUF[0 .. OUT_LEN-1]. -/
def output (s : State) : List Byte := s.obuf.bytes 0 s.outLen.toNat

/-- STATUS and ERR_INFO. -/
def report (s : State) : Word × Word := (statusWord s, s.errInfo)

/-- A table with the given entries changed. -/
def withEntries {α : Type} (t : Table α) (entries : List (Byte × α)) : Table α :=
  entries.foldl (fun t p => t.set p.1.toNat p.2 p.1.isLt) t

/-- A state with the given nonzero frequencies. -/
def counted (freq : List (Byte × Word)) : State := { start with freq := withEntries start.freq freq }

/-- A state with the given nonzero lengths. -/
def measured (len : List (Byte × Byte)) : State := { start with len := withEntries start.len len }

/-- A state with the tables of a code. -/
def coded (ps : List AlphaEntry) (codes : List Nat) : State :=
  { installCode ps codes start with len := lenTableOf ps }

/-- The alphabet of W2. -/
def alphaAB : List AlphaEntry := [⟨0x41, 1⟩, ⟨0x42, 1⟩]

/-- The alphabet of MA3 and MA4. -/
def alphaABC : List AlphaEntry := [⟨0x41, 1⟩, ⟨0x42, 2⟩, ⟨0x43, 2⟩]

/-- The container of W2. -/
def containerAB : List Byte := [0x06, 0x02, 0x01, 0x01, 0x41, 0x42, 0x40]

/-- A state with a payload of `bits` bits at the start of IBUF, and a code's tables. -/
def withPayload (ps : List AlphaEntry) (codes : List Nat) (payload : List Byte) (bits : Nat) : State :=
  { coded ps codes with ibuf := Memory.ofBytes 0 payload, payOff := 0, payBits := BitVec.ofNat 32 bits }

/-- An instance with ENCODE of "AB" issued. -/
def busy : State := issue 0x00000007 (load [0x41, 0x42] start)

/-! ### 1. What is ill formed is refused -/

theorem test_well_formed_word : legalCommandWord 0x00000008 = true := by decide
theorem test_ill_formed_op : legalCommandWord 0x00000009 = false := by decide
theorem test_ill_formed_reserved_bit : legalCommandWord 0x80000007 = false := by decide
theorem test_last_offset : accessibleOffset 0x03FFFFFC = true := by decide
theorem test_misaligned_offset : accessibleOffset 0x00000012 = false := by decide
theorem test_offset_outside_window : accessibleOffset 0x04000000 = false := by decide
theorem test_ill_formed_store : (HostOp.stw 0x00000011 0).wellFormed = false := by decide
theorem test_ill_formed_load : (HostOp.ldw 0x04000000).wellFormed = false := by decide
theorem test_ill_formed_byte_access : (HostOp.oddAccess .byte true 0x01000000).wellFormed = false := by decide
theorem test_ill_formed_program : hostProgramWellFormed [.wait, .ldw 2] = false := by decide
theorem test_buf_bytes_admitted : bufBytesAdmitted 512 = true ∧ bufBytesAdmitted 16777216 = true := by decide
theorem test_buf_bytes_too_small : bufBytesAdmitted 508 = false := by decide
theorem test_buf_bytes_too_large : bufBytesAdmitted 16777220 = false := by decide
theorem test_buf_bytes_no_multiple : bufBytesAdmitted 514 = false := by decide

/-! ### 2. Words written out from the encoding table (30_encoding.md R72) -/

theorem test_decode_nop : decode 0b00000000000000000000000000000000#32 = .ok .nop := by decide
theorem test_decode_count : decode 0b00000000000000000000000000000001#32 = .ok .count := by decide
theorem test_decode_build : decode 0b00000000000000000000000000000010#32 = .ok .build := by decide
theorem test_decode_assign : decode 0b00000000000000000000000000000011#32 = .ok .assign := by decide
theorem test_decode_serialize : decode 0b00000000000000000000000000000100#32 = .ok .serialize := by decide
theorem test_decode_deserialize : decode 0b00000000000000000000000000000101#32 = .ok .deserialize := by decide
theorem test_decode_match : decode 0b00000000000000000000000000000110#32 = .ok .matchBits := by decide
theorem test_decode_encode : decode 0b00000000000000000000000000000111#32 = .ok .encode := by decide
theorem test_decode_decode : decode 0b00000000000000000000000000001000#32 = .ok .decode := by decide
theorem test_decode_op_nine : decode 0b00000000000000000000000000001001#32 = .error .reservedOp := by decide
theorem test_decode_op_fifteen : decode 0b00000000000000000000000000001111#32 = .error .reservedOp := by decide
theorem test_decode_bit_four : decode 0b00000000000000000000000000010000#32 = .error .reservedBits := by decide
theorem test_decode_bit_thirty_one : decode 0b10000000000000000000000000000111#32 = .error .reservedBits := by decide
theorem test_table_word : decodeTableWord 32 6 = some .matchBits ∧ decodeTableWord 32 16 = none := by decide

/-! ### 3. Commands -/

/-- NP1. -/
theorem test_nop : report (after .nop start) = (0x00000002, 0) := by decide +kernel
/-- CT1. -/
theorem test_count : [0x41, 0x42, 0x43].map (tableAt (after .count (load [0x41, 0x42, 0x42] start)).freq) = [1, 2, 0] := by
  decide +kernel
/-- CT4, for BUF_BYTES = 512. -/
theorem test_count_bad_length : report (after .count { start with inLen := 513 }) = (0x00000A06, 513) := by
  decide +kernel
/-- BL2: the tie case of 41_tree_builder.md R97. -/
theorem test_build_tie : [0x61, 0x62, 0x63, 0x64].map
      (tableAt (after .build (counted [(0x61, 1), (0x62, 1), (0x63, 2), (0x64, 2)])).len) = [2, 2, 2, 2] := by
  decide +kernel
/-- AS3. -/
theorem test_assign : [0x01, 0x20, 0x05, 0x10].map
      (tableAt (after .assign (measured [(0x10, 3), (0x05, 3), (0x20, 2), (0x01, 1)])).code) = [0, 2, 6, 7] := by
  decide +kernel
/-- AS4: the overflow of CanonAssign. -/
theorem test_assign_overflow : canonAssign [⟨0x00, 1⟩, ⟨0x01, 1⟩, ⟨0x02, 1⟩] = .error 2 := by decide
/-- SE1. -/
theorem test_serialize : output (after .serialize (load [0x41, 0x42] (coded alphaAB [0, 1]))) = containerAB := by
  decide +kernel
/-- SE3. -/
theorem test_serialize_uncoded :
    report (after .serialize (load [0x41, 0x41, 0x43] (coded alphaAB [0, 1]))) = (0x00000806, 2) := by decide +kernel
/-- DS10: the pairs are sorted. -/
theorem test_deserialize : alphabet (after .deserialize (load [0x00, 0x02, 0x02, 0x01, 0x41, 0x42, 0x80] start)) =
    [⟨0x42, 1⟩, ⟨0x41, 2⟩] := by decide +kernel
/-- DS8b: the failing entry is reported in container order. -/
theorem test_deserialize_overfull :
    report (after .deserialize (load [0x00, 0x03, 0x01, 0x01, 0x01, 0x43, 0x41, 0x42, 0x00] start)) =
      (0x00000706, 0) := by decide +kernel
/-- MA4. -/
theorem test_match : output (after .matchBits (withPayload alphaABC [0, 2, 3] [0x58] 8)) =
    [0x41, 0x42, 0x43, 0x41, 0x41, 0x41] := by decide +kernel
/-- MA3: the one payload bit is shorter than the codewords that begin with it. -/
theorem test_match_short : report (after .matchBits (withPayload alphaABC [0, 2, 3] [0x80] 1)) = (0x00000506, 0) := by
  decide +kernel
/-- ED4. -/
theorem test_encode : output (after .encode (load [0x41, 0x41, 0x42] start)) =
    [0x05, 0x02, 0x01, 0x01, 0x41, 0x42, 0x20] := by decide +kernel
/-- W3. -/
theorem test_encode_empty : output (after .encode (load [] (coded alphaAB [0, 1]))) = [0x00, 0x00] := by decide +kernel
/-- ED2. -/
theorem test_decode_text : output (after .decode (load
      [0x01, 0x05, 0x01, 0x03, 0x03, 0x03, 0x03, 0x61, 0x62, 0x63, 0x64, 0x72, 0x4E, 0xAC, 0x9C] start)) =
    [0x61, 0x62, 0x72, 0x61, 0x63, 0x61, 0x64, 0x61, 0x62, 0x72, 0x61] := by decide +kernel
/-- ED10: the DESERIALIZE stage is discarded. -/
theorem test_decode_discards :
    report (after .decode (load [0x00, 0x01, 0x01, 0x41, 0x80] start)) = (0x00000506, 0) ∧
      (after .decode (load [0x00, 0x01, 0x01, 0x41, 0x80] start)).payBits = 0 := by decide +kernel

/-! ### 3b. The host interface -/

/-- What a step leaves, as a pair of STATUS and ERR_INFO, or nothing where there is no next state. -/
def stepReport (s : State) : Option (Word × Word) :=
  match step s with
  | .next t => some (report t)
  | .fault _ => none
  | .refused _ => none

/-- NP5: a word with a reserved bit set is no ENCODE. -/
theorem test_illegal_word : stepReport (start.withFetchWord 32 0x80000007) = some (0x00000B06, 0x80000007) := by
  decide +kernel
/-- HI1: ID, PARAM and BUFSZ (of a 512-byte instance). -/
theorem test_identification :
    busRead start 0x0000 = 0x48554646 ∧ busRead start 0x0004 = 0x0001807F ∧ busRead start 0x0008 = 0x00000200 := by
  decide +kernel
/-- HI4: little-endian byte lanes. -/
theorem test_byte_lanes : (busWrite 0x01000000 0x04030201 start).ibuf.bytes 0 4 = [0x01, 0x02, 0x03, 0x04] := by
  decide +kernel
/-- HI9: at issue DONE and CODE are cleared. -/
theorem test_issue : statusWord (busWrite 0x0010 0 { start with done := true, statusCode := .unmatchedBits }) =
    0x00000001 := by decide +kernel
/-- P4, line 4: a write of IN_LEN while BUSY is dropped and sets OVR. -/
theorem test_dropped_write : (busWrite 0x0018 5 busy).inLen = 2 ∧ statusWord (busWrite 0x0018 5 busy) = 0x00000009 := by
  decide +kernel
/-- HI5: ACK clears DONE; ERR and CODE remain. -/
theorem test_acknowledge : statusWord (busWrite 0x0014 0x0000000A
    { start with done := true, statusCode := .unmatchedBits }) = 0x00000504 := by decide +kernel
/-- AS5: the CODE window of a 127-bit codeword. -/
theorem test_code_window :
    ([0x1090, 0x1094, 0x1098, 0x109C].map fun off => exactRead (coded [⟨0x08, 1⟩, ⟨0x09, 127⟩] [0, 2 ^ 126]) off) =
      [0, 0, 0, 0x40000000] := by decide +kernel
/-- 20_memory.md R56. -/
theorem test_misaligned_refused : step { start with host := [.ldw 2] } = .refused (.misalignedAccess 2) := rfl
/-- 30_encoding.md R86: the expansion of LOAD. -/
theorem test_load_expansion : loadOps [0x41, 0x42, 0x43, 0x44, 0x45] =
    [.stw 0x01000000 0x44434241, .stw 0x01000004 0x00000045, .stw 0x00000018 5] := by decide +kernel

/-! ### 4. The obligations' hypotheses can be met -/

/-- `s` with one host operation pending: the host acts, and leaves `s`. -/
def asking (op : HostOp) (s : State) : State := { s with host := [op], sched := [.host] }

theorem hostActs_start (op : HostOp) : HostActs (asking op start) op start := ⟨[], rfl, .inl ⟨[], rfl, rfl⟩⟩
theorem hostActs_busy (op : HostOp) : HostActs (asking op busy) op busy := ⟨[], rfl, .inl ⟨[], rfl, rfl⟩⟩
theorem engineActs_busy : EngineActs busy busy := ⟨rfl, .inr ⟨rfl, rfl⟩⟩
theorem inv_start : Inv start := inv_afterReset (by decide)
theorem inv_issued (w : Word) : Inv (issue w start) := inv_busWrite (off := 0x0010) inv_start (by decide) w

/-- A state in the middle of a command, with a NOP latched. -/
def pending : State := issue 0 start

theorem inv_pending : Inv pending := inv_issued 0
theorem coherent_AB : TablesCoherent (coded alphaAB [0, 1]) :=
  .inr ⟨alphaAB, [0, 1], holdsCode_installCode (s := { start with len := lenTableOf alphaAB }) (by decide)
    ⟨by decide, by decide, by decide⟩ (by decide) (by decide +kernel)⟩
theorem coherent_ABC (payload : List Byte) (bits : Nat) : TablesCoherent (withPayload alphaABC [0, 2, 3] payload bits) :=
  coherent_congr (s := coded alphaABC [0, 2, 3])
    (.inr ⟨alphaABC, [0, 2, 3], holdsCode_installCode (s := { start with len := lenTableOf alphaABC }) (by decide)
      ⟨by decide, by decide, by decide⟩ (by decide) (by decide +kernel)⟩) rfl rfl rfl rfl rfl

theorem witness_DecodingSelectsExactlyTheLegalWords : decode 0x00000008 = .ok .decode ∧ Instr.decode.wellFormed = true := by
  decide
theorem witness_IllegalWordCompletesWithBadCommand :
    9 ≤ (0x00000009 : Word).toNat ∧ EngineActs (issue 0x80000007 start) (issue 0x80000007 start) ∧
      ∀ i, decode (issue 0x80000007 start).lcmd ≠ .ok i :=
  ⟨by decide, ⟨rfl, .inr ⟨rfl, rfl⟩⟩, fun i => by cases i <;> decide⟩
theorem witness_StepRunsTheLatchedCommand :
    (EngineActs busy busy ∧ decode busy.lcmd = .ok .encode) ∧ decodeTableWord 32 8 = some .decode ∧
      HostActs (asking .wait start) .wait start ∧ (start.eng = .idle ∧ start.host = [] ∧ start.sched = []) ∧
      (∀ lcmd, { start with lcmd := lcmd, done := true, sched := [.engine] }.eng = .idle) ∧
      ({ busy with sched := [.host] }.host = [] ∧ { busy with sched := [.host] }.sched = .host :: []) :=
  ⟨⟨engineActs_busy, by decide⟩, by decide, hostActs_start _, ⟨rfl, rfl, rfl⟩, fun _ => rfl, rfl, rfl⟩
/-- A completed command is not completed again: the engine's next turn changes nothing. -/
theorem test_completes_once : step { start with lcmd := 0x00000001, done := true, inLen := 513, sched := [.engine] } =
    .next { start with lcmd := 0x00000001, done := true, inLen := 513 } := rfl
theorem witness_CmdWriteIssuesOrIsDropped :
    ∀ op ∈ [HostOp.stw 0x0010 7, .stw 0x0018 0xFFFFFFFF], (HostActs (asking op start) op start ∧ start.eng = .idle) ∧
      HostActs (asking op busy) op busy ∧ busy.eng = .busy :=
  fun _ _ => ⟨⟨hostActs_start _, rfl⟩, hostActs_busy _, rfl⟩
/-- The dropped writes at CMD, IN_LEN and the first and last word of IBUF; the accepted ones at STATUS and CTRL. -/
theorem witness_BusyDropsOperandWrites :
    (∀ off ∈ [0x0010, 0x0018, 0x01000000, 0x010001FC], HostActs (asking (.stw off 0) busy) (.stw off 0) busy ∧
      busy.eng = .busy ∧ off % 4 = 0 ∧ bufBytesAdmitted busy.bufBytes = true ∧
      (off = 0x0010 ∨ off = 0x0018 ∨ (0x01000000 ≤ off ∧ off < 0x01000000 + busy.bufBytes))) ∧
    (HostActs (asking (.stw 0x0014 10) busy) (.stw 0x0014 10) busy) ∧
    (HostActs (asking (.stw 0x000C 1) busy) (.stw 0x000C 1) busy ∧ (1 : Word)[1] = false) ∧
    (HostActs (asking (.stw 0x000C 2) busy) (.stw 0x000C 2) busy ∧ (2 : Word)[1] = true) :=
  ⟨fun off h => ⟨hostActs_busy _, rfl, by revert off; decide⟩, hostActs_busy _, ⟨hostActs_busy _, by decide⟩,
    hostActs_busy _, by decide⟩
theorem witness_StatusReadsAndClears : HostActs (asking (.ldw 0x0014) busy) (.ldw 0x0014) busy ∧
    HostActs (asking (.stw 0x0014 2) start) (.stw 0x0014 2) start := ⟨hostActs_busy _, hostActs_start _⟩
theorem witness_CtrlReadsAndWrites : HostActs (asking (.ldw 0x000C) busy) (.ldw 0x000C) busy ∧
    (HostActs (asking (.stw 0x000C 1) busy) (.stw 0x000C 1) busy ∧ (1 : Word)[1] = false) ∧
    HostActs (asking (.stw 0x000C 3) busy) (.stw 0x000C 3) busy ∧ (3 : Word)[1] = true :=
  ⟨hostActs_busy _, ⟨hostActs_busy _, by decide⟩, hostActs_busy _, by decide⟩
theorem witness_SoftResetKeepsOnlyIbuf :
    HostActs (asking (.stw 0x000C 3) busy) (.stw 0x000C 3) busy ∧ (3 : Word)[1] = true := ⟨hostActs_busy _, by decide⟩
theorem witness_HardResetFromAnyState : { busy with sched := [.reset, .engine] }.sched = .reset :: [.engine] := rfl
theorem witness_ResetAbandonsTheCommand :
    (∃ t, { busy with sched := [.reset, .engine] }.eng = .busy ∧ step { busy with sched := [.reset, .engine] } = .next t ∧
      t.sched = .engine :: []) ∧
    (∃ t, (asking (.stw 0x000C 2) busy).eng = .busy ∧ HostActs (asking (.stw 0x000C 2) busy) (.stw 0x000C 2) busy ∧
      (2 : Word)[1] = true ∧ step (asking (.stw 0x000C 2) busy) = .next t) :=
  ⟨⟨_, rfl, rfl, rfl⟩, ⟨_, rfl, hostActs_busy _, by decide, rfl⟩⟩
theorem witness_InterruptFollowsCompletionAndEnable :
    (∃ t, EngineActs pending pending ∧ step pending = .next t) ∧
    (HostActs (asking (.stw 0x0014 2) start) (.stw 0x0014 2) start ∧ (2 : Word)[1] = true) ∧
    (HostActs (asking (.stw 0x0010 0) start) (.stw 0x0010 0) start ∧ (asking (.stw 0x0010 0) start).eng = .idle) ∧
    ({ busy with sched := [.reset] }.sched = .reset :: []) ∧
    (HostActs (asking (.stw 0x000C 2) start) (.stw 0x000C 2) start ∧ (2 : Word)[1] = true) ∧
    (HostActs (asking (.stw 0x000C 0) start) (.stw 0x000C 0) start ∧ (0 : Word)[1] = false ∧ (0 : Word)[0] = false) :=
  ⟨⟨_, ⟨rfl, .inr ⟨rfl, rfl⟩⟩, rfl⟩, ⟨hostActs_start _, by decide⟩, ⟨hostActs_start _, rfl⟩, rfl,
    ⟨hostActs_start _, by decide⟩, hostActs_start _, by decide, by decide⟩
theorem witness_EveryCompletionSetsStatusAndKeepsInputs :
    ∃ t, exec .count (load [0x41] start) = .next t ∧ t.statusCode = .ok := ⟨_, rfl, by decide +kernel⟩
theorem witness_ErrorCompletionDiscardsEverything :
    (∃ t, exec .count { start with inLen := 513 } = .next t ∧ t.statusCode ≠ .ok ∧ isOutputCommand .count = false) ∧
    (∃ t, exec .decode start = .next t ∧ t.statusCode ≠ .ok ∧ isOutputCommand .decode = true) :=
  ⟨⟨_, rfl, by decide +kernel, rfl⟩, ⟨_, rfl, by decide +kernel, rfl⟩⟩
/-- One command of each kind: MATCH and COUNT are outside every list but their own. -/
theorem witness_OnlyTheListedCommandsWriteEachTable :
    (∃ t, exec .matchBits start = .next t ∧ Instr.matchBits ∉ [Instr.count, .encode] ∧
      Instr.matchBits ∉ [Instr.build, .assign, .deserialize, .encode, .decode] ∧
      Instr.matchBits ∉ [Instr.serialize, .deserialize, .encode, .decode]) ∧
    (∃ t, exec .count start = .next t ∧ isOutputCommand .count = false ∧
      Instr.count ∉ [Instr.build, .deserialize, .encode, .decode] ∧ Instr.count ∉ [Instr.deserialize, .decode]) :=
  ⟨⟨_, rfl, by decide, by decide, by decide⟩, ⟨_, rfl, rfl, by decide, by decide⟩⟩
theorem witness_OutputBytesBeyondOutLenAreUnspecified :
    ∃ t, isOutputCommand .serialize = true ∧ start.bufBytes < 2 ^ 32 ∧ exec .serialize start = .next t ∧
      t.statusCode = .ok ∧ 0 < t.outLen.toNat :=
  ⟨_, rfl, by decide, rfl, by decide +kernel, by decide +kernel⟩
theorem witness_LengthIsCheckedFirst :
    (readsInLen .decode = true ∧ { start with inLen := 513 }.bufBytes < { start with inLen := 513 }.inLen.toNat) ∧
      ∃ t, readsInLen .matchBits = false ∧ exec .matchBits start = .next t := ⟨⟨rfl, by decide⟩, _, rfl, rfl⟩
/-- Every group of offsets at its ends. -/
theorem witness_BusyReadsAreFreeOrExact :
    busy.eng = .busy ∧ bufBytesAdmitted busy.bufBytes = true ∧
    (∀ off ∈ [0x001C, 0x0020, 0x0024, 0x0028, 0x002C, 0x0030, 0x0034, 0x0400, 0x1FFC, 0x02000000, 0x020001FC],
      HostActs (asking (.ldw off) busy) (.ldw off) busy ∧ off % 4 = 0 ∧
      (off = 0x001C ∨ off = 0x0020 ∨ off = 0x0024 ∨ off = 0x0028 ∨ off = 0x002C ∨ off = 0x0030 ∨ off = 0x0034 ∨
        (0x0400 ≤ off ∧ off < 0x2000) ∨ (0x02000000 ≤ off ∧ off < 0x02000000 + busy.bufBytes))) ∧
    (∀ off ∈ [0x0000, 0x0004, 0x0008, 0x000C, 0x0014, 0x0018, 0x01000000, 0x010001FC],
      HostActs (asking (.ldw off) busy) (.ldw off) busy ∧ off % 4 = 0 ∧
      (off = 0x0000 ∨ off = 0x0004 ∨ off = 0x0008 ∨ off = 0x000C ∨ off = 0x0014 ∨ off = 0x0018 ∨
        (0x01000000 ≤ off ∧ off < 0x01000000 + busy.bufBytes))) :=
  ⟨rfl, by decide, fun off h => ⟨hostActs_busy _, by revert off; decide⟩,
    fun off h => ⟨hostActs_busy _, by revert off; decide⟩⟩
theorem witness_ReadsHaveNoSideEffect :
    (∃ t, HostActs (asking (.ldw 0x0014) busy) (.ldw 0x0014) busy ∧ step (asking (.ldw 0x0014) busy) = .next t ∧
      readIsFree (asking (.ldw 0x0014) busy) 0x0014 = false) ∧
    (∃ t u, start.eng = .idle ∧ start.sched = [] ∧
      step { start with host := [.ldw 0x02000000, .ldw 0x02000000] } = .next t ∧ step t = .next u) :=
  ⟨⟨_, hostActs_busy _, rfl, by decide⟩, _, _, rfl, rfl, rfl, rfl⟩
theorem witness_OnlyAlignedWordAccessesHaveAStep :
    HostActs (asking (.stw 0x03FFFFFC 0) start) (.stw 0x03FFFFFC 0) start ∧
    HostActs (asking (.ldw 0x04000000) start) (.ldw 0x04000000) start ∧
    HostActs (asking (.oddAccess .half false 0) start) (.oddAccess .half false 0) start :=
  ⟨hostActs_start _, hostActs_start _, hostActs_start _⟩
/-- The first and the last word of a 512-byte buffer. -/
theorem witness_BufferWordsAreLittleEndian : ∀ k ∈ [0, 127],
    HostActs (asking (.stw (0x01000000 + 4 * k) 5) start) (.stw (0x01000000 + 4 * k) 5) start ∧ start.eng = .idle ∧
      bufBytesAdmitted start.bufBytes = true ∧ 4 * k < start.bufBytes :=
  fun k h => ⟨hostActs_start _, rfl, by decide, by revert k; decide⟩
/-- The first and the last offset of the window. -/
theorem witness_TableWindowsReadTheTables : ∀ off ∈ [0x0000, 0x03FFFFFC],
    HostActs (asking (.ldw off) start) (.ldw off) start ∧ start.eng = .idle ∧ off % 4 = 0 ∧ off < 0x04000000 :=
  fun off h => ⟨hostActs_start _, rfl, by revert off; decide⟩
/-- Ignored writes, among them ID, OUT_LEN, a table and the first offset beyond IBUF; CMD and every reserved range at its ends. -/
theorem witness_ReservedReadsZeroAndIgnoresWrites :
    (∀ off ∈ [0x0000, 0x001C, 0x0400, 0x01000200, 0x02000000, 0x03FFFFFC],
      HostActs (asking (.stw off 5) start) (.stw off 5) start ∧ off % 4 = 0 ∧ off < 0x04000000 ∧ off ≠ 0x000C ∧
        off ≠ 0x0010 ∧ off ≠ 0x0014 ∧ off ≠ 0x0018 ∧ ¬ (0x01000000 ≤ off ∧ off < 0x01000000 + start.bufBytes)) ∧
    (∀ off ∈ [0x0010, 0x0038, 0x03FC, 0x2000, 0x00FFFFFC, 0x03000000, 0x03FFFFFC, 0x01000200, 0x01FFFFFC, 0x02000200,
        0x02FFFFFC],
      HostActs (asking (.ldw off) busy) (.ldw off) busy ∧ bufBytesAdmitted busy.bufBytes = true ∧ off % 4 = 0 ∧
      (off = 0x0010 ∨ (0x0038 ≤ off ∧ off < 0x0400) ∨ (0x2000 ≤ off ∧ off < 0x01000000) ∨
        (0x03000000 ≤ off ∧ off < 0x04000000) ∨ (0x01000000 + busy.bufBytes ≤ off ∧ off < 0x02000000) ∨
        (0x02000000 + busy.bufBytes ≤ off ∧ off < 0x03000000))) :=
  ⟨fun off h => ⟨hostActs_start _, by revert off; decide⟩, fun off h => ⟨hostActs_busy _, by revert off; decide⟩⟩
/-- IN_LEN at BUF_BYTES and one beyond. -/
theorem witness_CountCountsTheInput :
    { start with inLen := 512 }.inLen.toNat ≤ { start with inLen := 512 }.bufBytes ∧
      { start with inLen := 513 }.bufBytes < { start with inLen := 513 }.inLen.toNat := by decide
theorem witness_CountsSumToTheLength : ∃ t, bufBytesAdmitted (load [0x41] start).bufBytes = true ∧
    exec .count (load [0x41] start) = .next t ∧ t.statusCode = .ok := ⟨_, by decide, rfl, by decide +kernel⟩

/-- Frequencies whose tree is as deep as it can be; no COUNT leaves them. -/
def overflowing : State := { start with freq := Vector.replicate 256 0xFFFFFFFF }

/-- The frequencies that COUNT leaves of the text 41 42 42. -/
def freqABB : Table Word := countTable [0x41, 0x42, 0x42]

theorem freqABB_ne_zero : ∃ b, tableAt freqABB b ≠ 0 := ⟨0x41, mem_presentSymbols.1
  ((mem_presentSymbols_countTable (input := [0x41, 0x42, 0x42]) (by decide)).2 (by decide))⟩
theorem freqABB_sum : (allSymbols.map fun b => (tableAt freqABB b).toNat).sum ≤ 2 ^ 24 := by
  have := freqSum_countTable (input := [0x41, 0x42, 0x42]) (by decide)
  rw [freqSum] at this
  rw [freqABB, this]
  decide
theorem witness_BuildWritesLengthsAndClearsTheCode :
    (∀ b, tableAt start.freq b = 0) ∧
    ((∃ b, tableAt { start with freq := freqABB }.freq b ≠ 0) ∧
      (allSymbols.map fun b => (tableAt { start with freq := freqABB }.freq b).toNat).sum ≤ 2 ^ 24) ∧
    ((∃ f, buildLengths overflowing.freq = .error f) ∧ ∃ b, tableAt overflowing.freq b ≠ 0) :=
  ⟨fun b => tableAt_replicate _ b, ⟨freqABB_ne_zero, freqABB_sum⟩, ⟨⟨.codeOverflow, 0⟩, by decide +kernel⟩, 0,
    by decide +kernel⟩
theorem witness_LengthsFormACompleteTree :
    (∃ L, buildLengths freqABB = .ok L) ∧ tableAt freqABB 0x43 = 0 ∧ 2 ≤ (presentSymbols freqABB).length ∧
      presentSymbols (countTable [0x7F]) = [0x7F] := by
  have hl : (presentSymbols freqABB).length = 2 := length_presentSymbols_countTable (input := [0x41, 0x42, 0x42]) (by decide)
  have hp : (presentSymbols (countTable [0x7F])).Perm [0x7F] :=
    (List.perm_ext_iff_of_nodup (nodup_presentSymbols _) (by decide)).2 fun b =>
      mem_presentSymbols_countTable (by decide)
  refine ⟨?_, ?_, by rw [hl], List.perm_singleton.1 hp⟩
  · obtain ⟨L, codes, hL, -⟩ := buildLengths_countTable (input := [0x41, 0x42, 0x42]) (by decide) (by decide)
    exact ⟨L, hL⟩
  · rw [freqABB, countTable, tableAt_tableOf]; decide

/-- A queue and a node whose sequence number it does not use. -/
theorem witness_QueueStaysInPriorityOrder :
    [(⟨1, 0, .leaf 1⟩ : Node), ⟨1, 1, .leaf 2⟩].Pairwise nodePrecedes ∧
      ∀ m ∈ [(⟨1, 0, .leaf 1⟩ : Node), ⟨1, 1, .leaf 2⟩], m.seq ≠ (⟨1, 2, .leaf 3⟩ : Node).seq := by decide
/-- The tie case of 41_tree_builder.md R97: the two leaves of weight 2 precede the Branch of weight 2. -/
theorem test_code_tree : codeTree (counted [(0x61, 1), (0x62, 1), (0x63, 2), (0x64, 2)]).freq =
    some (.branch (.branch (.leaf 0x61) (.leaf 0x62)) (.branch (.leaf 0x63) (.leaf 0x64))) := by decide +kernel
theorem witness_CodeOverflowIsUnreachable :
    ((allSymbols.map fun b => (tableAt freqABB b).toNat).sum ≤ 2 ^ 24 ∧ ∃ b, tableAt freqABB b ≠ 0) ∧
    (∃ t, bufBytesAdmitted start.bufBytes = true ∧ FrequenciesBounded { start with freq := freqABB } ∧
      exec .build { start with freq := freqABB } = .next t) ∧
    (∃ t, exec .encode (load [0x41] start) = .next t) := by
  refine ⟨⟨freqABB_sum, freqABB_ne_zero⟩, ⟨_, by decide, ?_, rfl⟩, _, rfl⟩
  have := freqSum_countTable (input := [0x41, 0x42, 0x42]) (by decide)
  rw [freqSum] at this
  show (allSymbols.map fun b => (tableAt freqABB b).toNat).sum ≤ 512
  rw [freqABB, this]
  decide
theorem witness_PairsAreTheSortedPresentSymbols : [(⟨0x42, 1⟩ : AlphaEntry), ⟨0x41, 1⟩].Perm alphaAB := by decide
theorem witness_CanonAssignRecurrence : canonAssign alphaABC = .ok [0, 2, 3] ∧
    canonAssign [⟨0x00, 1⟩, ⟨0x01, 1⟩, ⟨0x02, 1⟩] = .error 2 ∧ canonAssign [⟨0x00, 128⟩] = .error 0 := by decide
theorem witness_CanonicalCodewordsArePrefixFree :
    alphaABC.Pairwise canonicalLe ∧ canonAssign alphaABC = .ok [0, 2, 3] ∧ 0 < alphaABC.length ∧ 2 < alphaABC.length := by
  decide
theorem witness_AssignmentFailsExactlyWhenOverfull :
    (alphaABC.Pairwise canonicalLe ∧ (∀ e ∈ alphaABC, 1 ≤ e.len.toNat ∧ e.len.toNat ≤ 127)) ∧
      ∃ t, Inv start ∧ exec .assign start = .next t := ⟨by decide, _, inv_start, rfl⟩
theorem witness_AssignWritesTheCanonicalCode :
    (∀ b, tableAt start.len b = 0) ∧
    canonAssign (lenPairs (lenTableOf [⟨0x00, 1⟩, ⟨0x01, 1⟩, ⟨0x02, 1⟩])) = .error 2 ∧
    (∃ b, tableAt (lenTableOf alphaABC) b ≠ 0) ∧ canonAssign (lenPairs (lenTableOf alphaABC)) = .ok [0, 2, 3] := by
  refine ⟨fun b => tableAt_replicate _ b, ?_, ⟨0x41, by decide +kernel⟩, ?_⟩
  · rw [lenPairs_lenTableOf ⟨by decide, by decide, by decide⟩]; decide
  · rw [lenPairs_lenTableOf ⟨by decide, by decide, by decide⟩]; decide
theorem witness_PackKeepsEveryBit : 15 < [true, false, true, true, false, true, true, true, true].length +
    paddingCount [true, false, true, true, false, true, true, true, true].length := by decide

/-- SE1's state. -/
def codedText : State := load [0x41, 0x42] (coded alphaAB [0, 1])

theorem encodable_codedText : Encodable codedText (inputBytes codedText) := by
  show ∀ b ∈ inputBytes codedText, ∃ e ∈ alphabet codedText, e.sym = b
  decide +kernel
theorem witness_SerializeWritesTheContainer :
    bufBytesAdmitted codedText.bufBytes = true ∧ codedText.inLen.toNat ≤ codedText.bufBytes ∧
      codedText.alphaN.toNat ≤ 128 ∧ Encodable codedText (inputBytes codedText) ∧
      2 + 2 * codedText.alphaN.toNat + ((encodeText codedText (inputBytes codedText)).length + 7) / 8 ≤
        codedText.bufBytes :=
  ⟨by decide +kernel, by decide +kernel, by decide +kernel, encodable_codedText, by decide +kernel⟩
/-- 30_encoding.md R81: the codeword of length 3 and value 6 is 110. -/
theorem test_codeword : codewordOf (codeTableOf [⟨0x05, 3⟩] [6]) ⟨0x05, 3⟩ = [true, true, false] := by decide +kernel
theorem witness_SerializeWritesTheContainer_words :
    0 < (⟨0x05, 3⟩ : AlphaEntry).len.toNat ∧
    (((alphabet codedText).map (·.sym)).Nodup ∧ (⟨0x42, 1⟩ : AlphaEntry) ∈ alphabet codedText) ∧
    (codedText.alphaN.toNat ≤ 256 ∧ (1 : Byte).toNat < codedText.alphaN.toNat) ∧ 1 < codedText.inLen.toNat := by
  decide +kernel

/-- SE3's state. -/
def uncodedText : State := load [0x41, 0x41, 0x43] (coded alphaAB [0, 1])

/-- A text of codewords of 127 bits that does not fit 512 bytes. -/
def longText : State := load (List.replicate 33 0) (coded [⟨0x01, 1⟩, ⟨0x00, 127⟩] [0, 2 ^ 126])

theorem encodeText_replicate (s : State) (b : Byte) (n : Nat) :
    (encodeText s (List.replicate n b)).length = n * (symbolCodeword s b).length := by
  simp [encodeText, List.length_flatMap]
theorem inputBytes_longText : inputBytes longText = List.replicate 33 0 :=
  Memory.bytes_ofBytes 0 (List.replicate 33 0)
theorem witness_SerializeReportsItsFirstError :
    (start.bufBytes < 2 ^ 25 ∧ 128 < { start with alphaN := 129 }.alphaN.toNat) ∧
    (uncodedText.bufBytes < 2 ^ 25 ∧ uncodedText.inLen.toNat ≤ uncodedText.bufBytes ∧ uncodedText.alphaN.toNat ≤ 128 ∧
      2 < uncodedText.inLen.toNat ∧ Encodable uncodedText ((inputBytes uncodedText).take 2) ∧
      ∀ e ∈ alphabet uncodedText, e.sym ≠ uncodedText.ibuf.read 2) ∧
    (longText.bufBytes < 2 ^ 25 ∧ longText.inLen.toNat ≤ longText.bufBytes ∧ longText.alphaN.toNat ≤ 128 ∧
      Encodable longText (inputBytes longText) ∧ longText.bufBytes <
        2 + 2 * longText.alphaN.toNat + ((encodeText longText (inputBytes longText)).length + 7) / 8) := by
  refine ⟨by decide +kernel, ⟨by decide +kernel, by decide +kernel, by decide +kernel, by decide +kernel, ?_,
    by decide +kernel⟩, by decide +kernel, by decide +kernel, by decide +kernel, ?_, ?_⟩
  · show ∀ b ∈ (inputBytes uncodedText).take 2, ∃ e ∈ alphabet uncodedText, e.sym = b
    decide +kernel
  · rw [inputBytes_longText]
    intro b hb
    rw [List.eq_of_mem_replicate hb]
    exact ⟨⟨0x00, 127⟩, by decide +kernel, rfl⟩
  · rw [inputBytes_longText, encodeText_replicate]
    have : (symbolCodeword longText 0).length = 127 := by decide +kernel
    rw [this]
    decide +kernel

/-- DS1, DS2, DS3, DS4 and DS5, and containers that only just pass or fail a check. -/
theorem witness_DeserializeChecksTheHeaderInOrder :
    (load [0x05] start).inLen.toNat < 2 ∧
    (∀ bs ∈ [[0x08, 0x00], [0x08, 0xC8]],
      2 ≤ (load bs start).inLen.toNat ∧ 7 < ((load bs start).ibuf.read 0).toNat) ∧
    (∀ bs ∈ [[0x07, 0x81], [0x00, 0x81]], 2 ≤ (load bs start).inLen.toNat ∧ ((load bs start).ibuf.read 0).toNat ≤ 7 ∧
      128 < ((load bs start).ibuf.read 1).toNat) ∧
    (∀ bs ∈ [[0x00, 0x02, 0x01, 0x01, 0x41], [0x07, 0x80]], 2 ≤ (load bs start).inLen.toNat ∧
      ((load bs start).ibuf.read 0).toNat ≤ 7 ∧ ((load bs start).ibuf.read 1).toNat ≤ 128 ∧
      (load bs start).inLen.toNat < 2 + 2 * ((load bs start).ibuf.read 1).toNat) ∧
    (∀ bs ∈ [[0x03, 0x00], [0x01, 0x01, 0x01, 0x41]], ((load bs start).ibuf.read 0).toNat ≤ 7 ∧
      ((load bs start).ibuf.read 1).toNat ≤ 128 ∧
      (load bs start).inLen.toNat = 2 + 2 * ((load bs start).ibuf.read 1).toNat ∧
      0 < ((load bs start).ibuf.read 0).toNat) := by decide +kernel
theorem witness_CheckTableAcceptsExactlyTheFittingTables :
    (checkTable [⟨0x42, 1⟩, ⟨0x41, 1⟩] = .ok (alphaAB, [0, 1])) ∧
    (∀ k, k < 2 → ¬ ((alphaAB.getD k ⟨0, 0⟩).len.toNat = 0 ∨ 127 < (alphaAB.getD k ⟨0, 0⟩).len.toNat ∨
      ∃ j, j < k ∧ (alphaAB.getD j ⟨0, 0⟩).sym = (alphaAB.getD k ⟨0, 0⟩).sym)) ∧
    (1 < [(⟨0x41, 1⟩ : AlphaEntry), ⟨0x41, 1⟩].length ∧
      (∃ j, j < 1 ∧ ([(⟨0x41, 1⟩ : AlphaEntry), ⟨0x41, 1⟩].getD j ⟨0, 0⟩).sym =
        ([(⟨0x41, 1⟩ : AlphaEntry), ⟨0x41, 1⟩].getD 1 ⟨0, 0⟩).sym)) ∧
    (canonAssign (sortLS [⟨0x43, 1⟩, ⟨0x41, 1⟩, ⟨0x42, 1⟩]) = .error 2) := by decide +kernel

/-- The hypotheses of a container that DESERIALIZE accepts. -/
theorem accepted_container :
    let s := load containerAB start
    bufBytesAdmitted s.bufBytes = true ∧ s.inLen.toNat ≤ s.bufBytes ∧ 2 ≤ s.inLen.toNat ∧
      6 = (s.ibuf.read 0).toNat ∧ 2 = (s.ibuf.read 1).toNat ∧ 6 ≤ 7 ∧ 2 ≤ 128 ∧ 2 + 2 * 2 ≤ s.inLen.toNat ∧
      (s.inLen.toNat = 2 + 2 * 2 → 6 = 0) ∧
      alphaAB = (List.range 2).map (fun k => ⟨s.ibuf.read (2 + 2 + k), s.ibuf.read (2 + k)⟩) ∧
      checkTable alphaAB = .ok (alphaAB, [0, 1]) := by decide +kernel
theorem witness_DeserializeRebuildsTheTables :
    (∃ (s : State) (es ps : List AlphaEntry) (codes : List Nat) (p n : Nat),
      bufBytesAdmitted s.bufBytes = true ∧ s.inLen.toNat ≤ s.bufBytes ∧ 2 ≤ s.inLen.toNat ∧
      p = (s.ibuf.read 0).toNat ∧ n = (s.ibuf.read 1).toNat ∧ p ≤ 7 ∧ n ≤ 128 ∧ 2 + 2 * n ≤ s.inLen.toNat ∧
      (s.inLen.toNat = 2 + 2 * n → p = 0) ∧
      es = (List.range n).map (fun k => ⟨s.ibuf.read (2 + n + k), s.ibuf.read (2 + k)⟩) ∧
      checkTable es = .ok (ps, codes) ∧ 0 < n) ∧
    (let s := load [0x00, 0x00] start;
      2 ≤ s.inLen.toNat ∧ 0 = (s.ibuf.read 0).toNat ∧ 0 = (s.ibuf.read 1).toNat ∧ checkTable [] = .ok ([], [])) ∧
    (let s := load [0x00, 0x02, 0x01, 0x00, 0x41, 0x42, 0x00] start;
      s.inLen.toNat ≤ s.bufBytes ∧ 2 + 2 * 2 < s.inLen.toNat ∧ 0 = (s.ibuf.read 0).toNat ∧ 2 = (s.ibuf.read 1).toNat ∧
      [(⟨0x41, 1⟩ : AlphaEntry), ⟨0x42, 0⟩] = (List.range 2).map (fun k => ⟨s.ibuf.read (2 + 2 + k), s.ibuf.read (2 + k)⟩) ∧
      checkTable [⟨0x41, 1⟩, ⟨0x42, 0⟩] = .error ⟨.corruptTable, 1⟩) := by
  obtain ⟨h1, h2, h3, h4, h5, h6, h7, h8, h9, h10, h11⟩ := accepted_container
  exact ⟨⟨load containerAB start, alphaAB, alphaAB, [0, 1], 6, 2, h1, h2, h3, h4, h5, h6, h7, h8, h9, h10, h11,
    by decide⟩, by decide +kernel, by decide +kernel⟩

/-- A state with the output of `t` placed in IBUF, IN_LEN its length. -/
def reloaded (t : State) : State := { start with ibuf := t.obuf, inLen := t.outLen }

theorem bufBytes_reloaded (t : State) : (reloaded t).bufBytes = 512 := rfl
theorem inLen_reloaded (t : State) : (reloaded t).inLen = t.outLen := rfl
theorem ibuf_reloaded (t : State) : (reloaded t).ibuf = t.obuf := rfl
theorem witness_DeserializeInvertsSerialize :
    ∃ t, bufBytesAdmitted codedText.bufBytes = true ∧ TablesCoherent codedText ∧ exec .serialize codedText = .next t ∧
      t.statusCode = .ok ∧ (reloaded t).bufBytes = codedText.bufBytes ∧ (reloaded t).inLen = t.outLen ∧
      ∀ a, a < t.outLen.toNat → (reloaded t).ibuf.read a = t.obuf.read a :=
  ⟨_, by decide, coherent_congr coherent_AB rfl rfl rfl rfl rfl, rfl, by decide +kernel, bufBytes_reloaded _,
    inLen_reloaded _, fun a _ => by rw [ibuf_reloaded]⟩
theorem witness_MatchEmitsTheMatchedSymbols :
    (let s := withPayload alphaABC [0, 2, 3] [0x58] 8;
      s.bufBytes < 2 ^ 32 ∧ payloadInBuffer s = true ∧
      matchAll (alphabet s) s.code s.maxLen.toNat s.bufBytes (payloadBits s) =
        .ok [0x41, 0x42, 0x43, 0x41, 0x41, 0x41]) ∧
    (let s := withPayload alphaABC [0, 2, 3] [0x80] 1;
      payloadInBuffer s = true ∧
      matchAll (alphabet s) s.code s.maxLen.toNat s.bufBytes (payloadBits s) = .error ⟨.unmatchedBits, 0⟩) ∧
    payloadInBuffer { start with payOff := 512, payBits := 1 } = false := by decide +kernel

/-- MA4's state. -/
def payloadText : State := withPayload alphaABC [0, 2, 3] [0x58] 8

theorem witness_MatchInvertsEncoding :
    (bufBytesAdmitted payloadText.bufBytes = true ∧ TablesCoherent payloadText ∧ payloadInBuffer payloadText = true ∧
      Encodable payloadText [0x41, 0x42, 0x43, 0x41, 0x41, 0x41] ∧ 6 ≤ payloadText.bufBytes ∧
      payloadBits payloadText = encodeText payloadText [0x41, 0x42, 0x43, 0x41, 0x41, 0x41]) ∧
    (∃ t, exec .matchBits payloadText = .next t ∧ t.statusCode = .ok) ∧
    (⟨0x42, 2⟩ ∈ alphabet payloadText ∧
      (codewordOf payloadText.code ⟨0x42, 2⟩).IsPrefix (codewordOf payloadText.code ⟨0x42, 2⟩)) := by
  refine ⟨⟨by decide +kernel, coherent_ABC _ _, by decide +kernel, ?_, by decide +kernel, by decide +kernel⟩,
    ⟨_, rfl, by decide +kernel⟩, by decide +kernel, List.prefix_rfl⟩
  show ∀ b ∈ [0x41, 0x42, 0x43, 0x41, 0x41, 0x41], ∃ e ∈ alphabet payloadText, e.sym = b
  decide +kernel
/-- 513 codewords of one bit, one more than a 512-byte buffer takes. -/
def overfull : State := withPayload alphaABC [0, 2, 3] (List.replicate 65 0) 513

/-- 44_bit_matcher.md R123: the symbol after BUF_BYTES symbols overflows, at the cursor of its codeword. -/
theorem test_match_overflow : report (after .matchBits overfull) = (0x00000906, 512) := by decide +kernel
theorem witness_UnmatchedBitsReportsTheCursor :
    (∃ t, bufBytesAdmitted (withPayload alphaABC [0, 2, 3] [0x80] 1).bufBytes = true ∧
      TablesCoherent (withPayload alphaABC [0, 2, 3] [0x80] 1) ∧
      exec .matchBits (withPayload alphaABC [0, 2, 3] [0x80] 1) = .next t ∧ t.statusCode = .unmatchedBits) ∧
    (∃ t, bufBytesAdmitted overfull.bufBytes = true ∧ TablesCoherent overfull ∧
      exec .matchBits overfull = .next t ∧ t.statusCode = .outputOverflow) :=
  ⟨⟨_, by decide, coherent_ABC _ _, rfl, by decide +kernel⟩, _, by decide, coherent_ABC _ _, rfl, by decide +kernel⟩
theorem witness_EmptyInputRoundTrip :
    (bufBytesAdmitted start.bufBytes = true ∧ start.inLen = 0) ∧
    (bufBytesAdmitted (load [0x00, 0x00] start).bufBytes = true ∧ (load [0x00, 0x00] start).inLen = 2 ∧
      (load [0x00, 0x00] start).ibuf.read 0 = 0 ∧ (load [0x00, 0x00] start).ibuf.read 1 = 0) := by decide +kernel

/-! A text of 64 symbols, eight of each, whose container does not fit 512 bytes; and a text of 129 symbols. -/

/-- The symbols 0 .. 63, eight times over. -/
def text64 : List Byte := (List.replicate 8 (allSymbols.take 64)).flatten

/-- The symbols 0 .. 128. -/
def text129 : List Byte := allSymbols.take 129

theorem inputBytes_load (bytes : List Byte) (h : bytes.length < 2 ^ 32) (s : State) : inputBytes (load bytes s) = bytes := by
  show (Memory.ofBytes 0 bytes).bytes 0 (BitVec.ofNat 32 bytes.length).toNat = bytes
  rw [BitVec.toNat_ofNat, Nat.mod_eq_of_lt h, Memory.bytes_ofBytes]

theorem length_text64 : text64.length = 512 := by decide +kernel

theorem nodup_take64 : (allSymbols.take 64).Nodup := nodup_allSymbols.sublist (List.take_sublist _ _)

theorem mem_text64 (b : Byte) : b ∈ text64 ↔ b ∈ allSymbols.take 64 := by
  rw [text64, List.mem_flatten]
  exact ⟨fun ⟨l, hl, hb⟩ => List.eq_of_mem_replicate hl ▸ hb, fun hb => ⟨_, by simp, hb⟩⟩

theorem distinctCount_text64 : distinctCount text64 = 64 := by
  have : text64.dedup.Perm (allSymbols.take 64) :=
    (List.perm_ext_iff_of_nodup (List.nodup_dedup _) nodup_take64).2 fun b => by rw [List.mem_dedup, mem_text64]
  rw [distinctCount, this.length_eq]
  decide +kernel

theorem sum_text64 (f : Byte → Nat) : (text64.map f).sum = 8 * ((allSymbols.take 64).map f).sum := by
  rw [text64, List.map_flatten, List.sum_flatten, List.map_map, List.map_replicate, List.sum_replicate]
  rfl

/-- A prefix code of 64 symbols has an average length of at least 6. -/
theorem le_sum_lengths (ps : List AlphaEntry) :
    2 ^ 249 * 7 * ps.length ≤ kraftSum ps + 2 ^ 249 * (ps.map fun e => e.len.toNat).sum := by
  induction ps with
  | nil => decide
  | cons e ps ih =>
    have he : 2 ^ 249 * 7 ≤ 2 ^ (255 - e.len.toNat) + 2 ^ 249 * e.len.toNat := by
      have := e.len.isLt
      rcases Nat.lt_or_ge e.len.toNat 7 with h | h
      · revert h
        generalize e.len.toNat = l
        revert l
        decide
      · exact (Nat.mul_le_mul_left (2 ^ 249) h).trans (Nat.le_add_left _ _)
    simp only [kraftSum, List.map_cons, List.sum_cons, List.length_cons] at ih ⊢
    omega

theorem distinctCount_text129 : distinctCount text129 = 129 := by
  rw [distinctCount, text129, List.dedup_eq_self.2 (nodup_allSymbols.sublist (List.take_sublist _ _))]
  decide +kernel

theorem witness_EncodeOfANonemptyInput :
    (let s := load [0x41, 0x42] start;
      bufBytesAdmitted s.bufBytes = true ∧ 1 ≤ s.inLen.toNat ∧ s.inLen.toNat ≤ s.bufBytes ∧
        distinctCount (inputBytes s) ≤ 128 ∧ ∃ L, buildLengths (countTable (inputBytes s)) = .ok L ∧
          2 + 2 * distinctCount (inputBytes s) +
            (((inputBytes s).map fun b => (tableAt L b).toNat).sum + 7) / 8 ≤ s.bufBytes) ∧
    (let s := load text129 start;
      bufBytesAdmitted s.bufBytes = true ∧ 1 ≤ s.inLen.toNat ∧ s.inLen.toNat ≤ s.bufBytes ∧
        128 < distinctCount (inputBytes s)) ∧
    (let s := load text64 start;
      bufBytesAdmitted s.bufBytes = true ∧ 1 ≤ s.inLen.toNat ∧ s.inLen.toNat ≤ s.bufBytes ∧
        distinctCount (inputBytes s) ≤ 128 ∧ ∃ L, buildLengths (countTable (inputBytes s)) = .ok L ∧
          s.bufBytes < 2 + 2 * distinctCount (inputBytes s) +
            (((inputBytes s).map fun b => (tableAt L b).toNat).sum + 7) / 8) := by
  refine ⟨⟨by decide, by decide, by decide, by decide +kernel, ?_⟩, ⟨by decide, by decide +kernel, by decide +kernel, ?_⟩,
    by decide, by decide +kernel, by decide +kernel, ?_, ?_⟩
  · obtain ⟨L, codes, hL, -, -, hp, -⟩ := encodeStages_nonempty (s := load [0x41, 0x42] start) (by decide) (by decide)
      (by decide)
    refine ⟨L, hL, ?_⟩
    have h1 := (tableAt L 0x41).isLt
    have h2 := (tableAt L 0x42).isLt
    have h3 : distinctCount [0x41, 0x42] = 2 := by decide
    rw [inputBytes_load _ (by decide), h3]
    show _ ≤ 512
    simp only [List.map_cons, List.map_nil, List.sum_cons, List.sum_nil]
    omega
  · rw [inputBytes_load _ (by decide +kernel), distinctCount_text129]; decide
  · rw [inputBytes_load _ (by rw [length_text64]; decide), distinctCount_text64]; decide
  · rw [inputBytes_load _ (by rw [length_text64]; decide), distinctCount_text64]
    have h32 : text64.length < 2 ^ 32 := by rw [length_text64]; decide
    obtain ⟨L, codes, hL, -, -, hp⟩ := buildLengths_countTable (input := text64) (by decide +kernel)
      (by rw [length_text64]; decide)
    refine ⟨L, hL, ?_⟩
    have hn : (lenPairs L).length = 64 := by
      have := hp.length_eq
      rwa [List.length_map, length_presentSymbols_countTable h32, distinctCount_text64] at this
    have hk := kraftSum_buildLengths hL
    rw [length_presentSymbols_countTable h32, distinctCount_text64, if_neg (by decide)] at hk
    have hs : ((allSymbols.take 64).map fun b => (tableAt L b).toNat).sum =
        ((lenPairs L).map fun e => e.len.toNat).sum := by
      have hq : ((lenPairs L).map (·.sym)).Perm (allSymbols.take 64) :=
        hp.trans ((List.perm_ext_iff_of_nodup (nodup_presentSymbols _) nodup_take64).2 fun b => by
          rw [mem_presentSymbols_countTable h32, mem_text64])
      rw [← (hq.map _).sum_eq, List.map_map]
      exact congrArg List.sum (List.map_congr_left fun e he => by
        show (tableAt L e.sym).toNat = _
        rw [← (mem_lenPairs.1 he).1])
    have hle := le_sum_lengths (lenPairs L)
    rw [hk, hn] at hle
    rw [sum_text64, hs]
    show 512 < _
    omega
/-- The same input over other tables. -/
theorem witness_EncodeDependsOnlyOnTheInput :
    let s := load [0x41] start
    let u := load [0x41] (coded alphaAB [0, 1])
    u.bufBytes = s.bufBytes ∧ u.inLen = s.inLen ∧ inputBytes u = inputBytes s ∧ u.alphaN ≠ s.alphaN ∧
      ∃ t v, exec .encode s = .next t ∧ exec .encode u = .next v :=
  ⟨rfl, rfl, rfl, by decide +kernel, _, _, rfl, rfl⟩
theorem witness_DecodeWritesTablesAndText :
    ∃ (s : State) (es ps : List AlphaEntry) (codes : List Nat) (p n : Nat) (bits : BitStr) (out : List Byte),
      bufBytesAdmitted s.bufBytes = true ∧ s.inLen.toNat ≤ s.bufBytes ∧ 2 ≤ s.inLen.toNat ∧
      p = (s.ibuf.read 0).toNat ∧ n = (s.ibuf.read 1).toNat ∧ p ≤ 7 ∧ n ≤ 128 ∧ 2 + 2 * n ≤ s.inLen.toNat ∧
      (s.inLen.toNat = 2 + 2 * n → p = 0) ∧
      es = (List.range n).map (fun k => ⟨s.ibuf.read (2 + n + k), s.ibuf.read (2 + k)⟩) ∧
      checkTable es = .ok (ps, codes) ∧
      bits = (List.range (8 * (s.inLen.toNat - 2 - 2 * n) - p)).map (fun k => payloadBit s.ibuf (2 + 2 * n) k) ∧
      matchAll ps (codeTableOf ps codes) (maxLenOf ps).toNat s.bufBytes bits = .ok out := by
  obtain ⟨h1, h2, h3, h4, h5, h6, h7, h8, h9, h10, h11⟩ := accepted_container
  exact ⟨load containerAB start, alphaAB, alphaAB, [0, 1], 6, 2, [false, true], [0x41, 0x42], h1, h2, h3, h4, h5, h6, h7,
    h8, h9, h10, h11, by decide +kernel, by decide +kernel⟩
theorem witness_StagedAndCompositeCommandsAgree :
    (∃ s a b c d : State, s.inLen ≠ 0 ∧ exec .count s = .next a ∧ a.statusCode = .ok ∧ exec .build a = .next b ∧
      b.statusCode = .ok ∧ exec .assign b = .next c ∧ c.statusCode = .ok ∧ exec .serialize c = .next d ∧
      d.statusCode = .ok) ∧
    (∃ s a b : State, exec .deserialize s = .next a ∧ a.statusCode = .ok ∧ exec .matchBits a = .next b ∧
      b.statusCode = .ok) ∧
    (∃ s a : State, exec .deserialize s = .next a ∧ a.statusCode ≠ .ok) ∧
    (∃ s a b : State, exec .deserialize s = .next a ∧ a.statusCode = .ok ∧ exec .matchBits a = .next b ∧
      b.statusCode ≠ .ok) := by
  refine ⟨?_, ⟨load containerAB start, after .deserialize (load containerAB start), ?_⟩,
    ⟨load [0x05] start, _, rfl, by decide +kernel⟩,
    ⟨load [0x00, 0x01, 0x01, 0x41, 0x80] start, after .deserialize (load [0x00, 0x01, 0x01, 0x41, 0x80] start), ?_⟩⟩
  · obtain ⟨L, codes, hL, hc, hne, hp, -⟩ := encodeStages_nonempty (s := load [0x41] start) (by decide) (by decide)
      (by decide)
    rw [inputBytes_load _ (by decide)] at hL hp
    have hcov : Covered (lenPairs L) [0x41] := covered_of_perm (by decide) hp
    have hn : (lenPairs L).length = 1 := by
      have := hp.length_eq
      rwa [List.length_map, length_presentSymbols_countTable (by decide)] at this
    have run : ∀ (i : Instr) (s u : State), i ≠ .matchBits → stageOf i s = .ok u →
        exec i s = .next (complete .ok 0 u) := fun i s u hi hu => by
      rw [exec_eq i s (fun h => absurd h hi), hu, completion_ok]
    let a := complete .ok 0 { load [0x41] start with freq := countTable [0x41] }
    let b := complete .ok 0 { clearCode a with len := L }
    let c := complete .ok 0 (installCode (lenPairs L) codes b)
    have ha : alphabet c = lenPairs L := alphabet_installCode (by omega) codes b
    have hin : inputBytes c = [0x41] := inputBytes_load _ (by decide) start
    refine ⟨load [0x41] start, a, b, c, complete .ok 0 (serialized ([0x41].flatMap (wordOf (lenPairs L) c.code)) c), by decide, run _ _ _ (by decide) ?_, rfl,
      run _ _ _ (by decide) ((stageOf_build a).trans ((buildStage_ok_iff (s := a)).2 ⟨L, hL, rfl⟩)), rfl,
      run _ _ _ (by decide) ((stageOf_assign b).trans ((assignStage_ok_iff (s := b)).2 ⟨hne, codes, hc, rfl⟩)), rfl,
      run _ _ _ (by decide) ((stageOf_serialize c).trans ((serializeStage_ok_iff (s := c)).2 ⟨?_, ?_, _, ?_, ?_, rfl⟩)), rfl⟩
    · refine (stageOf_count _).trans ((countStage_ok_iff (s := load [0x41] start)).2 ⟨show 1 ≤ 512 by decide, ?_⟩)
      rw [inputBytes_load [0x41] (by decide) start]
    · show 1 ≤ 512; decide
    · show (BitVec.ofNat 9 (lenPairs L).length).toNat ≤ 128
      rw [hn]; decide
    · rw [ha, hin]; exact encodeFrom_covered hcov
    · rw [ha, length_containerBytes, hn]
      have hl := length_flatMap_wordOf (L := L) (code := c.code) (fun e he => (mem_lenPairs.1 he).1) hcov
      have := (tableAt L 0x41).isLt
      show _ ≤ 512
      rw [hl]
      simp only [List.map_cons, List.map_nil, List.sum_cons, List.sum_nil]
      omega
  · exact ⟨_, rfl, by decide +kernel, rfl, by decide +kernel⟩
  · exact ⟨_, rfl, by decide +kernel, rfl, by decide +kernel⟩

/-- DS9's container with other padding bits: DS15. -/
theorem witness_PaddingBitsAreIgnored :
    let s := load containerAB start
    let u := load [0x06, 0x02, 0x01, 0x01, 0x41, 0x42, 0x7F] start
    u.bufBytes = s.bufBytes ∧ u.inLen = s.inLen ∧ 2 + 2 * (s.ibuf.read 1).toNat < s.inLen.toNat ∧
      (∀ a, a < 6 → u.ibuf.read a = s.ibuf.read a) ∧ u.ibuf.read 6 ≠ s.ibuf.read 6 ∧
      (∀ j, j < 8 → 6 ≤ j → (u.ibuf.read 6).getLsbD j = (s.ibuf.read 6).getLsbD j) ∧
      ∃ t v, exec .decode s = .next t ∧ exec .decode u = .next v :=
  ⟨rfl, rfl, by decide +kernel, by decide +kernel, by decide +kernel, by decide +kernel, _, _, rfl, rfl⟩
theorem witness_DecodeOfEncodeIsTheInput :
    (∃ t, bufBytesAdmitted (load [0x41] start).bufBytes = true ∧ 1 ≤ (load [0x41] start).inLen.toNat ∧
      (load [0x41] start).inLen.toNat ≤ (load [0x41] start).bufBytes ∧ exec .encode (load [0x41] start) = .next t ∧
      t.statusCode = .ok ∧ (reloaded t).bufBytes = (load [0x41] start).bufBytes ∧ (reloaded t).inLen = t.outLen ∧
      ∀ a, a < t.outLen.toNat → (reloaded t).ibuf.read a = t.obuf.read a) ∧
    (∃ t, exec .encode (load text129 start) = .next t ∧ t.statusCode = .alphabetTooLarge) := by
  constructor
  · obtain ⟨L, codes, hL, hc, hne, hp, he⟩ := encodeStages_nonempty (s := load [0x41] start) (by decide) (by decide)
      (by decide)
    rw [inputBytes_load _ (by decide)] at hL hp
    have hcov : Covered (lenPairs L) [0x41] := covered_of_perm (by decide) hp
    have hn : (lenPairs L).length = 1 := by
      have := hp.length_eq
      rwa [List.length_map, length_presentSymbols_countTable (by decide)] at this
    have ha := alphabet_of_holdsCode (holdsCode_encodedTables (s := load [0x41] start) hc hne)
    have hs : stageOf .encode (load [0x41] start) = .ok (serialized ([0x41].flatMap (wordOf (lenPairs L)
        (codeTableOf (lenPairs L) codes))) (encodedTables (load [0x41] start) L codes)) := by
      rw [stageOf_encode, he]
      refine serializeStage_ok_iff.2 ⟨show 1 ≤ 512 by decide, ?_, _, ?_, ?_, rfl⟩
      · show (BitVec.ofNat 9 (lenPairs L).length).toNat ≤ 128
        rw [hn]; decide
      · rw [ha, show inputBytes (encodedTables (load [0x41] start) L codes) = [0x41] from
          inputBytes_load [0x41] (by decide) start]
        exact encodeFrom_covered hcov
      · rw [ha, length_containerBytes, hn]
        have hl := length_flatMap_wordOf (L := L) (code := codeTableOf (lenPairs L) codes)
          (fun e he => (mem_lenPairs.1 he).1) hcov
        have := (tableAt L 0x41).isLt
        show _ ≤ 512
        rw [hl]
        simp only [List.map_cons, List.map_nil, List.sum_cons, List.sum_nil]
        omega
    have hx := exec_eq .encode (load [0x41] start) (by simp)
    rw [hs, completion_ok] at hx
    exact ⟨_, by decide, by decide, by decide, hx, rfl, bufBytes_reloaded _, inLen_reloaded _,
      fun a _ => by rw [ibuf_reloaded]⟩
  obtain ⟨L, codes, hL, hc, hne, hp, he⟩ := encodeStages_nonempty (s := load text129 start) (by decide)
    (by decide +kernel) (by decide +kernel)
  rw [inputBytes_load _ (by decide +kernel)] at hp
  have hn : (lenPairs L).length = 129 := by
    have := hp.length_eq
    rwa [List.length_map, length_presentSymbols_countTable (by decide +kernel), distinctCount_text129] at this
  have hs : stageOf .encode (load text129 start) = .error ⟨.alphabetTooLarge,
      (encodedTables (load text129 start) L codes).alphaN.setWidth 32⟩ := by
    rw [stageOf_encode, he]
    refine serializeStage_error_iff.2 (.inr (.inl ⟨?_, ?_, rfl⟩))
    · show (load text129 start).inLen.toNat ≤ 512
      decide +kernel
    · show 128 < (BitVec.ofNat 9 (lenPairs L).length).toNat
      rw [hn]; decide
  refine ⟨_, exec_eq .encode _ (by simp), ?_⟩
  rw [hs, completion_error_output rfl]
  rfl
theorem witness_SingleSymbolRoundTrip :
    let s := load [0x41, 0x41, 0x41] start
    bufBytesAdmitted s.bufBytes = true ∧ 1 ≤ s.inLen.toNat ∧ s.inLen.toNat ≤ s.bufBytes ∧
      ∀ a, a < s.inLen.toNat → s.ibuf.read a = 0x41 := by decide +kernel
theorem witness_EveryStepKeepsTheInvariant : ∃ t, Inv pending ∧ step pending = .next t := ⟨_, inv_pending, rfl⟩
theorem witness_EveryStepKeepsTablesCoherent :
    ∃ t, TablesCoherent (coded alphaAB [0, 1]) ∧ step (asking (.ldw 0x0C00) (coded alphaAB [0, 1])) = .next t :=
  ⟨_, coherent_AB, rfl⟩
theorem witness_NoRunFaults : Inv pending := inv_pending
/-- A state with the interrupt pending. -/
def raised : State := { start with ie := true, done := true }

theorem inv_enabled (enable : Bool) : Inv { pending with ie := enable } := by
  cases enable
  · exact inv_busWrite (off := 0x000C) inv_pending (by decide) 0
  · exact inv_busWrite (off := 0x000C) inv_pending (by decide) 1

/-- Both waits, IDLE and BUSY, IRQ 0 and 1; the runs with the interrupt enabled and masked. -/
theorem witness_WaitEndsAfterTheCompletion :
    (HostActs (asking .wait busy) .wait busy ∧ (asking .wait busy).eng = .busy) ∧
    (HostActs (asking .wait start) .wait start ∧ (asking .wait start).eng = .idle) ∧
    (HostActs (asking .waitIrq start) .waitIrq start ∧ (start.ie && start.done) = false) ∧
    (HostActs (asking .waitIrq raised) .waitIrq raised ∧ (raised.ie && raised.done) = true) ∧
    ∀ op ∈ [HostOp.wait, .waitIrq], ∀ enable,
      let s := { pending with ie := enable, host := [op, .ldw 0x001C], sched := [.host, .host, .engine, .host] }
      Inv s ∧ s.eng = .busy ∧ s.host = op :: [.ldw 0x001C] ∧ s.sched = List.replicate 2 .host ++ [.engine, .host] :=
  ⟨⟨hostActs_busy _, rfl⟩, ⟨hostActs_start _, rfl⟩, ⟨hostActs_start _, rfl⟩,
    ⟨⟨[], rfl, .inl ⟨[], rfl, rfl⟩⟩, rfl⟩, fun _ _ enable => ⟨(inv_enabled enable).environment _ _ _, rfl, rfl, rfl⟩⟩
theorem witness_DoubleCommandRaceHasBothOutcomes :
    (∀ sched ∈ [[Turn.host, .engine, .host], [.host, .host]],
      Inv { start with host := [.stw 0x0010 1, .stw 0x0010 2], sched := sched }) ∧ start.eng = .idle :=
  ⟨fun _ _ => inv_start.environment _ _ _, rfl⟩

end Sys2Proof.Tests
end

/-! PROOFS. The family 10_state.md. A predicate is kept by every step once host operations, completions and the hard
reset keep it; table coherence and the invariant are two such predicates. Then the output buffer after an output
command, and the registers and windows as host reads show them. -/

namespace Sys2Proof.Machine

/-! ### What every step keeps -/

/-- The induction step of every invariant: a predicate that does not look at the environment and that host operations,
completions and the hard reset keep is kept by every step (60_exceptions.md R150). -/
theorem step_keeps {P : State → Prop}
    (environment : ∀ {s : State} host sched, P s → P { s with host := host, sched := sched })
    (hostOp : ∀ {op s t}, P s → runHostOp op s = .next t → P t)
    (command : ∀ {i s t}, P s → exec i s = .next t → P t)
    (illegal : ∀ {s}, P s → P (completeIllegal s))
    (reset : ∀ {s}, P s → P (hardReset s))
    {s t : State} (hs : P s) (h : step s = .next t) : P t := by
  rcases step_cases s with ⟨op, s', ha, he⟩ | ⟨i, s', ha, -, he⟩ | ⟨s', ha, -, he⟩ | ⟨turns, -, he⟩ | ⟨turns, -, he⟩ <;>
    rw [he] at h
  · obtain ⟨host, sched, rfl⟩ := ha.environment
    exact hostOp (environment host sched hs) h
  · obtain ⟨sched, rfl⟩ := ha.environment
    exact command (environment s.host sched hs) h
  · obtain ⟨sched, rfl⟩ := ha.environment
    exact Host.Outcome.next.inj h ▸ illegal (environment s.host sched hs)
  · exact Host.Outcome.next.inj h ▸ reset (environment s.host turns hs)
  · exact Host.Outcome.next.inj h ▸ environment s.host turns hs

/-! ### The invariant -/

/-- Settles O56: every agent's turn keeps `Inv`. -/
theorem everyStepKeepsTheInvariant : Obligations.EveryStepKeepsTheInvariant := fun _ _ =>
  step_keeps (fun {s} host sched hs => hs.environment host s.reads sched) inv_runHostOp inv_exec inv_completeIllegal
    fun hs => inv_hardReset hs.admitted

/-- The open choice of BUF_BYTES is an admitted value (00_scope.md R8). -/
theorem bufBytesAdmitted_config : bufBytesAdmitted Config.bufBytes = true := by
  rw [bufBytesAdmitted_iff, Config.bufBytes, Config.BufChoice.bytes]
  have := Config.bufChoice.extra.isLt
  omega

/-- Settles O55. -/
theorem resetSatisfiesTheInvariant : Obligations.ResetSatisfiesTheInvariant := inv_afterReset bufBytesAdmitted_config

/-! ### Table coherence -/

theorem coherent_afterReset (n d : Nat) : TablesCoherent (State.afterReset n d) :=
  .inl ⟨rfl, tableAt_replicate _, tableAt_replicate _, rfl⟩

theorem coherent_softReset (s : State) : TablesCoherent (softReset s) :=
  coherent_congr (coherent_afterReset s.bufBytes s.draws) rfl rfl rfl rfl rfl

/-- A completion keeps the tables coherent: an OK one commits the pseudocode's tables, an error none. -/
theorem coherent_exec {i : Instr} {s t : State} (hs : TablesCoherent s) (h : exec i s = .next t) :
    TablesCoherent t := by
  rw [exec_next h]
  cases hr : stageOf i s with
  | ok u =>
    rw [completion_ok]
    exact coherent_congr (coherent_stageOf hs hr) rfl rfl rfl rfl rfl
  | error f =>
    cases ho : isOutputCommand i with
    | true =>
      rw [completion_error_output ho]
      exact coherent_congr hs rfl rfl rfl rfl rfl
    | false =>
      rw [completion_error ho]
      exact coherent_congr hs rfl rfl rfl rfl rfl

/-- The soft reset is the only host write that reaches the tables. -/
theorem coherent_busWrite {s : State} (hs : TablesCoherent s) {off : Nat} (ha : off % 4 = 0) (v : Word) :
    TablesCoherent (busWrite off v s) := by
  rcases busWrite_cases off v s ha with he | he | ⟨b, he⟩ | ⟨-, he⟩ | ⟨-, he⟩ | he | ⟨-, he⟩ | ⟨a, -, -, -, he⟩ <;> rw [he]
  case inr.inl => exact coherent_softReset s
  all_goals exact coherent_congr hs rfl rfl rfl rfl rfl

theorem coherent_afterRead {s : State} (hs : TablesCoherent s) (off : Nat) : TablesCoherent (afterRead s off) := by
  unfold afterRead
  split
  · exact coherent_congr hs rfl rfl rfl rfl rfl
  · exact hs

theorem coherent_runHostOp {op : HostOp} {s t : State} (hs : TablesCoherent s) (h : runHostOp op s = .next t) :
    TablesCoherent t := by
  rcases runHostOp_cases h with ⟨off, v, -, ha, -, rfl⟩ | ⟨off, -, -, -, rfl⟩ | rfl | rfl
  · exact coherent_busWrite hs ha v
  · exact coherent_congr (coherent_afterRead hs off) rfl rfl rfl rfl rfl
  · exact hs
  · exact coherent_congr hs rfl rfl rfl rfl rfl

/-- Settles O57: the reset state's tables are cleared, and every agent's turn keeps coherence. -/
theorem everyStepKeepsTablesCoherent : Obligations.EveryStepKeepsTablesCoherent :=
  ⟨coherent_afterReset _ _, fun _ _ =>
    step_keeps (fun _ _ hs => coherent_congr hs rfl rfl rfl rfl rfl) coherent_runHostOp coherent_exec
      (fun hs => coherent_congr hs rfl rfl rfl rfl rfl) fun {s} _ => coherent_afterReset s.bufBytes s.draws⟩

/-! ### The output of an output command -/

/-- `t` holds an output of at most BUF_BYTES bytes in the OBUF of a fresh draw of `s` (10_state.md R35, R49). -/
def StoresOutput (s t : State) : Prop :=
  ∃ out : List Byte, out.length ≤ s.bufBytes ∧ t.outLen = BitVec.ofNat 32 out.length ∧
    t.obuf = Memory.ofBytes s.draws out ∧ t.draws = s.draws + 1

theorem StoresOutput.of_same {s u t : State} (h : StoresOutput u t) (hb : u.bufBytes = s.bufBytes)
    (hd : u.draws = s.draws) : StoresOutput s t := by
  rwa [StoresOutput, hb, hd] at h

theorem storesOutput_serializeStage {s t : State} (h : serializeStage s = .ok t) : StoresOutput s t := by
  obtain ⟨-, -, bits, -, hl, rfl⟩ := serializeStage_ok_iff.1 h
  exact ⟨containerBytes (alphabet s) bits, hl, by simp, by simp, by simp⟩

theorem storesOutput_matchStage {s t : State} (h : matchStage s = .ok t) : StoresOutput s t := by
  obtain ⟨out, ho, rfl⟩ := matchStage_ok_iff.1 h
  exact ⟨out, matchAll_length ho, rfl, rfl, rfl⟩

theorem draws_countStage {s t : State} (h : countStage s = .ok t) : t.draws = s.draws := by
  obtain ⟨-, rfl⟩ := countStage_ok_iff.1 h
  rfl

theorem draws_encodeTables {s t : State} (h : encodeTables s = .ok t) : t.draws = s.draws := by
  rw [encodeTables] at h
  split at h
  · exact Except.ok.inj h ▸ rfl
  · obtain ⟨u, hb, ha⟩ := thenStage_ok_iff.1 h
    obtain ⟨L, -, rfl⟩ := buildStage_ok_iff.1 hb
    obtain ⟨-, codes, -, rfl⟩ := assignStage_ok_iff.1 ha
    rfl

theorem draws_deserializeStage {s t : State} (h : deserializeStage s = .ok t) : t.draws = s.draws := by
  obtain ⟨-, hd, ps, codes, -, -, rfl⟩ := deserializeStage_ok_iff.1 h
  rfl

/-- Every output command's pseudocode stores an output: ENCODE's by SERIALIZE, DECODE's by MATCH. -/
theorem storesOutput_stageOf {i : Instr} (hi : isOutputCommand i = true) {s t : State} (h : stageOf i s = .ok t) :
    StoresOutput s t := by
  cases i with
  | nop | count | build | assign | deserialize => simp [isOutputCommand] at hi
  | serialize => exact storesOutput_serializeStage h
  | matchBits => exact storesOutput_matchStage h
  | encode =>
    obtain ⟨u, htables, hser⟩ := thenStage_ok_iff.1 h
    obtain ⟨v, hcount, htab⟩ := thenStage_ok_iff.1 htables
    have same := (sameInputs_countStage hcount).trans (sameInputs_encodeTables htab)
    exact (storesOutput_serializeStage hser).of_same same.bufBytes
      ((draws_encodeTables htab).trans (draws_countStage hcount))
  | decode =>
    obtain ⟨u, hdes, hmatch⟩ := thenStage_ok_iff.1 h
    exact (storesOutput_matchStage hmatch).of_same (sameInputs_deserializeStage hdes).bufBytes
      (draws_deserializeStage hdes)

/-- Settles O17: OBUF is the stored output, whose bytes are exactly the specified ones. -/
theorem outputBytesBeyondOutLenAreUnspecified : Obligations.OutputBytesBeyondOutLenAreUnspecified := by
  intro i s t hi hb h hok
  obtain ⟨u, hu, rfl⟩ := exec_ok h hok
  obtain ⟨out, hl, hlen, hobuf, hdraws⟩ := storesOutput_stageOf hi hu
  have hout : (complete .ok 0 u).outLen.toNat = out.length := by
    rw [complete_outLen, hlen, BitVec.toNat_ofNat, Nat.mod_eq_of_lt (by omega)]
  rw [hout, complete_draws, complete_obuf, hobuf, hdraws]
  refine ⟨hl, Nat.lt_succ_self _, fun a ha => ?_, fun a ha => Memory.read_ofBytes_ge ha⟩
  rw [Memory.lookup_ofBytes, List.getElem?_eq_getElem ha]
  rfl

/-! ### Registers and windows as the host sees them -/

/-- A host read of ID to IN_LEN, idle or BUSY, records the exact word and changes nothing else
(70_reset_and_hazards.md R167). -/
theorem step_ldw_register {s s' : State} {off : Nat} (h : HostActs s (.ldw off) s') (h1 : off % 4 = 0)
    (h2 : off < 0x001C) : step s = .next { s' with reads := exactRead s off :: s.reads } := by
  rw [step_ldw h h1 (by omega)]
  obtain ⟨hread, hafter⟩ := busRead_exact (readIsFree_register s' h2)
  rw [hread, hafter]
  obtain ⟨host, sched, rfl⟩ := h.environment
  rfl

theorem exactRead_status (s : State) : exactRead s 0x0014 = statusWord s := rfl

theorem exactRead_ctrl (s : State) : exactRead s 0x000C = ctrlWord s := rfl

theorem busWrite_status (v : Word) (s : State) : busWrite 0x0014 v s = writeStatus v s := rfl

theorem busWrite_ctrl (v : Word) (s : State) : busWrite 0x000C v s = writeCtrl v s := rfl

theorem statusWord_reset : statusWord State.reset = 0 := by decide

/-- Settles O7. -/
theorem statusReadsAndClears : Obligations.StatusReadsAndClears := by
  refine ⟨fun s s' h => ?_, fun s s' v h => ?_, statusWord_reset, rfl, rfl, rfl, rfl, rfl, rfl, rfl, rfl, rfl, rfl, rfl,
    rfl⟩
  · have fields := statusWord_fields s
    rw [statusErr_eq] at fields
    exact ⟨_, _, step_ldw_register h (by decide) (by decide), rfl, fields⟩
  · rw [step_stw h (by decide) (by decide), busWrite_status]
    obtain ⟨host, sched, rfl⟩ := h.environment
    rfl

/-- The fields of the CTRL word (10_state.md R26). -/
theorem ctrlWord_fields (s : State) : (ctrlWord s)[0] = s.ie ∧ (ctrlWord s).extractLsb' 1 31 = 0 := by
  unfold ctrlWord
  cases s.ie <;> decide

/-- Settles O8. -/
theorem ctrlReadsAndWrites : Obligations.CtrlReadsAndWrites := by
  refine ⟨fun s s' h => ?_, fun s s' v h => ?_, rfl⟩
  · exact ⟨_, _, step_ldw_register h (by decide) (by decide), rfl, ctrlWord_fields s⟩
  · rw [step_stw h (by decide) (by decide), busWrite_ctrl, writeCtrl, BitVec.getLsbD_eq_getElem (by decide : 1 < 32)]
    constructor
    · intro hv
      rw [hv]
      rfl
    · intro hv
      rw [hv]
      exact ⟨_, rfl, rfl, rfl⟩

theorem idWord_eq : idWord = 0x48554646 := rfl

theorem paramWord_eq : paramWord = 0x0001807F := by decide

/-- Settles O12: no read is free at reset, so each gives the register's reset value. -/
theorem resetStateReadsAsSpecified : Obligations.ResetStateReadsAsSpecified := by
  have exact_read (off : Nat) : busRead State.reset off = exactRead State.reset off :=
    (busRead_exact (readIsFree_idle rfl off)).1
  unfold Obligations.ResetStateReadsAsSpecified
  simp only [exact_read]
  exact ⟨rfl, idWord_eq, paramWord_eq, rfl, by decide, statusWord_reset, rfl, rfl, rfl, rfl, rfl, rfl, rfl, rfl,
    tableAt_replicate _, tableAt_replicate _, tableAt_replicate _, tableAt_replicate _, rfl⟩

/-- A codeword value is its four 32-bit words, least significant first. -/
theorem toNat_codeWord_eq_words (c : CodeWord) :
    c.toNat = (c.extractLsb' 0 32).toNat + 2 ^ 32 * (c.extractLsb' 32 32).toNat +
      2 ^ 64 * (c.extractLsb' 64 32).toNat + 2 ^ 96 * (c.extractLsb' 96 32).toNat := by
  simp only [BitVec.extractLsb'_toNat, Nat.shiftRight_eq_div_pow]
  have := c.isLt
  omega

/-- Settles O23. -/
theorem tableWindowsReadTheTables : Obligations.TableWindowsReadTheTables := by
  refine ⟨fun s s' off h => step_ldw_idle h, fun s => ?_, fun s b => ?_⟩
  · obtain ⟨hid, hparam, hbuf, hcmd, hin, hout, herr, halpha, hmax, hpad, hoff, hbits⟩ := exactRead_registers s
    refine ⟨hid.trans idWord_eq, hparam.trans paramWord_eq, hbuf, hcmd, hin, hout, herr, ?_, ?_, ?_, hoff, hbits⟩
    · rw [halpha, BitVec.toNat_setWidth_of_le (by decide)]
    · rw [hmax, BitVec.toNat_setWidth_of_le (by decide)]
    · rw [hpad, BitVec.toNat_setWidth_of_le (by decide)]
  · refine ⟨exactRead_freq s b, ?_, ?_, ?_⟩
    · rw [exactRead_len, BitVec.toNat_setWidth_of_le (by decide)]
    · rw [exactRead_alpha, toNat_alphaWord]
    · have word0 : exactRead s (0x1000 + 16 * b.toNat) = (tableAt s.code b).extractLsb' 0 32 :=
        exactRead_code s b (j := 0) (by decide)
      rw [word0, exactRead_code s b (j := 1) (by decide), exactRead_code s b (j := 2) (by decide),
        exactRead_code s b (j := 3) (by decide)]
      exact toNat_codeWord_eq_words _

end Sys2Proof.Machine

/-! PROOFS. The family 20_memory.md. First which host accesses have a step; then what a read records and what a write
does in each range of the window, from which the statements about accesses follow; last, that no run faults. -/

namespace Sys2Proof.Machine

/-! ### Taking an operation off the host's list leaves the block alone -/

section HostActs
variable {s s' : State} {op : HostOp} (h : HostActs s op s')
include h

theorem HostActs.eng_eq : s'.eng = s.eng := by
  obtain ⟨host, sched, rfl⟩ := h.environment
  rfl

theorem HostActs.bufBytes_eq : s'.bufBytes = s.bufBytes := by
  obtain ⟨host, sched, rfl⟩ := h.environment
  rfl

theorem HostActs.ibuf_eq : s'.ibuf = s.ibuf := by
  obtain ⟨host, sched, rfl⟩ := h.environment
  rfl

theorem HostActs.draws_eq : s'.draws = s.draws := by
  obtain ⟨host, sched, rfl⟩ := h.environment
  rfl

theorem HostActs.reads_eq : s'.reads = s.reads := by
  obtain ⟨host, sched, rfl⟩ := h.environment
  rfl

theorem HostActs.readIsFree_eq (off : Nat) : readIsFree s' off = readIsFree s off := by
  obtain ⟨host, sched, rfl⟩ := h.environment
  rfl

theorem HostActs.exactRead_eq (off : Nat) : exactRead s' off = exactRead s off := by
  obtain ⟨host, sched, rfl⟩ := h.environment
  rfl

end HostActs

/-! ### Which accesses have a step -/

/-- A 32-bit access that has a step is aligned and inside the window: every other one is refused (20_memory.md R56). -/
theorem HostActs.accessible {s s' t : State} {op : HostOp} {off : Nat} (h : HostActs s op s')
    (hop : op = .ldw off ∨ ∃ v, op = .stw off v) (ht : step s = .next t) : off % 4 = 0 ∧ off < 0x04000000 := by
  rw [step_host h] at ht
  rw [← accessRefusal_none_iff]
  cases hr : accessRefusal off with
  | none => rfl
  | some r => rcases hop with rfl | ⟨v, rfl⟩ <;> simp [runHostOp, hr] at ht

/-- Settles O21. -/
theorem onlyAlignedWordAccessesHaveAStep : Obligations.OnlyAlignedWordAccessesHaveAStep :=
  ⟨fun _ _ _ v h => ⟨fun ⟨_, ht⟩ => h.accessible (.inr ⟨v, rfl⟩) ht, fun ⟨ha, hw⟩ => ⟨_, step_stw h ha hw⟩⟩,
    fun _ _ _ h => ⟨fun ⟨_, ht⟩ => h.accessible (.inl rfl) ht, fun ⟨ha, hw⟩ => ⟨_, step_ldw h ha hw⟩⟩,
    fun _ _ _ _ _ h => step_host h⟩

/-! ### Reads -/

/-- A host read draws a free value or changes nothing (20_memory.md R59, log 7). -/
theorem afterRead_eq (s : State) (off : Nat) :
    afterRead s off = { s with draws := if readIsFree s off then s.draws + 1 else s.draws } := by
  unfold afterRead
  split <;> rfl

/-- Settles O20. -/
theorem readsHaveNoSideEffect : Obligations.ReadsHaveNoSideEffect := by
  constructor
  · intro s s' t off h ht
    obtain ⟨ha, hw⟩ := h.accessible (.inl rfl) ht
    rw [step_ldw h ha hw, afterRead_eq, h.readIsFree_eq, Host.Outcome.next.injEq] at ht
    subst ht
    exact ⟨rfl, fun hfree => (if_neg (Bool.eq_false_iff.1 hfree)).trans h.draws_eq⟩
  · intro s t u off rest he hq hh ht hu
    have first : HostActs s (.ldw off) { s with host := .ldw off :: rest } := ⟨_, hh, .inr ⟨hq, he, rfl⟩⟩
    obtain ⟨ha, hw⟩ := first.accessible (.inl rfl) ht
    rw [step_ldw_idle first he ha hw, Host.Outcome.next.injEq] at ht
    subst ht
    have second : HostActs { s with host := .ldw off :: rest, reads := exactRead s off :: s.reads } (.ldw off)
        { s with host := rest, reads := exactRead s off :: s.reads } := ⟨rest, rfl, .inr ⟨hq, he, rfl⟩⟩
    rw [step_ldw_idle second he ha hw, Host.Outcome.next.injEq] at hu
    exact ⟨exactRead s off, hu ▸ rfl⟩

/-- Every offset outside the result registers, the tables and OBUF reads exactly, BUSY or not
(70_reset_and_hazards.md R167). -/
theorem readIsFree_eq_false {s : State} {off : Nat} (hr : ¬ (0x001C ≤ off ∧ off < 0x0038))
    (ht : ¬ (0x0400 ≤ off ∧ off < 0x2000)) (ho : ¬ (0x02000000 ≤ off ∧ off < 0x02000000 + s.bufBytes)) :
    readIsFree s off = false := by
  rw [readIsFree, volatileOffset, Bool.and_eq_false_iff]
  refine .inr (decide_eq_false ?_)
  unfold inWindow obufBase
  omega

/-- A host read of a word that is not free records the exact word and changes nothing else. -/
theorem step_ldw_exact {s s' : State} {off : Nat} (h : HostActs s (.ldw off) s') (ha : off % 4 = 0)
    (hw : off < 0x04000000) (hf : readIsFree s off = false) :
    step s = .next { s' with reads := exactRead s off :: s.reads } := by
  obtain ⟨hread, hafter⟩ := busRead_exact ((h.readIsFree_eq off).trans hf)
  rw [step_ldw h ha hw, hread, hafter, h.exactRead_eq, h.reads_eq]

/-! ### Writes -/

theorem busWrite_cmd (v : Word) (s : State) : busWrite 0x0010 v s = writeCmd v s := rfl

theorem busWrite_inLen (v : Word) (s : State) : busWrite 0x0018 v s = writeInLen v s := rfl

theorem busWrite_ibuf {s : State} {off : Nat} (v : Word) (h : ibufBase ≤ off ∧ off < ibufBase + s.bufBytes) :
    busWrite off v s = writeIbuf (off - ibufBase) v s := by
  have hlow : 0x01000000 ≤ off := h.1
  rw [busWrite, if_neg (by omega), if_neg (by omega), if_neg (by omega), if_neg (by omega), if_pos h]

/-- Every offset without a write effect (20_memory.md R57, R60). -/
theorem busWrite_ignored {s : State} {off : Nat} (v : Word) (hctrl : off ≠ 0x000C) (hcmd : off ≠ 0x0010)
    (hstatus : off ≠ 0x0014) (hlen : off ≠ 0x0018) (hibuf : ¬ (ibufBase ≤ off ∧ off < ibufBase + s.bufBytes)) :
    busWrite off v s = s := by
  rw [busWrite, if_neg hctrl, if_neg hcmd, if_neg hstatus, if_neg hlen, if_neg hibuf]

theorem writeIbuf_idle {s : State} (he : s.eng = .idle) (a : Nat) (v : Word) :
    writeIbuf a v s = { s with ibuf := s.ibuf.writeWord a v } := by
  rw [writeIbuf, he]

/-- A write of an operand while BUSY is dropped (20_memory.md R61). -/
theorem busWrite_busy {s : State} (he : s.eng = .busy) {off : Nat} (v : Word)
    (h : off = 0x0010 ∨ off = 0x0018 ∨ (ibufBase ≤ off ∧ off < ibufBase + s.bufBytes)) :
    busWrite off v s = dropWrite s := by
  rcases h with rfl | rfl | h
  · rw [busWrite_cmd, writeCmd, he]
  · rw [busWrite_inLen, writeInLen, he]
  · rw [busWrite_ibuf v h, writeIbuf, he]

/-- Settles O6: operand writes are dropped; STATUS and CTRL writes do what they do at all times. -/
theorem busyDropsOperandWrites : Obligations.BusyDropsOperandWrites := by
  intro s s' off v h he ha
  refine ⟨fun hb ho => ?_, ?_, ?_, ?_⟩
  · have hw : off < 0x04000000 := by
      have := (bufBytesAdmitted_iff.1 hb).2.2
      omega
    rw [step_stw h ha hw, busWrite_busy (h.eng_eq.trans he) v (h.bufBytes_eq ▸ ho), dropWrite]
  · rintro rfl
    exact statusReadsAndClears.2.1 s s' v h
  · rintro rfl
    exact (ctrlReadsAndWrites.2.1 s s' v h).1
  · rintro rfl hv
    obtain ⟨t, ht, rfl, -⟩ := (ctrlReadsAndWrites.2.1 s s' v h).2 hv
    exact ht

/-! ### Buffer words -/

theorem toNat_readWord (m : Memory) (a : Nat) :
    (m.readWord a).toNat = (m.read a).toNat + 2 ^ 8 * (m.read (a + 1)).toNat + 2 ^ 16 * (m.read (a + 2)).toNat +
      2 ^ 24 * (m.read (a + 3)).toNat :=
  toNat_append_bytes _ _ _ _

/-- Settles O22. -/
theorem bufferWordsAreLittleEndian : Obligations.BufferWordsAreLittleEndian := by
  constructor
  · intro s s' k v h he hb hk
    rw [← h.bufBytes_eq] at hb hk
    have hle := (bufBytesAdmitted_iff.1 hb).2.2
    rw [step_stw h (by omega) (by omega), busWrite_ibuf v ⟨Nat.le_add_right _ _, Nat.add_lt_add_left hk _⟩,
      Nat.add_sub_cancel_left, writeIbuf_idle (h.eng_eq.trans he)]
    refine ⟨_, rfl, rfl, fun j hj => ?_, fun a ha => ?_, ?_⟩
    · rw [Memory.read_writeWord, if_pos (by omega), Nat.add_sub_cancel_left, byteLane]
    · rw [Memory.read_writeWord, if_neg ha, h.ibuf_eq]
    · rw [exactRead_ibuf, readWord_writeWord]
      exact hk
  · intro s k hb hk
    rw [exactRead_ibuf hk, exactRead_obuf (bufBytesAdmitted_iff.1 hb).2.2 hk]
    exact ⟨toNat_readWord _ _, toNat_readWord _ _⟩

/-! ### Reserved offsets and fields -/

theorem toNat_ctrlWord_lt (s : State) : (ctrlWord s).toNat < 2 := by
  unfold ctrlWord
  cases s.ie <;> decide

/-- STATUS has bits 31:12 zero (10_state.md R28). -/
theorem toNat_statusWord_lt (s : State) : (statusWord s).toNat < 2 ^ 12 := by
  obtain ⟨-, -, -, -, -, -, high⟩ := statusWord_fields s
  have := congrArg BitVec.toNat high
  simp only [BitVec.extractLsb'_toNat, Nat.shiftRight_eq_div_pow, BitVec.ofNat_eq_ofNat, BitVec.toNat_ofNat] at this
  have := (statusWord s).isLt
  omega

/-- Settles O24. -/
theorem reservedReadsZeroAndIgnoresWrites : Obligations.ReservedReadsZeroAndIgnoresWrites := by
  refine ⟨fun s s' off v h ha hw hctrl hcmd hstatus hlen hibuf => ?_, fun s s' off h hb ha hoff => ?_, fun s => ?_⟩
  · rw [step_stw h ha hw, busWrite_ignored v hctrl hcmd hstatus hlen (h.bufBytes_eq ▸ hibuf)]
  · have hle := (bufBytesAdmitted_iff.1 hb).2.2
    have zero : exactRead s off = 0 := by
      rcases hoff with rfl | hoff
      · rfl
      · exact exactRead_reserved hle (by omega)
    rw [step_ldw_exact h ha (by omega) (readIsFree_eq_false (by omega) (by omega) (by omega)), zero]
  · obtain ⟨-, hparam, -, -, -, -, -, halpha, hmax, hpad, -, -⟩ := exactRead_registers s
    obtain ⟨-, -, -, -, reserved, -, -⟩ := statusWord_fields s
    rw [hparam, halpha, hmax, hpad, exactRead_ctrl, exactRead_status, BitVec.toNat_setWidth_of_le (by decide),
      BitVec.toNat_setWidth_of_le (by decide), BitVec.toNat_setWidth_of_le (by decide)]
    exact ⟨by decide, toNat_ctrlWord_lt s, reserved, toNat_statusWord_lt s, s.alphaN.isLt, s.maxLen.isLt, s.pad.isLt,
      fun off => exactRead_alpha_lt⟩

/-! ### Runs -/

/-- The payload range of a state in `Inv` lies inside IBUF, so MATCH does not fault, and nothing else can (log 13). -/
theorem Inv.step_ne_fault {s : State} (hs : Inv s) (f : Fault) : step s ≠ .fault f := by
  intro h
  obtain ⟨i, s', ha, -, hf⟩ := step_fault h
  obtain ⟨sched, rfl⟩ := ha.environment
  have outside : payloadInBuffer s = false := (exec_fault hf).2
  exact Bool.eq_false_iff.1 outside hs.payload

/-- Settles O58, by induction on the number of steps. -/
theorem noRunFaults : Obligations.NoRunFaults := by
  intro s hs n f
  induction n generalizing s with
  | zero => exact nofun
  | succ n ih =>
    intro h
    rcases run_succ_fault h with hf | ⟨t, ht, hf⟩
    · exact hs.step_ne_fault f hf
    · exact ih t (everyStepKeepsTheInvariant s t hs ht) hf

end Sys2Proof.Machine

/-! PROOFS. The family 30_encoding.md. The legal command words; the frame of every command, which its pseudocode has and
every completion keeps; and the two waits of a host, which go on through any number of polls while BUSY and end at the
first poll after the completion. -/

namespace Sys2Proof.Machine

/-! ### Command words -/

/-- Settles O1: each word of R72 is the word of its command. -/
theorem commandWordsDecode : Obligations.CommandWordsDecode :=
  ⟨decode_encode .nop, decode_encode .count, decode_encode .build, decode_encode .assign, decode_encode .serialize,
    decode_encode .deserialize, decode_encode .matchBits, decode_encode .encode, decode_encode .decode⟩

/-- Settles O2: the words that decode are those of value at most 8, and each command's word is its number. -/
theorem decodingSelectsExactlyTheLegalWords : Obligations.DecodingSelectsExactlyTheLegalWords := by
  refine ⟨fun i _ => decode_encode i, fun w i h => ?_, fun w => ?_⟩
  · obtain rfl := decode_ok_iff.1 h
    have := opOf_le i
    rw [toNat_encode]
    exact ⟨rfl, by omega⟩
  · rw [exists_decode_iff]
    omega

/-! ### The frame of every command -/

/-- From `s` to `t` nothing has changed but what command `i` may write (30_encoding.md R75, 10_state.md R35 to R45). -/
def WritesOnlyListed (i : Instr) (s t : State) : Prop :=
  (i ∉ [Instr.count, .encode] → t.freq = s.freq) ∧
  (i ∉ [Instr.build, .deserialize, .encode, .decode] → t.len = s.len) ∧
  (i ∉ [Instr.build, .assign, .deserialize, .encode, .decode] →
    t.alpha = s.alpha ∧ t.alphaN = s.alphaN ∧ t.code = s.code ∧ t.maxLen = s.maxLen) ∧
  (i ∉ [Instr.serialize, .deserialize, .encode, .decode] → t.pad = s.pad) ∧
  (i ∉ [Instr.deserialize, .decode] → t.payOff = s.payOff ∧ t.payBits = s.payBits) ∧
  (isOutputCommand i = false → t.outLen = s.outLen ∧ t.draws = s.draws ∧ ∀ a, t.obuf.read a = s.obuf.read a)

/-- The table stages of ENCODE locate no payload. -/
theorem payload_encodeTables {s t : State} (h : encodeTables s = .ok t) :
    t.payOff = s.payOff ∧ t.payBits = s.payBits := by
  rw [encodeTables] at h
  split at h
  · exact Except.ok.inj h ▸ ⟨rfl, rfl⟩
  · obtain ⟨u, hb, ha⟩ := thenStage_ok_iff.1 h
    obtain ⟨L, -, rfl⟩ := buildStage_ok_iff.1 hb
    obtain ⟨-, codes, -, rfl⟩ := assignStage_ok_iff.1 ha
    exact ⟨rfl, rfl⟩

/-- ENCODE locates no payload: of its stages only those for its tables and its container run. -/
theorem payload_encodeStages {s t : State} (h : encodeStages s = .ok t) :
    t.payOff = s.payOff ∧ t.payBits = s.payBits := by
  obtain ⟨v, htables, hser⟩ := thenStage_ok_iff.1 h
  obtain ⟨u, hcount, htab⟩ := thenStage_ok_iff.1 htables
  obtain ⟨-, rfl⟩ := countStage_ok_iff.1 hcount
  obtain ⟨-, -, bits, -, -, rfl⟩ := serializeStage_ok_iff.1 hser
  simpa using payload_encodeTables htab

/-- DECODE counts nothing. -/
theorem freq_decodeStages {s t : State} (h : decodeStages s = .ok t) : t.freq = s.freq := by
  obtain ⟨u, hdes, hmatch⟩ := thenStage_ok_iff.1 h
  obtain ⟨-, p, ps, codes, -, -, rfl⟩ := deserializeStage_ok_iff.1 hdes
  obtain ⟨out, -, rfl⟩ := matchStage_ok_iff.1 hmatch
  rfl

/-- Each command's pseudocode writes only what the command may write. -/
theorem writesOnlyListed_stageOf {i : Instr} {s t : State} (h : stageOf i s = .ok t) : WritesOnlyListed i s t := by
  cases i with
  | nop =>
    obtain rfl := Except.ok.inj h
    simp [WritesOnlyListed]
  | count =>
    obtain ⟨-, rfl⟩ := countStage_ok_iff.1 h
    simp [WritesOnlyListed]
  | build =>
    obtain ⟨L, -, rfl⟩ := buildStage_ok_iff.1 h
    simp [WritesOnlyListed]
  | assign =>
    obtain ⟨-, codes, -, rfl⟩ := assignStage_ok_iff.1 h
    simp [WritesOnlyListed]
  | serialize =>
    obtain ⟨-, -, bits, -, -, rfl⟩ := serializeStage_ok_iff.1 h
    simp [WritesOnlyListed, isOutputCommand]
  | deserialize =>
    obtain ⟨-, p, ps, codes, -, -, rfl⟩ := deserializeStage_ok_iff.1 h
    simp [WritesOnlyListed]
  | matchBits =>
    obtain ⟨out, -, rfl⟩ := matchStage_ok_iff.1 h
    simp [WritesOnlyListed, isOutputCommand]
  | encode => simp [WritesOnlyListed, isOutputCommand, payload_encodeStages h]
  | decode => simp [WritesOnlyListed, isOutputCommand, freq_decodeStages h]

theorem WritesOnlyListed.complete {i : Instr} {s t : State} (h : WritesOnlyListed i s t) (c : Status) (w : Word) :
    WritesOnlyListed i s (Machine.complete c w t) := h

/-- Settles O16: a completion commits the pseudocode's state or the state before the command, but for the output that
an output command's error discards. -/
theorem onlyTheListedCommandsWriteEachTable : Obligations.OnlyTheListedCommandsWriteEachTable := by
  intro i s t h
  show WritesOnlyListed i s t
  rw [exec_next h]
  cases hr : stageOf i s with
  | ok u =>
    rw [completion_ok]
    exact (writesOnlyListed_stageOf hr).complete _ _
  | error f =>
    cases ho : isOutputCommand i with
    | true =>
      rw [completion_error_output ho]
      simp [WritesOnlyListed, takeOutputError, ho]
    | false =>
      rw [completion_error ho]
      simp [WritesOnlyListed, takeError]

/-! ### Completions -/

/-- `t` is IDLE and DONE, and has the operands, the control bits, the latched word and the environment of `s`
(60_exceptions.md R143). -/
structure Completed (s t : State) : Prop where
  eng : t.eng = .idle
  done : t.done = true
  bufBytes : t.bufBytes = s.bufBytes
  lcmd : t.lcmd = s.lcmd
  ie : t.ie = s.ie
  ovr : t.ovr = s.ovr
  inLen : t.inLen = s.inLen
  ibuf : t.ibuf = s.ibuf
  host : t.host = s.host
  reads : t.reads = s.reads
  sched : t.sched = s.sched

theorem completed_complete (c : Status) (w : Word) {s t : State} (h : SameInputs s t) : Completed s (complete c w t) :=
  ⟨rfl, rfl, h.bufBytes, h.lcmd, h.ie, h.ovr, h.inLen, h.ibuf, h.host, h.reads, h.sched⟩

theorem sameInputs_discardOutput (s : State) : SameInputs s (discardOutput s) :=
  ⟨rfl, rfl, rfl, rfl, rfl, rfl, rfl, rfl, rfl, rfl, rfl, rfl, rfl⟩

theorem completed_completion (i : Instr) (s : State) : Completed s (completion i s (stageOf i s)) := by
  cases hr : stageOf i s with
  | ok u =>
    rw [completion_ok]
    exact completed_complete _ _ (sameInputs_stageOf hr)
  | error f =>
    cases ho : isOutputCommand i with
    | true =>
      rw [completion_error_output ho]
      exact completed_complete _ _ (sameInputs_discardOutput s)
    | false =>
      rw [completion_error ho]
      exact completed_complete _ _ (.refl s)

/-- In a state of `Inv` the engine's turn while BUSY completes its command, or the illegal word. -/
theorem Inv.step_engine_completed {s s' : State} (hs : Inv s) (h : EngineActs s s') :
    ∃ t, step s = .next t ∧ Completed s' t := by
  by_cases hd : ∃ i, decode s.lcmd = .ok i
  · obtain ⟨i, hi⟩ := hd
    exact ⟨_, (step_engine h hi).trans (exec_eq i s' fun _ => (hs.engineActs h).payload), completed_completion i s'⟩
  · exact ⟨_, step_illegal h (not_exists.1 hd), completed_complete _ _ (.refl s')⟩

/-! ### Waits -/

/-- A wait of the host: WAIT (30_encoding.md R85) or the wait for the interrupt (70_reset_and_hazards.md R168). -/
def IsWait (op : HostOp) : Prop := op = .wait ∨ op = .waitIrq

/-- A poll while BUSY takes only its turn: DONE is 0 then, so that neither wait ends. -/
theorem Inv.step_poll_busy {s : State} {op : HostOp} {rest : List HostOp} {turns : List Turn} (hs : Inv s)
    (he : s.eng = .busy) (hop : IsWait op) (hh : s.host = op :: rest) (hq : s.sched = .host :: turns) :
    step s = .next { s with sched := turns } := by
  have ha : HostActs s op { s with host := rest, sched := turns } := ⟨rest, hh, .inl ⟨turns, hq, rfl⟩⟩
  have hi : irq s = false := by rw [irq, (hs.busy he).1, Bool.and_false]
  obtain rfl | rfl := hop
  · rw [step_wait ha, if_pos he, ← hh]
  · rw [step_waitIrq ha, if_neg (Bool.eq_false_iff.1 hi), ← hh]

/-- Any number of polls while BUSY take only their turns. -/
theorem Inv.run_polls_busy {s : State} {op : HostOp} {rest : List HostOp} {turns : List Turn} {k : Nat} (n : Nat)
    (hs : Inv s) (he : s.eng = .busy) (hop : IsWait op) (hh : s.host = op :: rest)
    (hq : s.sched = List.replicate k .host ++ turns) :
    Host.Core.run Sys2Proof.core (k + n) s = Host.Core.run Sys2Proof.core n { s with sched := turns } := by
  induction k generalizing s with
  | zero =>
    obtain rfl : s.sched = turns := hq
    rw [Nat.zero_add]
  | succ k ih =>
    rw [Nat.succ_add, run_succ (hs.step_poll_busy he hop hh hq)]
    exact ih (hs.environment s.host s.reads _) he hh rfl

/-- The first poll after the completion ends the wait, but for a wait for the interrupt with IE 0. -/
theorem step_poll_done {s : State} {op : HostOp} {rest : List HostOp} {turns : List Turn} (he : s.eng = .idle)
    (hd : s.done = true) (hop : IsWait op) (hh : s.host = op :: rest) (hq : s.sched = .host :: turns) :
    ∃ t, step s = .next t ∧ t.eng = .idle ∧ t.done = true ∧
      t.host = if op = .waitIrq ∧ s.ie = false then op :: rest else rest := by
  refine ⟨{ s with host := if op = .waitIrq ∧ s.ie = false then op :: rest else rest, sched := turns }, ?_, he, hd, rfl⟩
  have ha : HostActs s op { s with host := rest, sched := turns } := ⟨rest, hh, .inl ⟨turns, hq, rfl⟩⟩
  have hi : irq s = s.ie := by rw [irq, hd, Bool.and_true]
  obtain rfl | rfl := hop
  · rw [step_wait ha, he]
    rfl
  · rw [step_waitIrq ha, hi]
    cases s.ie <;> rfl

/-- Settles O59: the polls while BUSY take only their turns, the engine's turn completes, the next poll finds DONE. -/
theorem waitEndsAfterTheCompletion : Obligations.WaitEndsAfterTheCompletion := by
  refine ⟨fun s s' h => ⟨fun he => ?_, fun he => ?_⟩, fun s s' h => ⟨fun hi => ?_, fun hi => ?_⟩, ?_⟩
  · rw [step_wait h, if_pos he]
  · rw [step_wait h, he, if_neg nofun]
  · rw [step_waitIrq h, irq, hi, if_neg nofun]
  · rw [step_waitIrq h, irq, hi, if_pos rfl]
  · intro s op k rest hs he hh hop hq
    obtain ⟨t, hcomplete, hc⟩ := (hs.environment s.host s.reads [.engine, .host]).step_engine_completed
      ⟨he, .inl ⟨[.host], rfl, rfl⟩⟩
    have hie : t.ie = s.ie := hc.ie
    have hhost : t.host = op :: rest := hc.host.trans hh
    obtain ⟨u, hpoll, hidle, hdone, hover⟩ := step_poll_done hc.eng hc.done hop hhost hc.sched
    rw [hie] at hover
    refine ⟨fun j hj => ?_, ⟨t, ?_, hc.eng, hc.done, ?_, hhost⟩, ⟨u, ?_, hidle, hdone, hover⟩⟩
    · have hsplit : s.sched = List.replicate j .host ++ (List.replicate (k - j) .host ++ [.engine, .host]) := by
        rw [hq, ← List.append_assoc, List.replicate_append_replicate, Nat.add_sub_cancel' hj]
      exact ⟨_, hs.run_polls_busy 0 he hop hh hsplit, he, hh⟩
    · exact (hs.run_polls_busy 1 he hop hh hq).trans (run_succ hcomplete)
    · rw [irq, hc.done, hie, Bool.and_true]
    · exact (hs.run_polls_busy 2 he hop hh hq).trans ((run_succ hcomplete).trans (run_succ hpoll))

end Sys2Proof.Machine

/-! PROOFS. The family 40_frequency.md. COUNT's table read as counts of IBUF's positions, and COUNT's only two
outcomes. -/

namespace Sys2Proof.Machine

/-- A symbol's count in a run of buffer bytes is the number of positions of the run that hold it. -/
theorem Memory.count_bytes (m : Memory) (a n : Nat) (b : Byte) :
    (m.bytes a n).count b = ((Finset.range n).filter fun i => m.read (a + i) = b).card := by
  rw [Memory.bytes, List.count, List.countP_map, List.countP_eq_length_filter]
  rfl

/-- COUNT of an input that fits the buffer commits the table of the input. -/
theorem exec_count_of_le {s : State} (h : s.inLen.toNat ≤ s.bufBytes) :
    exec .count s = .next (complete .ok 0 { s with freq := countTable (inputBytes s) }) := by
  rw [exec_eq .count s nofun, stageOf_count, countStage_ok_iff.2 ⟨h, rfl⟩, completion_ok]

/-- COUNT of a longer input takes BadLength. -/
theorem exec_count_of_lt {s : State} (h : s.bufBytes < s.inLen.toNat) :
    exec .count s = .next (takeError ⟨.badLength, s.inLen⟩ s) := by
  rw [exec_eq .count s nofun, stageOf_count, countStage_error_iff.2 ⟨h, rfl⟩, completion_error rfl]

/-- A COUNT that completes OK had an input that fits the buffer, and leaves the table of that input. -/
theorem freq_of_exec_count_ok {s t : State} (h : exec .count s = .next t) (hok : t.statusCode = .ok) :
    s.inLen.toNat ≤ s.bufBytes ∧ t.freq = countTable (inputBytes s) := by
  obtain ⟨u, hu, rfl⟩ := exec_ok h hok
  obtain ⟨hlen, rfl⟩ := countStage_ok_iff.1 hu
  exact ⟨hlen, rfl⟩

/-- Settles O26: the two outcomes of the length check, and the table of the input as counts of positions. -/
theorem countCountsTheInput : Obligations.CountCountsTheInput := by
  refine fun s => ⟨exec_count_of_lt, fun hlen => ⟨_, exec_count_of_le hlen, rfl, fun b => ?_⟩⟩
  calc (tableAt (countTable (inputBytes s)) b).toNat
      = (s.ibuf.bytes 0 s.inLen.toNat).count b := toNat_countTable (length_inputBytes_lt s) b
    _ = ((Finset.range s.inLen.toNat).filter fun i => s.ibuf.read i = b).card := by
      simp only [Memory.count_bytes, Nat.zero_add]

/-- Settles O27: every byte of the input is counted under one symbol, and no count is above the input's length. -/
theorem countsSumToTheLength : Obligations.CountsSumToTheLength := by
  intro s t hadm h hok
  obtain ⟨hlen, hfreq⟩ := freq_of_exec_count_ok h hok
  rw [hfreq]
  refine ⟨(freqSum_countTable (length_inputBytes_lt s)).trans (length_inputBytes s), fun b => ?_⟩
  calc (tableAt (countTable (inputBytes s)) b).toNat
      = (inputBytes s).count b := toNat_countTable (length_inputBytes_lt s) b
    _ ≤ (inputBytes s).length := List.count_le_length
    _ = s.inLen.toNat := length_inputBytes s
    _ ≤ s.bufBytes := hlen
    _ ≤ 2 ^ 24 := (bufBytesAdmitted_iff.1 hadm).2.2

end Sys2Proof.Machine

/-! PROOFS. The family 41_tree_builder.md. The lengths of BuildLengths lie below the code tree's height, which is
below the number of symbols and, for a bounded sum of frequencies, at most 34; BUILD takes what BuildLengths answers,
and ENCODE's tree is that of a count. -/

namespace Sys2Proof.Machine

/-! ### The outcomes of BuildLengths -/

theorem presentSymbols_ne_nil_iff {freq : Table Word} : presentSymbols freq ≠ [] ↔ ∃ b, tableAt freq b ≠ 0 :=
  ⟨fun h => (List.exists_mem_of_ne_nil _ h).imp fun _ => mem_presentSymbols.1,
    fun ⟨_, hb⟩ => List.ne_nil_of_mem (mem_presentSymbols.2 hb)⟩

/-- With every frequency 0 there is no tree (41_tree_builder.md R94). -/
theorem buildLengths_of_all_zero {freq : Table Word} (h : ∀ b, tableAt freq b = 0) :
    buildLengths freq = .error ⟨.emptyAlphabet, 0⟩ := by
  have hnil : presentSymbols freq = [] := by
    by_contra hne
    obtain ⟨b, hb⟩ := presentSymbols_ne_nil_iff.1 hne
    exact hb (h b)
  rw [buildLengths, codeTree_eq_none hnil]

/-- On a nonzero table BuildLengths fails only with CodeOverflow, at the least symbol that is too deep. -/
theorem buildLengths_error_nonzero {freq : Table Word} {f : Failure} (h : buildLengths freq = .error f)
    (hne : ∃ b, tableAt freq b ≠ 0) :
    f.status = .codeOverflow ∧ ∃ T b, codeTree freq = some T ∧ f.info.toNat = b.toNat ∧ 127 < lengthIn T b ∧
      ∀ c : Byte, c.toNat < b.toNat → lengthIn T c ≤ 127 := by
  rcases buildLengths_error h with ⟨hnil, -⟩ | ⟨-, hstatus, T, b, hT, hdeep, hinfo, hleast⟩
  · exact absurd hnil (presentSymbols_ne_nil_iff.2 hne)
  · have hsym : f.info.toNat = b.toNat := by rw [hinfo, BitVec.toNat_setWidth_of_le (by decide)]
    exact ⟨hstatus, T, b, hT, hsym, hdeep, hleast⟩

/-- The lengths are at most the height of the code tree, or 1, and those of present symbols at least 1. -/
theorem buildLengths_range {freq : Table Word} {L : Table Byte} (h : buildLengths freq = .ok L) :
    ∃ T, codeTree freq = some T ∧ ∀ b, (tableAt L b).toNat ≤ max 1 T.height ∧
      (tableAt freq b ≠ 0 → 1 ≤ (tableAt L b).toNat) := by
  obtain ⟨T, hT, hL⟩ := buildLengths_ok h
  have hp := perm_symbols_codeTree hT
  have hnodup : T.symbols.Nodup := hp.nodup_iff.2 (nodup_presentSymbols freq)
  refine ⟨T, hT, fun b => ?_⟩
  rw [(hL b).1]
  exact ⟨lengthIn_le T b hnodup, fun hb => (lengthIn_range hnodup (hp.mem_iff.2 (mem_presentSymbols.2 hb))).1⟩

/-- With m present symbols each present symbol's length is in 1 .. m-1, or 1 where m is 1 (41_tree_builder.md R96). -/
theorem buildLengths_range_present {freq : Table Word} {L : Table Byte} (h : buildLengths freq = .ok L) {b : Byte}
    (hb : tableAt freq b ≠ 0) :
    1 ≤ (tableAt L b).toNat ∧ (tableAt L b).toNat ≤ max 1 ((presentSymbols freq).length - 1) := by
  obtain ⟨T, hT, hrange⟩ := buildLengths_range h
  obtain ⟨hle, hpos⟩ := hrange b
  have hheight : T.height + 1 ≤ (presentSymbols freq).length := length_symbols_codeTree hT ▸ height_lt_length T
  exact ⟨hpos hb, by omega⟩

/-- With frequencies that sum to at most 2^24 every length is at most 34 (41_tree_builder.md R99). -/
theorem buildLengths_le_34 {freq : Table Word} {L : Table Byte} (h : buildLengths freq = .ok L)
    (hs : freqSum freq ≤ 2 ^ 24) (b : Byte) : (tableAt L b).toNat ≤ 34 := by
  obtain ⟨T, hT, hrange⟩ := buildLengths_range h
  have hle := (hrange b).1
  have hheight := height_codeTree_le hT hs
  omega

/-- Settles O29: the lengths are the depths of the code tree's leaves, whose Kraft sum is that of the root. -/
theorem lengthsFormACompleteTree : Obligations.LengthsFormACompleteTree := by
  intro freq L h
  refine ⟨fun b => (buildLengths_zero h b).2, fun b hone => ?_,
    fun htwo => ⟨buildLengths_depths h htwo, fun b hb => ?_, ?_⟩⟩
  · have hb : tableAt freq b ≠ 0 := mem_presentSymbols.1 (by simp [hone])
    have hrange := buildLengths_range_present h hb
    rw [hone] at hrange
    exact BitVec.eq_of_toNat_eq (Nat.le_antisymm hrange.2 hrange.1)
  · have hrange := buildLengths_range_present h hb
    omega
  · rw [kraftSum_buildLengths h, if_neg (by omega)]

/-! ### The queue -/

/-- Settles O30: the leaves in symbol order, the order that insertion keeps, and the tree of the combinations. -/
theorem queueStaysInPriorityOrder : Obligations.QueueStaysInPriorityOrder := by
  refine ⟨fun freq => ⟨fun b => mem_presentSymbols, ascending_presentSymbols freq, length_leafNodes freq,
      fun k b => getElem?_leafNodes⟩, fun freq => ⟨perm_initialQueue freq, ?_⟩,
    fun n q hq hseq => ⟨perm_insertNode n q, ?_⟩, fun freq T => codeTree_iff_combinesTo⟩
  · exact pairwise_foldr_insertNode (nodup_seq_leafNodes freq)
  · exact pairwise_insertNode hq hseq

/-! ### BUILD -/

/-- BUILD commits the lengths that BuildLengths answers, with the code tables cleared (41_tree_builder.md R95). -/
theorem exec_build_of_ok {s : State} {L : Table Byte} (h : buildLengths s.freq = .ok L) :
    exec .build s = .next (complete .ok 0 { clearCode s with len := L }) := by
  rw [exec_eq .build s nofun, stageOf_build, buildStage_ok_iff.2 ⟨L, h, rfl⟩, completion_ok]

/-- BUILD takes the error that BuildLengths answers (41_tree_builder.md R95). -/
theorem exec_build_of_error {s : State} {f : Failure} (h : buildLengths s.freq = .error f) :
    exec .build s = .next (takeError f s) := by
  rw [exec_eq .build s nofun, stageOf_build, buildStage_error_iff.2 h, completion_error rfl]

/-- Settles O28: BuildLengths of an all-zero table, of a nonzero table with a bounded sum, and its other failures. -/
theorem buildWritesLengthsAndClearsTheCode : Obligations.BuildWritesLengthsAndClearsTheCode := by
  refine fun s => ⟨fun hzero => exec_build_of_error (buildLengths_of_all_zero hzero), fun hne hsum => ?_,
    fun f h hne => ?_⟩
  · obtain ⟨L, hL⟩ := buildLengths_isOk (presentSymbols_ne_nil_iff.2 hne) hsum
    obtain ⟨-, halpha, hcode, -⟩ := codeCleared_clearCode s
    exact ⟨L, _, hL, exec_build_of_ok hL, rfl, halpha, hcode⟩
  · obtain ⟨hstatus, hleast⟩ := buildLengths_error_nonzero h hne
    exact ⟨hstatus, hleast, exec_build_of_error h⟩

/-! ### CodeOverflow -/

/-- A command completes with CodeOverflow only where its pseudocode fails with it. -/
theorem stageOf_codeOverflow {i : Instr} {s t : State} (h : exec i s = .next t) (hc : t.statusCode = .codeOverflow) :
    ∃ f, stageOf i s = .error f ∧ f.status = .codeOverflow := by
  obtain ⟨f, hf, rfl⟩ := exec_error h (by simp [hc])
  exact ⟨f, hf, (completion_statusCode_error i s f).1.symm.trans hc⟩

/-- On frequencies that sum to at most 2^24 BuildLengths can fail only with EmptyAlphabet. -/
theorem buildLengths_error_of_freqSum_le {freq : Table Word} {f : Failure} (h : buildLengths freq = .error f)
    (hs : freqSum freq ≤ 2 ^ 24) : f.status = .emptyAlphabet := by
  rcases buildLengths_error h with ⟨-, rfl⟩ | ⟨hne, -⟩
  · rfl
  · obtain ⟨L, hL⟩ := buildLengths_isOk hne hs
    exact absurd (hL.symm.trans h) nofun

theorem serializeStage_ne_codeOverflow {s : State} {f : Failure} (h : serializeStage s = .error f) :
    f.status ≠ .codeOverflow := by
  have hmem := serializeStage_status h
  intro hf
  simp [errorStatuses, hf] at hmem

/-- ENCODE's stages fail only in the check of IN_LEN or in SERIALIZE: an empty input builds no tree, and the tree of a
count always has its lengths and its code. -/
theorem encodeStages_ne_codeOverflow {s : State} {f : Failure} (hadm : bufBytesAdmitted s.bufBytes = true)
    (h : encodeStages s = .error f) : f.status ≠ .codeOverflow := by
  obtain ⟨-, hge, hle⟩ := bufBytesAdmitted_iff.1 hadm
  by_cases hempty : s.inLen = 0
  · exact absurd ((encodeStages_empty hempty (by omega)).symm.trans h) nofun
  by_cases hlen : s.inLen.toNat ≤ s.bufBytes
  · obtain ⟨L, codes, -, -, -, -, hser⟩ := encodeStages_nonempty hle hempty hlen
    exact serializeStage_ne_codeOverflow (hser.symm.trans h)
  · have hcount : countStage s = .error ⟨.badLength, s.inLen⟩ := countStage_error_iff.2 ⟨by omega, rfl⟩
    rw [encodeStages, hcount] at h
    exact Except.error.inj h ▸ nofun

/-- Settles O31, by the Fibonacci bound on the code tree's height. -/
theorem codeOverflowIsUnreachable : Obligations.CodeOverflowIsUnreachable := by
  refine ⟨fun freq hsum hne => ?_, fun s t hadm hfreq h hc => ?_, fun s t hadm h hc => ?_⟩
  · obtain ⟨L, hL⟩ := buildLengths_isOk (presentSymbols_ne_nil_iff.2 hne) hsum
    exact ⟨L, hL, buildLengths_le_34 hL hsum⟩
  · obtain ⟨f, hf, hover⟩ := stageOf_codeOverflow h hc
    have hsum : freqSum s.freq ≤ 2 ^ 24 := hfreq.trans (bufBytesAdmitted_iff.1 hadm).2.2
    have hempty := buildLengths_error_of_freqSum_le (buildStage_error_iff.1 hf) hsum
    exact absurd (hover.symm.trans hempty) nofun
  · obtain ⟨f, hf, hover⟩ := stageOf_codeOverflow h hc
    exact encodeStages_ne_codeOverflow hadm hf hover

end Sys2Proof.Machine

/-! PROOFS. The family 42_canonical_assign.md. CanonAssign's answer at each entry, by induction over the entries; the
Kraft inequality and the distinct codewords from the laws of canonical assignment; and ASSIGN's outcomes. -/

namespace Sys2Proof.Machine

/-! ### The recurrence of CanonAssign -/

/-- The value that entry `i` of `ps` is to get, where the entries before it have the values `codes`; `next` and `prev`
are those of `canonFrom` (42_canonical_assign.md R101). -/
def valueAt (next prev : Nat) (ps : List AlphaEntry) (codes : List Nat) : Nat → Nat
  | 0 => nextCode next prev (ps.getD 0 ⟨0, 0⟩)
  | i + 1 => nextCode (codes.getD i 0 + 1) (ps.getD i ⟨0, 0⟩).len.toNat (ps.getD (i + 1) ⟨0, 0⟩)

theorem valueAt_cons_succ (next prev : Nat) (e : AlphaEntry) (ps : List AlphaEntry) (c : Nat) (codes : List Nat)
    (i : Nat) : valueAt next prev (e :: ps) (c :: codes) (i + 1) = valueAt (c + 1) e.len.toNat ps codes i := by
  cases i <;> rfl

/-- CanonAssign starts from the value 0. -/
theorem valueAt_zero_zero (ps : List AlphaEntry) (codes : List Nat) (k : Nat) :
    valueAt 0 0 ps codes k = if k = 0 then 0 else
      (codes.getD (k - 1) 0 + 1) * 2 ^ ((ps.getD k ⟨0, 0⟩).len.toNat - (ps.getD (k - 1) ⟨0, 0⟩).len.toNat) := by
  cases k with
  | zero => exact Nat.zero_mul _
  | succ k => rfl

/-- Entry `i` has the value `valueAt`, and it fits. -/
def AssignedAt (next prev : Nat) (ps : List AlphaEntry) (codes : List Nat) (i : Nat) : Prop :=
  (ps.getD i ⟨0, 0⟩).len.toNat ≤ 127 ∧ codes.getD i 0 < 2 ^ (ps.getD i ⟨0, 0⟩).len.toNat ∧
    codes.getD i 0 = valueAt next prev ps codes i

theorem assignedAt_cons_zero {next prev : Nat} {e : AlphaEntry} {ps : List AlphaEntry} {c : Nat} {codes : List Nat} :
    AssignedAt next prev (e :: ps) (c :: codes) 0 ↔
      e.len.toNat ≤ 127 ∧ c < 2 ^ e.len.toNat ∧ c = nextCode next prev e := .rfl

theorem assignedAt_cons_succ {next prev : Nat} {e : AlphaEntry} {ps : List AlphaEntry} {c : Nat} {codes : List Nat}
    {i : Nat} :
    AssignedAt next prev (e :: ps) (c :: codes) (i + 1) ↔ AssignedAt (c + 1) e.len.toNat ps codes i := by
  simp only [AssignedAt, valueAt_cons_succ, List.getD_cons_succ]

/-- CanonAssign succeeds exactly with the values that are assigned at every entry. -/
theorem canonFrom_ok_iff_assignedAt {next prev k : Nat} {ps : List AlphaEntry} {codes : List Nat} :
    canonFrom next prev k ps = .ok codes ↔
      codes.length = ps.length ∧ ∀ i, i < ps.length → AssignedAt next prev ps codes i := by
  induction ps generalizing next prev k codes with
  | nil => simp [canonFrom, eq_comm]
  | cons e ps ih =>
    cases codes with
    | nil => simp [canonFrom_cons_ok]
    | cons c codes =>
      simp only [canonFrom_cons_ok, ih, List.length_cons, Nat.forall_lt_succ_left, assignedAt_cons_zero,
        assignedAt_cons_succ, List.cons.injEq, Nat.add_right_cancel_iff]
      constructor
      · rintro ⟨hlen, hfit, _, ⟨rfl, rfl⟩, hlength, hrest⟩
        exact ⟨hlength, ⟨hlen, hfit, rfl⟩, hrest⟩
      · rintro ⟨hlength, ⟨hlen, hfit, rfl⟩, hrest⟩
        exact ⟨hlen, hfit, _, ⟨rfl, rfl⟩, hlength, hrest⟩

/-- CanonAssign fails at entry `i` exactly when it succeeds on the entries before it and `i` is too long or its value
does not fit. -/
theorem canonFrom_error_iff {next prev k i : Nat} {ps : List AlphaEntry} :
    canonFrom next prev k ps = .error (k + i) ↔
      i < ps.length ∧ ∃ codes, canonFrom next prev k (ps.take i) = .ok codes ∧
        (127 < (ps.getD i ⟨0, 0⟩).len.toNat ∨ 2 ^ (ps.getD i ⟨0, 0⟩).len.toNat ≤ valueAt next prev ps codes i) := by
  induction ps generalizing next prev k i with
  | nil => simp [canonFrom]
  | cons e ps ih =>
    rw [canonFrom_cons_error]
    cases i with
    | zero =>
      have hlater : canonFrom (nextCode next prev e + 1) e.len.toNat (k + 1) ps ≠ .error k := fun h =>
        Nat.not_succ_le_self k (canonFrom_error_lt h).1
      simp [hlater, canonFrom, valueAt]
    | succ i =>
      rw [show k + (i + 1) = k + 1 + i by omega, ih]
      simp only [List.take_succ_cons, canonFrom_cons_ok, List.getD_cons_succ, List.length_cons]
      constructor
      · rintro (⟨-, hk⟩ | ⟨hlen, hfit, hi, codes, hcodes, hover⟩)
        · omega
        · exact ⟨by omega, _, ⟨hlen, hfit, codes, rfl, hcodes⟩, by rwa [valueAt_cons_succ]⟩
      · rintro ⟨hi, _, ⟨hlen, hfit, codes, rfl, hcodes⟩, hover⟩
        rw [valueAt_cons_succ] at hover
        exact .inr ⟨hlen, hfit, by omega, codes, hcodes, hover⟩

/-- Settles O33, by induction over the entries. -/
theorem canonAssignRecurrence : Obligations.CanonAssignRecurrence := by
  refine ⟨fun ps codes => ?_, fun ps k => ?_⟩ <;> simp only [← valueAt_zero_zero]
  · exact canonFrom_ok_iff_assignedAt
  · have h := canonFrom_error_iff (next := 0) (prev := 0) (k := 0) (i := k) (ps := ps)
    rwa [Nat.zero_add] at h

/-! ### Pairs(LEN) and the canonical code -/

/-- Settles O32: the sort of a list is the sort of each of its permutations. -/
theorem pairsAreTheSortedPresentSymbols : Obligations.PairsAreTheSortedPresentSymbols := by
  refine ⟨fun len => ⟨fun e => mem_lenPairs, ?_, nodup_sym_lenPairs len⟩, fun ps qs hperm => ?_⟩
  · exact (pairwise_lenPairs len).imp fun h => h.imp_right fun ⟨hlen, hsym⟩ => ⟨congrArg BitVec.toNat hlen, hsym⟩
  · have hsort : sortLS ps = sortLS qs := sortLS_eq_of_perm (pairwise_sortLS qs) (hperm.trans (perm_sortLS qs).symm)
    exact ⟨hsort, congrArg canonAssign hsort, perm_sortLS ps, pairwise_sortLS ps⟩

/-- Settles O34: a codeword that begins another entry's codeword would make the two entries the same. -/
theorem canonicalCodewordsArePrefixFree : Obligations.CanonicalCodewordsArePrefixFree :=
  fun _ _ hsorted hassign _ _ hi hj hne hprefix => hne (canonAssign_prefix hsorted hassign hi hj hprefix)

/-- CanonAssign fails exactly when it does not succeed. -/
theorem canonAssign_error_iff_not_ok {ps : List AlphaEntry} :
    (∃ k, canonAssign ps = .error k) ↔ ¬ ∃ codes, canonAssign ps = .ok codes := by
  cases canonAssign ps <;> simp

/-- Settles O35: within the lengths CanonAssign succeeds exactly when the Kraft sum is at most 1, and the invariant's
lengths fit. -/
theorem assignmentFailsExactlyWhenOverfull : Obligations.AssignmentFailsExactlyWhenOverfull := by
  refine ⟨fun ps hsorted hrange => ?_, fun s t hinv h hover => ?_⟩
  · have hlen : ∀ e ∈ ps, e.len.toNat ≤ 127 := fun e he => (hrange e he).2
    calc (∃ k, canonAssign ps = .error k)
        ↔ ¬ ∃ codes, canonAssign ps = .ok codes := canonAssign_error_iff_not_ok
      _ ↔ ¬ kraftSum ps ≤ 2 ^ 255 := by rw [canonAssign_ok_iff hsorted, and_iff_right hlen]
      _ ↔ 2 ^ 255 < kraftSum ps := Nat.not_le
  · obtain ⟨f, hf, hstatus⟩ := stageOf_codeOverflow h hover
    rcases assignStage_error_iff.1 hf with ⟨-, rfl⟩ | ⟨-, hfail⟩
    · exact absurd hstatus nofun
    · obtain ⟨k, hk, -⟩ := hfail
      exact canonAssign_error_iff_not_ok.1 ⟨k, hk⟩ hinv.lengths

/-! ### ASSIGN -/

/-- A symbol is present exactly when its length is not 0 (42_canonical_assign.md R100). -/
theorem lenPairs_ne_nil_iff {len : Table Byte} : lenPairs len ≠ [] ↔ ∃ b, tableAt len b ≠ 0 := by
  constructor
  · intro hne
    obtain ⟨e, he⟩ := List.exists_mem_of_ne_nil _ hne
    obtain ⟨hlen, hpos⟩ := mem_lenPairs.1 he
    exact ⟨e.sym, hlen ▸ hpos⟩
  · rintro ⟨b, hb⟩
    exact List.ne_nil_of_mem ((mem_lenPairs (e := ⟨b, tableAt len b⟩)).2 ⟨rfl, hb⟩)

/-- CanonAssign of no entries does not fail. -/
theorem ne_nil_of_canonAssign_error {ps : List AlphaEntry} {k : Nat} (h : canonAssign ps = .error k) : ps ≠ [] :=
  List.length_pos_iff.1 (by have hk := canonFrom_error_lt h; omega)

theorem toNat_symbolInfo (ps : List AlphaEntry) (k : Nat) :
    (symbolInfo ps k).toNat = (ps.getD k ⟨0, 0⟩).sym.toNat := BitVec.toNat_setWidth_of_le (by decide)

theorem exec_assign_of_error {s : State} {f : Failure} (h : assignStage s = .error f) :
    exec .assign s = .next (takeError f s) := by
  rw [exec_eq .assign s nofun, stageOf_assign, h, completion_error rfl]

theorem exec_assign_of_ok {s u : State} (h : assignStage s = .ok u) : exec .assign s = .next (complete .ok 0 u) := by
  rw [exec_eq .assign s nofun, stageOf_assign, h, completion_ok]

/-- Settles O36: the three outcomes of ASSIGN's pseudocode. -/
theorem assignWritesTheCanonicalCode : Obligations.AssignWritesTheCanonicalCode := by
  refine fun s => ⟨fun hzero => ?_, fun k hfail => ?_, fun codes hpresent hok => ?_⟩
  · have hnil : lenPairs s.len = [] := by
      by_contra hne
      obtain ⟨b, hb⟩ := lenPairs_ne_nil_iff.1 hne
      exact hb (hzero b)
    exact exec_assign_of_error (assignStage_error_iff.2 (.inl ⟨hnil, rfl⟩))
  · have hstage := assignStage_error_iff.2 (.inr ⟨ne_nil_of_canonAssign_error hfail, k, hfail, rfl⟩)
    exact ⟨_, exec_assign_of_error hstage, rfl, toNat_symbolInfo _ k⟩
  · have hne := lenPairs_ne_nil_iff.2 hpresent
    have hholds : HoldsCode (installCode (lenPairs s.len) codes s) (lenPairs s.len) codes :=
      holdsCode_installCode hne (canonicalAlphabet_lenPairs hok) hok fun e he => (mem_lenPairs.1 he).1.symm
    exact ⟨_, exec_assign_of_ok (assignStage_ok_iff.2 ⟨hne, codes, hok, rfl⟩), rfl, hholds, maxLenOf_eq hne⟩

end Sys2Proof.Machine

/-! PROOFS. The family 43_container.md. The outcomes of SERIALIZE in terms of the text's bits, and the container it
leaves; coherent tables as the tables that a canonical alphabet installs, from which DESERIALIZE inverts SERIALIZE;
CheckTable and the header checks; and what DECODE reads of a container. -/

namespace Sys2Proof.Machine

/-! ### Packing -/

/-- Settles O37. -/
theorem packKeepsEveryBit : Obligations.PackKeepsEveryBit := by
  refine fun bits => ⟨rfl, add_paddingCount_mod _, ?_, fun j hj => getLsbD_packPayload bits hj⟩
  rw [length_packPayload, paddingCount]
  omega

/-! ### SERIALIZE -/

/-- `EncodeBits` succeeds exactly on a covered input, with its codewords concatenated (43_container.md R108). -/
theorem encodeBits_ok_iff {entries : List AlphaEntry} {code : Table CodeWord} {text : List Byte} {bits : BitStr} :
    encodeBits entries code text = .ok bits ↔ Covered entries text ∧ bits = text.flatMap (wordOf entries code) := by
  constructor
  · intro h
    have hcov := encodeFrom_ok h
    exact ⟨hcov, Except.ok.inj (h.symm.trans (encodeFrom_covered hcov))⟩
  · rintro ⟨hcov, rfl⟩
    exact encodeFrom_covered hcov

/-- The length of the container that SERIALIZE gives (43_container.md R111). -/
theorem length_containerBytes_alphabet {s : State} (hn : s.alphaN.toNat ≤ 128) (bits : BitStr) :
    (containerBytes (alphabet s) bits).length = 2 + 2 * s.alphaN.toNat + (bits.length + 7) / 8 := by
  rw [length_containerBytes, length_alphabet s (by omega)]

/-- SERIALIZE's pseudocode succeeds exactly where its four checks pass, on the bits of the text. -/
theorem serializeStage_ok_iff_encodable {s t : State} :
    serializeStage s = .ok t ↔
      s.inLen.toNat ≤ s.bufBytes ∧ s.alphaN.toNat ≤ 128 ∧ Encodable s (inputBytes s) ∧
        2 + 2 * s.alphaN.toNat + ((encodeText s (inputBytes s)).length + 7) / 8 ≤ s.bufBytes ∧
        t = serialized (encodeText s (inputBytes s)) s := by
  rw [serializeStage_ok_iff]
  refine and_congr_right fun _ => and_congr_right fun hn => ?_
  simp only [length_containerBytes_alphabet hn, encodeBits_ok_iff, encodable_eq, encodeText_eq]
  exact ⟨fun ⟨_, ⟨hcov, hbits⟩, hfit, ht⟩ => ⟨hcov, hbits ▸ hfit, hbits ▸ ht⟩,
    fun ⟨hcov, hfit, ht⟩ => ⟨_, ⟨hcov, rfl⟩, hfit, ht⟩⟩

theorem exec_serialize_of_ok {s u : State} (h : serializeStage s = .ok u) :
    exec .serialize s = .next (complete .ok 0 u) := by
  rw [exec_eq .serialize s nofun, stageOf_serialize, h, completion_ok]

theorem exec_serialize_of_error {s : State} {f : Failure} (h : serializeStage s = .error f) :
    exec .serialize s = .next (takeOutputError f s) := by
  rw [exec_eq .serialize s nofun, stageOf_serialize, h, completion_error_output rfl]

/-- OBUF holds the container that SERIALIZE stored. -/
theorem holdsContainer_serialized (bits : BitStr) (s : State) :
    HoldsContainer (serialized bits s).obuf (alphabet s) bits := by
  rw [serialized_obuf]
  exact holdsContainer_ofBytes _ _ _

/-! ### Deserialize inverts serialize -/

/-- ALPHA, ALPHA_N, CODE and MAXLEN are those written from `ps` and `codes`, and LEN has the lengths of `ps`
(43_container.md R117). -/
structure Installed (s : State) (ps : List AlphaEntry) (codes : List Nat) : Prop where
  alpha : alphaTableOf ps = s.alpha
  alphaN : BitVec.ofNat 9 ps.length = s.alphaN
  code : codeTableOf ps codes = s.code
  maxLen : maxLenOf ps = s.maxLen
  len : ∀ e ∈ ps, tableAt s.len e.sym = e.len

/-- A CODE table that holds the values of `ps` and 0 elsewhere is the one written from them. -/
theorem codeTableOf_eq {ps : List AlphaEntry} {codes : List Nat} {code : Table CodeWord}
    (hn : (ps.map (·.sym)).Nodup) (hl : codes.length = ps.length)
    (hv : ∀ p ∈ ps.zip codes, (tableAt code p.1.sym).toNat = p.2) (h0 : ∀ b, b ∉ ps.map (·.sym) → tableAt code b = 0) :
    codeTableOf ps codes = code := by
  refine table_ext fun b => ?_
  by_cases hb : b ∈ ps.map (·.sym)
  · obtain ⟨e, he, rfl⟩ := List.mem_map.1 hb
    obtain ⟨i, hi, rfl⟩ := exists_getD he
    have hp := codes_zip_mem hl hi
    have hval : (tableAt code (ps.getD i ⟨0, 0⟩).sym).toNat = codes.getD i 0 := hv _ hp
    calc tableAt (codeTableOf ps codes) (ps.getD i ⟨0, 0⟩).sym
        = BitVec.ofNat 128 (codes.getD i 0) := tableAt_codeTableOf hn hp
      _ = tableAt code (ps.getD i ⟨0, 0⟩).sym := by rw [← hval, BitVec.ofNat_toNat, BitVec.setWidth_eq]
  · rw [tableAt_codeTableOf_none hb, h0 b hb]

theorem installed_of_holdsCode {s : State} {ps : List AlphaEntry} {codes : List Nat} (h : HoldsCode s ps codes) :
    Installed s ps codes := by
  obtain ⟨-, hc, ha, hn, halpha, hlen, hv, h0, hm⟩ := h
  refine ⟨table_ext fun k => ?_, ?_, codeTableOf_eq hc.2.1 (canonAssign_length ha) hv h0, hm.symm, hlen⟩
  · rw [halpha, alphaTableOf, tableAt_tableOf]
  · rw [← hn, BitVec.ofNat_toNat, BitVec.setWidth_eq]

theorem installed_of_codeCleared {s : State} (h : CodeCleared s) : Installed s [] [] := by
  obtain ⟨hn, halpha, hcode, hm⟩ := h
  refine ⟨table_ext fun k => ?_, hn.symm, codeTableOf_eq .nil rfl nofun fun b _ => hcode b, hm.symm, nofun⟩
  rw [halpha, alphaTableOf, tableAt_tableOf]
  rfl

/-- Coherent tables are those that their alphabet installs, a canonical one (10_state.md R52). -/
theorem exists_installed_of_coherent {s : State} (h : TablesCoherent s) :
    ∃ codes, CanonicalAlphabet (alphabet s) ∧ canonAssign (alphabet s) = .ok codes ∧
      Installed s (alphabet s) codes := by
  rcases h with h | ⟨ps, codes, h⟩
  · rw [alphabet_of_codeCleared h]
    exact ⟨[], ⟨.nil, .nil, nofun⟩, rfl, installed_of_codeCleared h⟩
  · rw [alphabet_of_holdsCode h]
    exact ⟨codes, h.2.1, h.2.2.1, installed_of_holdsCode h⟩

theorem exec_deserialize_of_ok {s u : State} (h : deserializeStage s = .ok u) :
    exec .deserialize s = .next (complete .ok 0 u) := by
  rw [exec_eq .deserialize s nofun, stageOf_deserialize, h, completion_ok]

/-- Settles O43: the container holds the alphabet and the text's bits, DESERIALIZE installs that alphabet, and coherent
tables are the ones their alphabet installs. -/
theorem deserializeInvertsSerialize : Obligations.DeserializeInvertsSerialize := by
  intro s t u hadm hcoh hexec hok hbuf hin hmem
  obtain ⟨w, hw, rfl⟩ := exec_ok hexec hok
  obtain ⟨-, hn, -, hfit, rfl⟩ := serializeStage_ok_iff_encodable.1 hw
  have hb := (bufBytesAdmitted_iff.1 hadm).2.2
  have halen := length_alphabet s (by omega)
  have hlen := length_containerBytes_alphabet hn (encodeText s (inputBytes s))
  rw [complete_outLen, serialized_outLen] at hin hmem
  have hsize : u.inLen.toNat = (containerBytes (alphabet s) (encodeText s (inputBytes s))).length := by
    rw [hin, BitVec.toNat_ofNat, Nat.mod_eq_of_lt (by omega)]
  have hholds : HoldsContainer u.ibuf (alphabet s) (encodeText s (inputBytes s)) :=
    (holdsContainer_serialized _ s).congr fun a ha => hmem a (by rw [← hin, hsize]; exact ha)
  obtain ⟨codes, hc, ha, htab⟩ := exists_installed_of_coherent hcoh
  refine ⟨_, exec_deserialize_of_ok (deserializeStage_container (by omega) hsize (by omega) hholds hc ha), rfl,
    htab.alpha, htab.alphaN, htab.code, htab.maxLen, (serialized_pad _ s).symm,
    fun e he => (tableAt_lenTableOf hc.2.1 he).trans (htab.len e he).symm, fun b hb => tableAt_lenTableOf_none hb, ?_, ?_⟩
  · rw [complete_payOff, installContainer_payOff, halen, BitVec.toNat_ofNat, Nat.mod_eq_of_lt (by omega)]
  · exact payloadBits_container (s := u) (codes := codes) (by omega) (by omega) hsize (by omega) hholds

/-! ### What SERIALIZE writes -/

/-- A codeword's length, and each of its bits as a digit of CODE (30_encoding.md R81). -/
theorem codewordOf_bits (code : Table CodeWord) (e : AlphaEntry) :
    (codewordOf code e).length = e.len.toNat ∧ ∀ k, k < e.len.toNat →
      (codewordOf code e).getD k false = decide ((tableAt code e.sym).toNat / 2 ^ (e.len.toNat - 1 - k) % 2 = 1) :=
  ⟨length_bin _ _, fun _ hk => (getD_codewordOf code hk).trans Nat.testBit_eq_decide_div_mod_eq⟩

/-- The alphabet is the first ALPHA_N entries of ALPHA (10_state.md R44). -/
theorem getElem?_alphabet {s : State} (h : s.alphaN.toNat ≤ 256) {k : Byte} (hk : k.toNat < s.alphaN.toNat) :
    (alphabet s)[k.toNat]? = some (tableAt s.alpha k) := by
  have hlt : k.toNat < (alphabet s).length := by rwa [length_alphabet s h]
  rw [List.getElem?_eq_getElem hlt, getElem_alphabet hlt]

/-- The input is the first IN_LEN bytes of IBUF (10_state.md R34). -/
theorem getElem?_inputBytes {s : State} {i : Nat} (h : i < s.inLen.toNat) :
    (inputBytes s)[i]? = some (s.ibuf.read i) := by
  rw [inputBytes, Memory.getElem?_bytes h, Nat.zero_add]

/-- The two bytes of entry `k` in a buffer that holds a container. -/
theorem HoldsContainer.entry {m : Memory} {es : List AlphaEntry} {bits : BitStr} (h : HoldsContainer m es bits) {k : Nat}
    {e : AlphaEntry} (hk : es[k]? = some e) : m.read (2 + k) = e.len ∧ m.read (2 + es.length + k) = e.sym := by
  obtain ⟨hlt, rfl⟩ := List.getElem?_eq_some_iff.1 hk
  have hlen := length_containerBytes es bits
  rw [h _ (by omega), h _ (by omega)]
  exact ⟨getD_containerBytes_len es bits hlt, getD_containerBytes_sym es bits hlt⟩

/-- Settles O38: the words of the statement unfold to lists, and OBUF holds the container of the text's bits. -/
theorem serializeWritesTheContainer : Obligations.SerializeWritesTheContainer := by
  refine ⟨codewordOf_bits, fun s b text => ⟨rfl, rfl⟩, fun s e hnodup he => wordOf_mem hnodup he,
    fun s h => ⟨length_alphabet s h, fun k hk => getElem?_alphabet h hk⟩,
    fun s => ⟨length_inputBytes s, fun i hi => getElem?_inputBytes hi⟩, fun s hadm hin hn hcov hfit => ?_⟩
  have hb := (bufBytesAdmitted_iff.1 hadm).2.2
  have hexec := exec_serialize_of_ok (serializeStage_ok_iff_encodable.2 ⟨hin, hn, hcov, hfit, rfl⟩)
  have hholds := holdsContainer_serialized (encodeText s (inputBytes s)) s
  have halen := length_alphabet s (by omega)
  have hlen := length_containerBytes_alphabet hn (encodeText s (inputBytes s))
  generalize encodeText s (inputBytes s) = bits at *
  have hout : (serialized bits s).outLen.toNat = (containerBytes (alphabet s) bits).length := by
    rw [serialized_outLen, BitVec.toNat_ofNat, Nat.mod_eq_of_lt (by omega)]
  have hpad : (serialized bits s).pad.toNat = paddingCount bits.length := by
    rw [serialized_pad, BitVec.toNat_ofNat, Nat.mod_eq_of_lt (paddingCount_lt _)]
  refine ⟨_, hexec, rfl, hout.trans hlen, hpad, (hholds.padding (by omega)).trans hpad.symm,
    (hholds.size (by omega)).trans halen, fun k hk => ?_, fun j hj => ?_, fun a ha => ?_⟩
  · rw [← halen]
    exact hholds.entry (getElem?_alphabet (by omega) hk)
  · rw [← halen]
    exact hholds.payloadBit (hpad ▸ hj)
  · rw [complete_obuf, serialized_obuf]
    exact Memory.read_ofBytes_ge (hout ▸ ha)

/-! ### SERIALIZE's errors -/

/-- A codeword has at most 255 bits. -/
theorem length_wordOf_le (entries : List AlphaEntry) (code : Table CodeWord) (b : Byte) :
    (wordOf entries code b).length ≤ 255 := by
  rw [wordOf]
  split
  · rw [codewordOf, length_bin]
    omega
  · simp

theorem length_encodeText_le (s : State) (text : List Byte) : (encodeText s text).length ≤ 255 * text.length := by
  rw [encodeText_eq]
  induction text with
  | nil => simp
  | cons b text ih =>
    have hb := length_wordOf_le (alphabet s) s.code b
    rw [List.flatMap_cons, List.length_append, List.length_cons]
    omega

/-- An output command's error reports itself, leaves no output and changes no table (60_exceptions.md R147). -/
theorem takeOutputError_reports (f : Failure) (s : State) :
    (takeOutputError f s).statusCode = f.status ∧ (takeOutputError f s).errInfo = f.info ∧
      (takeOutputError f s).outLen = 0 ∧ SameTables s (takeOutputError f s) :=
  ⟨rfl, rfl, rfl, rfl, rfl, rfl, rfl, rfl, rfl, rfl, rfl, rfl⟩

/-- SERIALIZE reports a failure whose ERR_INFO is the number `n`. -/
theorem exec_serialize_reports {s : State} {c : Status} {w : Word} {n : Nat} (h : serializeStage s = .error ⟨c, w⟩)
    (hn : w.toNat = n) : ∃ t, exec .serialize s = .next t ∧ t.statusCode = c ∧ t.errInfo.toNat = n ∧ t.outLen = 0 ∧
      SameTables s t := by
  obtain ⟨hstatus, hinfo, hout, htables⟩ := takeOutputError_reports ⟨c, w⟩ s
  exact ⟨_, exec_serialize_of_error h, hstatus, (congrArg BitVec.toNat hinfo).trans hn, hout, htables⟩

/-- Settles O39: each error is the first of SERIALIZE's checks that fails. -/
theorem serializeReportsItsFirstError : Obligations.SerializeReportsItsFirstError := by
  refine fun s hb hin => ⟨fun hn => ?_, fun hn i hi hcov hbad => ?_, fun hn hcov hover => ?_⟩
  · exact exec_serialize_reports (serializeStage_error_iff.2 (.inr (.inl ⟨hin, hn, rfl⟩)))
      (BitVec.toNat_setWidth_of_le (by decide))
  · have hlt : i < (inputBytes s).length := by rwa [length_inputBytes]
    have hread : (inputBytes s)[i] = s.ibuf.read i :=
      Option.some.inj ((List.getElem?_eq_getElem hlt).symm.trans (getElem?_inputBytes hi))
    have hfail : encodeBits (alphabet s) s.code (inputBytes s) = .error (0 + i) :=
      encodeFrom_uncovered hlt hcov fun e he => hread ▸ hbad e he
    rw [Nat.zero_add] at hfail
    refine exec_serialize_reports (serializeStage_error_iff.2 (.inr (.inr ⟨hin, hn, .inl ⟨i, hfail, rfl⟩⟩))) ?_
    rw [BitVec.toNat_ofNat, Nat.mod_eq_of_lt (by omega)]
  · have hbits : encodeBits (alphabet s) s.code (inputBytes s) = .ok (encodeText s (inputBytes s)) :=
      encodeBits_ok_iff.2 ⟨hcov, rfl⟩
    have hlen := length_containerBytes_alphabet hn (encodeText s (inputBytes s))
    have hle := length_encodeText_le s (inputBytes s)
    rw [length_inputBytes] at hle
    rw [← hlen] at hover ⊢
    refine exec_serialize_reports
      (serializeStage_error_iff.2 (.inr (.inr ⟨hin, hn, .inr ⟨_, hbits, hover, rfl⟩⟩))) ?_
    rw [BitVec.toNat_ofNat, Nat.mod_eq_of_lt (by omega)]

/-! ### DESERIALIZE's header -/

theorem exec_deserialize_of_error {s : State} {f : Failure} (h : deserializeStage s = .error f) :
    exec .deserialize s = .next (takeError f s) := by
  rw [exec_eq .deserialize s nofun, stageOf_deserialize, h, completion_error rfl]

/-- A header check that fails ends DESERIALIZE with its error; every other field stays (60_exceptions.md R148). -/
theorem exec_deserialize_of_header_error {s : State} {c : Status} {w : Word} (hin : s.inLen.toNat ≤ s.bufBytes)
    (h : parseHeader s.ibuf s.inLen.toNat = .error ⟨c, w⟩) :
    exec .deserialize s = .next { s with eng := .idle, done := true, statusCode := c, errInfo := w } :=
  exec_deserialize_of_error (deserializeStage_error_iff.2 (.inr ⟨hin, .inl h⟩))

section Header

variable {m : Memory} {size : Nat}

theorem parseHeader_short (h : size < 2) : parseHeader m size = .error ⟨.truncatedHeader, 2⟩ := by
  simp only [parseHeader]
  rw [if_pos h]

theorem parseHeader_badPadding (h2 : 2 ≤ size) (hp : 7 < (m.read 0).toNat) :
    parseHeader m size = .error ⟨.corruptPadding, BitVec.ofNat 32 (m.read 0).toNat⟩ := by
  simp only [parseHeader]
  rw [if_neg (by omega), if_pos hp, BitVec.ofNat_toNat]

theorem parseHeader_large (h2 : 2 ≤ size) (hp : (m.read 0).toNat ≤ 7) (hn : 128 < (m.read 1).toNat) :
    parseHeader m size = .error ⟨.alphabetTooLarge, BitVec.ofNat 32 (m.read 1).toNat⟩ := by
  simp only [parseHeader]
  rw [if_neg (by omega), if_neg (by omega), if_pos hn, BitVec.ofNat_toNat]

theorem parseHeader_truncated (h2 : 2 ≤ size) (hp : (m.read 0).toNat ≤ 7) (hn : (m.read 1).toNat ≤ 128)
    (hs : size < 2 + 2 * (m.read 1).toNat) :
    parseHeader m size = .error ⟨.truncatedHeader, BitVec.ofNat 32 (2 + 2 * (m.read 1).toNat)⟩ := by
  simp only [parseHeader, Config.maxAlpha]
  rw [if_neg (by omega), if_neg (by omega), if_neg (by omega), if_pos hs]

theorem parseHeader_emptyPayload (hp : (m.read 0).toNat ≤ 7) (hn : (m.read 1).toNat ≤ 128)
    (hs : size = 2 + 2 * (m.read 1).toNat) (h0 : 0 < (m.read 0).toNat) :
    parseHeader m size = .error ⟨.corruptPadding, BitVec.ofNat 32 (m.read 0).toNat⟩ := by
  simp only [parseHeader, Config.maxAlpha]
  rw [if_neg (by omega), if_neg (by omega), if_neg (by omega), if_neg (by omega), if_pos ⟨by omega, h0⟩,
    BitVec.ofNat_toNat]

end Header

/-- Settles O40: the five checks of `ParseHeader`, each where the ones before it pass. -/
theorem deserializeChecksTheHeaderInOrder : Obligations.DeserializeChecksTheHeaderInOrder := fun _ hin =>
  ⟨fun h => exec_deserialize_of_header_error hin (parseHeader_short h),
    fun h2 hp => exec_deserialize_of_header_error hin (parseHeader_badPadding h2 hp),
    fun h2 hp hn => exec_deserialize_of_header_error hin (parseHeader_large h2 hp hn),
    fun h2 hp hn hs => exec_deserialize_of_header_error hin (parseHeader_truncated h2 hp hn hs),
    fun hp hn hs h0 => exec_deserialize_of_header_error hin (parseHeader_emptyPayload hp hn hs h0)⟩

/-! ### CheckTable -/

/-- Entry `k` may not stand in a container: its length is out of range, or an earlier entry has its symbol
(43_container.md R116). -/
def BadAt (es : List AlphaEntry) (k : Nat) : Prop :=
  (es.getD k ⟨0, 0⟩).len.toNat = 0 ∨ 127 < (es.getD k ⟨0, 0⟩).len.toNat ∨
    ∃ j, j < k ∧ (es.getD j ⟨0, 0⟩).sym = (es.getD k ⟨0, 0⟩).sym

/-- Symbols are distinct exactly when none stands at an earlier index too. -/
theorem nodup_sym_iff {es : List AlphaEntry} :
    (es.map (·.sym)).Nodup ↔ ∀ k, k < es.length → ∀ j, j < k → (es.getD j ⟨0, 0⟩).sym ≠ (es.getD k ⟨0, 0⟩).sym := by
  rw [List.Nodup, List.pairwise_map, List.pairwise_iff_getElem]
  constructor
  · intro h k hk j hj
    rw [List.getD_eq_getElem _ _ hk, List.getD_eq_getElem _ _ (hj.trans hk)]
    exact h j k _ _ hj
  · intro h j k hj hk hjk
    rw [← List.getD_eq_getElem es ⟨0, 0⟩ hk, ← List.getD_eq_getElem es ⟨0, 0⟩ hj]
    exact h k hk j hjk

/-- A container's entries are good exactly when none is bad where it stands. -/
theorem goodEntries_iff {es : List AlphaEntry} : GoodEntries es ↔ ∀ k, k < es.length → ¬ BadAt es k := by
  rw [GoodEntries, nodup_sym_iff]
  constructor
  · rintro ⟨hlen, hsym⟩ k hk (h0 | h127 | ⟨j, hj, heq⟩)
    · have := hlen _ (List.getD_eq_getElem es ⟨0, 0⟩ hk ▸ List.getElem_mem hk)
      omega
    · have := hlen _ (List.getD_eq_getElem es ⟨0, 0⟩ hk ▸ List.getElem_mem hk)
      omega
    · exact hsym k hk j hj heq
  · intro h
    refine ⟨fun e he => ?_, fun k hk j hj heq => h k hk (.inr (.inr ⟨j, hj, heq⟩))⟩
    obtain ⟨k, hk, rfl⟩ := exists_getD he
    have hlen := h k hk
    simp only [BadAt, not_or] at hlen
    omega

theorem getD_take {es : List AlphaEntry} {k j : Nat} (h : j < k) :
    (es.take k).getD j ⟨0, 0⟩ = es.getD j ⟨0, 0⟩ := by
  rw [List.getD_eq_getElem?_getD, List.getD_eq_getElem?_getD, List.getElem?_take_of_lt h]

theorem badAt_take {es : List AlphaEntry} {k j : Nat} (h : j < k) : BadAt (es.take k) j ↔ BadAt es j := by
  rw [BadAt, BadAt, getD_take h]
  refine or_congr_right (or_congr_right (exists_congr fun i => and_congr_right fun hi => ?_))
  rw [getD_take (hi.trans h)]

/-- The first bad entry is the one reported. -/
theorem checkTable_of_first_bad {es : List AlphaEntry} {k : Nat} (hk : k < es.length) (hbad : BadAt es k)
    (hfirst : ∀ j, j < k → ¬ BadAt es j) : checkTable es = .error ⟨.corruptTable, BitVec.ofNat 32 k⟩ := by
  have hgood : GoodEntries (es.take k) := goodEntries_iff.2 fun j hj => by
    have hjk : j < k := (List.length_take_le k es).trans_lt' hj
    exact (badAt_take hjk).not.2 (hfirst j hjk)
  have hreport : badEntryFrom [] 0 es = some (0 + k) := by
    refine badEntryFrom_first hk ?_ hgood nofun
    rw [BadAt, List.getD_eq_getElem _ _ hk] at hbad
    rcases hbad with h0 | h127 | ⟨j, hj, heq⟩
    · exact .inl h0
    · exact .inr (.inl h127)
    · rw [List.getD_eq_getElem _ _ (hj.trans hk)] at heq
      exact .inr (.inr (.inr ⟨j, hj, heq⟩))
  rw [checkTable, hreport, Nat.zero_add]

/-- The container index of an entry, found by its symbol, which no other entry has. -/
theorem getD_findIdx_sym {es : List AlphaEntry} (hn : (es.map (·.sym)).Nodup) {e : AlphaEntry} (he : e ∈ es) :
    (es.findIdx fun f => f.sym == e.sym) < es.length ∧
      es.getD (es.findIdx fun f => f.sym == e.sym) ⟨0, 0⟩ = e := by
  have hlt : (es.findIdx fun f => f.sym == e.sym) < es.length :=
    List.findIdx_lt_length_of_exists ⟨e, he, beq_self_eq_true _⟩
  refine ⟨hlt, ?_⟩
  rw [List.getD_eq_getElem _ _ hlt]
  refine List.inj_on_of_nodup_map hn (List.getElem_mem hlt) he ?_
  simpa using List.findIdx_getElem (w := hlt)

/-- Good entries that do not fit: the one reported is the sorted entry where CanonAssign fails. -/
theorem checkTable_of_canonAssign_error {es : List AlphaEntry} (hgood : GoodEntries es) {m : Nat}
    (hfail : canonAssign (sortLS es) = .error m) :
    ∃ k, k < es.length ∧ es.getD k ⟨0, 0⟩ = (sortLS es).getD m ⟨0, 0⟩ ∧
      checkTable es = .error ⟨.corruptTable, BitVec.ofNat 32 k⟩ := by
  have hm : m < (sortLS es).length := by simpa using (canonFrom_error_lt hfail).2
  have hmem : (sortLS es).getD m ⟨0, 0⟩ ∈ es := by
    rw [List.getD_eq_getElem _ _ hm]
    exact (perm_sortLS es).mem_iff.1 (List.getElem_mem hm)
  obtain ⟨hlt, hentry⟩ := getD_findIdx_sym hgood.2 hmem
  refine ⟨_, hlt, hentry, ?_⟩
  rw [checkTable, badEntryFrom_none_iff.2 ⟨hgood, by simp⟩]
  simp only [hfail]

/-- Good entries are accepted exactly when their Kraft sum is at most 1 (42_canonical_assign.md R106). -/
theorem exists_checkTable_iff_kraftSum {es : List AlphaEntry} (hgood : GoodEntries es) :
    (∃ r, checkTable es = .ok r) ↔ kraftSum es ≤ 2 ^ 255 := by
  have hlen : ∀ e ∈ sortLS es, e.len.toNat ≤ 127 := fun e he => (hgood.1 e ((perm_sortLS es).mem_iff.1 he)).2
  calc (∃ r, checkTable es = .ok r)
      ↔ ∃ codes, canonAssign (sortLS es) = .ok codes :=
        ⟨fun ⟨r, hr⟩ => ⟨r.2, (checkTable_ok_iff.1 hr).2.1 ▸ (checkTable_ok_iff.1 hr).2.2⟩,
          fun ⟨codes, hc⟩ => ⟨_, checkTable_ok_iff.2 ⟨hgood, rfl, hc⟩⟩⟩
    _ ↔ kraftSum (sortLS es) ≤ 2 ^ 255 := by rw [canonAssign_ok_iff (pairwise_sortLS es), and_iff_right hlen]
    _ ↔ kraftSum es ≤ 2 ^ 255 := by rw [kraftSum_perm (perm_sortLS es)]

/-- Settles O41. -/
theorem checkTableAcceptsExactlyTheFittingTables : Obligations.CheckTableAcceptsExactlyTheFittingTables := by
  refine fun es => ⟨fun ps codes => ?_, fun hgood => exists_checkTable_iff_kraftSum (goodEntries_iff.2 hgood),
    fun k => checkTable_of_first_bad, fun hgood m => checkTable_of_canonAssign_error (goodEntries_iff.2 hgood)⟩
  rw [checkTable_ok_iff, goodEntries_iff]
  rfl

/-! ### DESERIALIZE after a good header -/

/-- A completion leaves the tables alone. -/
theorem CodeCleared.complete {s : State} (h : CodeCleared s) (c : Status) (w : Word) :
    CodeCleared (Machine.complete c w s) := h

theorem HoldsCode.complete {s : State} {ps : List AlphaEntry} {codes : List Nat} (h : HoldsCode s ps codes) (c : Status)
    (w : Word) : HoldsCode (Machine.complete c w s) ps codes := h

/-- Settles O42: with a header that passes, DESERIALIZE installs the table that CheckTable accepts, or takes its error. -/
theorem deserializeRebuildsTheTables : Obligations.DeserializeRebuildsTheTables := by
  refine ⟨?_, ?_⟩
  · rintro s _ ps codes _ _ hadm hin h2 rfl rfl hp hn hsize hempty rfl hcheck
    have hb := (bufBytesAdmitted_iff.1 hadm).2.2
    have hheader := parseHeader_ok_iff.2 ⟨h2, hp, hn, hsize, hempty, rfl⟩
    obtain ⟨hgood, hsort, ha⟩ := checkTable_ok_iff.1 hcheck
    have hc : CanonicalAlphabet ps := hsort ▸ canonicalAlphabet_sortLS hgood
    have hlen : ps.length = (s.ibuf.read 1).toNat := by
      rw [hsort, length_sortLS]
      exact length_containerEntries _ _
    refine ⟨_, exec_deserialize_of_ok (deserializeStage_ok_iff.2 ⟨hin, _, ps, codes, hheader, hcheck, rfl⟩), rfl,
      ?_, ?_, ?_, fun h0 => ?_, fun hpos => ?_, ?_, fun b hb => tableAt_lenTableOf_none hb,
      fun e he => tableAt_lenTableOf hc.2.1 he⟩
    · rw [complete_pad, installContainer_pad, BitVec.toNat_ofNat, Nat.mod_eq_of_lt (Nat.lt_succ_of_le hp)]
    · rw [complete_payOff, installContainer_payOff, length_containerEntries, BitVec.toNat_ofNat,
        Nat.mod_eq_of_lt (by omega)]
    · rw [complete_payBits, installContainer_payBits, BitVec.toNat_ofNat, Nat.mod_eq_of_lt (by simp only; omega)]
    · obtain rfl := List.length_eq_zero_iff.1 (hlen.trans h0)
      exact codeCleared_of_empty.complete _ _
    · exact (holdsCode_installContainer (List.length_pos_iff.1 (hlen ▸ hpos)) hc ha).complete _ _
    · rw [complete_alphaN, installContainer_alphaN, hlen, BitVec.toNat_ofNat, Nat.mod_eq_of_lt (by omega)]
  · rintro s _ f _ _ hin h2 rfl rfl hp hn hsize hempty rfl hcheck
    have hheader := parseHeader_ok_iff.2 ⟨h2, hp, hn, hsize, hempty, rfl⟩
    have hstatus := checkTable_error hcheck
    refine ⟨hstatus, ?_⟩
    rw [exec_deserialize_of_error (deserializeStage_error_iff.2 (.inr ⟨hin, .inr ⟨_, hheader, hcheck⟩⟩)), takeError,
      hstatus]
    rfl

/-! ### What DECODE reads of a container -/

/-- MATCH's outcome is a function of what it reads. -/
theorem matchStage_congr {x y : State} (hbuf : y.bufBytes = x.bufBytes) (halphabet : alphabet y = alphabet x)
    (hcode : y.code = x.code) (hmax : y.maxLen = x.maxLen) (hbits : payloadBits y = payloadBits x) :
    (∃ f, matchStage x = .error f ∧ matchStage y = .error f) ∨
    (∃ out, matchStage x = .ok (storeOutput out x) ∧ matchStage y = .ok (storeOutput out y)) := by
  simp only [matchStage, hbuf, halphabet, hcode, hmax, hbits]
  cases matchAll (alphabet x) x.code x.maxLen.toNat x.bufBytes (payloadBits x) with
  | error f => exact .inl ⟨f, rfl, rfl⟩
  | ok out => exact .inr ⟨out, rfl, rfl⟩

/-- Containers of `s` and `u` with a nonempty payload, equal but for the padding bits, the low bits of the last byte
(43_container.md R118). -/
structure EqualButPadding (s u : State) : Prop where
  bufBytes : u.bufBytes = s.bufBytes
  inLen : u.inLen = s.inLen
  nonempty : 2 + 2 * (s.ibuf.read 1).toNat < s.inLen.toNat
  bytes : ∀ a, a + 1 < s.inLen.toNat → u.ibuf.read a = s.ibuf.read a
  lastByte : ∀ j, (s.ibuf.read 0).toNat ≤ j →
    (u.ibuf.read (s.inLen.toNat - 1)).getLsbD j = (s.ibuf.read (s.inLen.toNat - 1)).getLsbD j

section EqualButPadding

variable {s u : State} (h : EqualButPadding s u)

include h

/-- The header lies before the payload, whose last byte alone may differ. -/
theorem EqualButPadding.parseHeader_eq : parseHeader u.ibuf u.inLen.toNat = parseHeader s.ibuf s.inLen.toNat := by
  have hsize := h.nonempty
  have hentries : containerEntries u.ibuf (s.ibuf.read 1).toNat = containerEntries s.ibuf (s.ibuf.read 1).toNat := by
    refine List.map_congr_left fun k hk => ?_
    have := List.mem_range.1 hk
    rw [h.bytes _ (by omega), h.bytes _ (by omega)]
  simp only [parseHeader, h.inLen, h.bytes 0 (by omega), h.bytes 1 (by omega), hentries]

/-- The payload bits end before the padding. -/
theorem EqualButPadding.payloadBit_eq {k : Nat}
    (hk : k < 8 * (s.inLen.toNat - 2 - 2 * (s.ibuf.read 1).toNat) - (s.ibuf.read 0).toNat) :
    payloadBit u.ibuf (2 + 2 * (s.ibuf.read 1).toNat) k = payloadBit s.ibuf (2 + 2 * (s.ibuf.read 1).toNat) k := by
  rw [payloadBit, payloadBit]
  rcases Nat.lt_or_ge (2 + 2 * (s.ibuf.read 1).toNat + k / 8 + 1) s.inLen.toNat with hbefore | hlast
  · rw [h.bytes _ hbefore]
  · rw [show 2 + 2 * (s.ibuf.read 1).toNat + k / 8 = s.inLen.toNat - 1 by omega]
    exact h.lastByte _ (by omega)

/-- DESERIALIZE locates the same payload bits in both containers. -/
theorem EqualButPadding.payloadBits_eq {hd : Header} (hp : parseHeader s.ibuf s.inLen.toNat = .ok hd)
    (ps : List AlphaEntry) (codes : List Nat) :
    payloadBits (installContainer hd ps codes u) = payloadBits (installContainer hd ps codes s) := by
  obtain ⟨-, -, hn, -, -, rfl⟩ := parseHeader_ok_iff.1 hp
  refine List.map_congr_left fun k hk => ?_
  have hlt := List.mem_range.1 hk
  rw [installContainer_payBits, BitVec.toNat_ofNat] at hlt
  rw [installContainer_payOff, installContainer_payOff, length_containerEntries, BitVec.toNat_ofNat,
    Nat.mod_eq_of_lt (by omega)]
  exact h.payloadBit_eq (hlt.trans_le (Nat.mod_le _ _))

/-- DECODE of the two containers: the same error, or the same tables and output. -/
theorem EqualButPadding.decodeStages_agree :
    (∃ f, decodeStages s = .error f ∧ decodeStages u = .error f) ∨
    (∃ hd ps codes out, decodeStages s = .ok (storeOutput out (installContainer hd ps codes s)) ∧
      decodeStages u = .ok (storeOutput out (installContainer hd ps codes u))) := by
  cases hs : deserializeStage s with
  | error f =>
    have hu : deserializeStage u = .error f := by
      rw [deserializeStage_error_iff] at hs ⊢
      rwa [h.parseHeader_eq, h.inLen, h.bufBytes]
    exact .inl ⟨f, thenStage_error_iff.2 (.inl hs), thenStage_error_iff.2 (.inl hu)⟩
  | ok a =>
    obtain ⟨hin, hd, ps, codes, hp, hc, rfl⟩ := deserializeStage_ok_iff.1 hs
    have hu : deserializeStage u = .ok (installContainer hd ps codes u) :=
      deserializeStage_ok_iff.2 ⟨by rwa [h.inLen, h.bufBytes], hd, ps, codes, h.parseHeader_eq.trans hp, hc, rfl⟩
    rcases matchStage_congr (x := installContainer hd ps codes s) (y := installContainer hd ps codes u) h.bufBytes rfl
      rfl rfl (h.payloadBits_eq hp ps codes) with ⟨f, hms, hmu⟩ | ⟨out, hms, hmu⟩
    · exact .inl ⟨f, thenStage_error_iff.2 (.inr ⟨_, hs, hms⟩), thenStage_error_iff.2 (.inr ⟨_, hu, hmu⟩)⟩
    · exact .inr ⟨hd, ps, codes, out, thenStage_ok_iff.2 ⟨_, hs, hms⟩, thenStage_ok_iff.2 ⟨_, hu, hmu⟩⟩

end EqualButPadding

/-- Settles O52. -/
theorem paddingBitsAreIgnored : Obligations.PaddingBitsAreIgnored := by
  intro s u t v hbuf hin hsize hbytes hlast ht hv
  have hequal : EqualButPadding s u := ⟨hbuf, hin, hsize, hbytes, hlast⟩
  obtain rfl := exec_next ht
  obtain rfl := exec_next hv
  simp only [stageOf_decode]
  rcases hequal.decodeStages_agree with ⟨f, hs, hu⟩ | ⟨hd, ps, codes, out, hs, hu⟩
  · rw [hs, hu, completion_error_output rfl, completion_error_output rfl]
    exact ⟨rfl, rfl, rfl, fun hok => absurd hok (stageOf_status_ne_ok (i := .decode) hs)⟩
  · rw [hs, hu, completion_ok, completion_ok]
    refine ⟨rfl, rfl, rfl, fun _ => ⟨⟨rfl, rfl, rfl, rfl, rfl, rfl, rfl, rfl, rfl⟩, fun a ha => ?_⟩⟩
    have hlt : a < out.length := by
      rw [complete_outLen, storeOutput_outLen, BitVec.toNat_ofNat] at ha
      exact ha.trans_le (Nat.mod_le _ _)
    calc (Memory.ofBytes u.draws out).read a
        = out[a] := Memory.read_ofBytes_lt hlt
      _ = (Memory.ofBytes s.draws out).read a := (Memory.read_ofBytes_lt hlt).symm

end Sys2Proof.Machine

/-! PROOFS. The family 44_bit_matcher.md. MATCH's completion from the outcome of Match(), what it stores and discards,
and what coherent tables make of each outcome: an OK one is the encoding of its output, an error stands at the end of
some text's codewords. -/

namespace Sys2Proof.Machine

/-! ### MATCH's outcomes -/

theorem exec_matchBits_of_ok {s : State} {out : List Byte} (hp : payloadInBuffer s = true)
    (h : matchAll (alphabet s) s.code s.maxLen.toNat s.bufBytes (payloadBits s) = .ok out) :
    exec .matchBits s = .next (complete .ok 0 (storeOutput out s)) := by
  rw [exec_eq .matchBits s fun _ => hp, stageOf_matchBits, matchStage_ok_iff.2 ⟨out, h, rfl⟩, completion_ok]

theorem exec_matchBits_of_error {s : State} {f : Failure} (hp : payloadInBuffer s = true)
    (h : matchAll (alphabet s) s.code s.maxLen.toNat s.bufBytes (payloadBits s) = .error f) :
    exec .matchBits s = .next (takeOutputError f s) := by
  rw [exec_eq .matchBits s fun _ => hp, stageOf_matchBits, matchStage_error_iff.2 h, completion_error_output rfl]

theorem exec_matchBits_of_outside {s : State} (hp : payloadInBuffer s = false) :
    exec .matchBits s = .fault .payloadOutsideBuffer :=
  if_neg (by simp [hp])

/-- MATCH that completes OK stored the output of Match(). -/
theorem exec_matchBits_ok {s t : State} (h : exec .matchBits s = .next t) (hok : t.statusCode = .ok) :
    ∃ out, matchAll (alphabet s) s.code s.maxLen.toNat s.bufBytes (payloadBits s) = .ok out ∧
      t = complete .ok 0 (storeOutput out s) := by
  obtain ⟨u, hu, rfl⟩ := exec_ok h hok
  obtain ⟨out, hout, rfl⟩ := matchStage_ok_iff.1 hu
  exact ⟨out, hout, rfl⟩

/-- MATCH that does not complete OK reports the failure of Match(). -/
theorem exec_matchBits_error {s t : State} (h : exec .matchBits s = .next t) (hne : t.statusCode ≠ .ok) :
    ∃ f, matchAll (alphabet s) s.code s.maxLen.toNat s.bufBytes (payloadBits s) = .error f ∧
      t.statusCode = f.status ∧ t.errInfo = f.info := by
  obtain ⟨f, hf, rfl⟩ := exec_error h hne
  exact ⟨f, matchStage_error_iff.1 hf, completion_statusCode_error _ _ _⟩

/-- OUT_LEN counts an output that fits a 32-bit register. -/
theorem toNat_storeOutput_outLen {out : List Byte} (h : out.length < 2 ^ 32) (s : State) :
    (storeOutput out s).outLen.toNat = out.length := by
  rw [storeOutput_outLen, BitVec.toNat_ofNat, Nat.mod_eq_of_lt h]

/-! ### MATCH inverts encoding -/

/-- Settles O45: coherent tables hold a prefix code, over which Match() and the concatenation of codewords are inverse. -/
theorem matchInvertsEncoding : Obligations.MatchInvertsEncoding := by
  refine ⟨fun s text hadm hcoh hp hcov hlen hbits => ?_, fun s t hadm hcoh hexec hok => ?_,
    fun s bits e f hcoh he hf => prefix_unique (prefixCode_of_coherent hcoh).1 he hf⟩
  · have hb := (bufBytesAdmitted_iff.1 hadm).2.2
    have hmatch := matchAll_encoded (prefixCode_of_coherent hcoh).1 hcov hlen
    rw [← encodeText_eq, ← hbits] at hmatch
    exact ⟨_, exec_matchBits_of_ok hp hmatch, rfl, toNat_storeOutput_outLen (by omega) s, Memory.bytes_ofBytes _ _⟩
  · have hb := (bufBytesAdmitted_iff.1 hadm).2.2
    obtain ⟨out, hmatch, rfl⟩ := exec_matchBits_ok hexec hok
    have hlen := matchAll_length hmatch
    obtain ⟨hprefix, hnodup⟩ := prefixCode_of_coherent hcoh
    rw [complete_outLen, toNat_storeOutput_outLen (by omega), complete_obuf, storeOutput_obuf, Memory.bytes_ofBytes]
    exact matchAll_ok hprefix hnodup hmatch

/-! ### What MATCH reads and writes -/

/-- Payload bit `k` is a digit of its byte (44_bit_matcher.md R122). -/
theorem getD_payloadBits {s : State} {k : Nat} (h : k < s.payBits.toNat) :
    (payloadBits s).getD k false =
      decide ((s.ibuf.read (s.payOff.toNat + k / 8)).toNat / 2 ^ (7 - k % 8) % 2 = 1) := by
  have hlt : k < (payloadBits s).length := by rwa [length_payloadBits]
  have hbit : (payloadBits s)[k] = payloadBit s.ibuf s.payOff.toNat k := by simp [payloadBits]
  rw [List.getD_eq_getElem _ _ hlt, hbit]
  exact Nat.testBit_eq_decide_div_mod_eq

/-- Settles O44: the completion of each outcome of Match(), and the fault where the payload is not in IBUF. -/
theorem matchEmitsTheMatchedSymbols : Obligations.MatchEmitsTheMatchedSymbols := by
  refine fun s hb => ⟨⟨length_payloadBits s, fun k hk => getD_payloadBits hk⟩, fun out hp hmatch => ?_,
    fun f hp hmatch => ?_, exec_matchBits_of_outside⟩
  · have hlen := matchAll_length hmatch
    refine ⟨_, exec_matchBits_of_ok hp hmatch, rfl, toNat_storeOutput_outLen (by omega) s, fun j hj => ?_,
      fun a ha => Memory.read_ofBytes_ge ha⟩
    rw [List.getD_eq_getElem _ _ hj]
    exact Memory.read_ofBytes_lt hj
  · exact ⟨_, exec_matchBits_of_error hp hmatch, rfl, matchFrom_status hmatch,
      fun a => Memory.read_ofBytes_ge (Nat.zero_le a)⟩

/-! ### The cursor of an error -/

/-- Settles O46: Match() fails after the codewords of some text, whose length is the cursor. -/
theorem unmatchedBitsReportsTheCursor : Obligations.UnmatchedBitsReportsTheCursor := by
  intro s t _ hcoh hexec hne
  obtain ⟨f, hmatch, hstatus, hinfo⟩ := exec_matchBits_error hexec hne
  obtain ⟨hprefix, hnodup⟩ := prefixCode_of_coherent hcoh
  obtain ⟨text, rest, hcov, hbits, hrest, hcursor, hcause⟩ :=
    matchFrom_error hprefix hnodup (Nat.zero_le _) (Nat.le_refl _) hmatch
  rw [← encodeText_eq] at hbits hcursor
  rw [Nat.zero_add] at hcursor hcause
  have hlt : (encodeText s text).length < s.payBits.toNat := by
    have := List.length_pos_iff.2 hrest
    rw [← length_payloadBits, hbits, List.length_append]
    omega
  have hinfo' : t.errInfo.toNat = (encodeText s text).length := by
    rw [hinfo, hcursor, BitVec.toNat_ofNat, Nat.mod_eq_of_lt (hlt.trans s.payBits.isLt)]
  have hdrop : (payloadBits s).drop t.errInfo.toNat = rest := by rw [hinfo', hbits, List.drop_left]
  rw [hdrop, hstatus]
  exact ⟨text, hcov, hinfo'.symm, hbits, hinfo'.trans_lt hlt, hcause⟩

end Sys2Proof.Machine

/-! PROOFS. The family 45_composite.md. ENCODE of a nonempty input as SERIALIZE over the Huffman code of that input,
with its three outcomes, and DECODE of the container it leaves; the agreement that each stage of ENCODE keeps; the
composite commands as their stages in order; inputs of one repeated byte and the empty input; NOP and the illegal words. -/

namespace Sys2Proof.Machine

/-! ### Completions of the composite commands -/

theorem exec_encode_of_ok {s u : State} (h : encodeStages s = .ok u) : exec .encode s = .next (complete .ok 0 u) := by
  rw [exec_eq .encode s nofun, stageOf_encode, h, completion_ok]

theorem exec_encode_of_error {s : State} {f : Failure} (h : encodeStages s = .error f) :
    exec .encode s = .next (takeOutputError f s) := by
  rw [exec_eq .encode s nofun, stageOf_encode, h, completion_error_output rfl]

theorem exec_decode_of_ok {s u : State} (h : decodeStages s = .ok u) : exec .decode s = .next (complete .ok 0 u) := by
  rw [exec_eq .decode s nofun, stageOf_decode, h, completion_ok]

theorem exec_decode_of_error {s : State} {f : Failure} (h : decodeStages s = .error f) :
    exec .decode s = .next (takeOutputError f s) := by
  rw [exec_eq .decode s nofun, stageOf_decode, h, completion_error_output rfl]

/-! ### ENCODE of a nonempty input -/

/-- `L` and `codes` are the Huffman lengths of the input of `s` and their canonical code, and ENCODE is SERIALIZE with
them (45_composite.md R130). -/
structure HuffmanCode (s : State) (L : Table Byte) (codes : List Nat) : Prop where
  lengths : buildLengths (countTable (inputBytes s)) = .ok L
  values : canonAssign (lenPairs L) = .ok codes
  size : (lenPairs L).length = distinctCount (inputBytes s)
  nonempty : lenPairs L ≠ []
  covered : Covered (lenPairs L) (inputBytes s)
  stages : encodeStages s = serializeStage (encodedTables s L codes)

/-- A nonempty input that fits the buffer has a Huffman code. -/
theorem exists_huffmanCode {s : State} (hadm : bufBytesAdmitted s.bufBytes = true) (h1 : 1 ≤ s.inLen.toNat)
    (h2 : s.inLen.toNat ≤ s.bufBytes) : ∃ L codes, HuffmanCode s L codes := by
  obtain ⟨L, codes, hL, hc, hne, hp, hser⟩ :=
    encodeStages_nonempty (bufBytesAdmitted_iff.1 hadm).2.2 (inLen_ne_zero h1) h2
  have hlt := length_inputBytes_lt s
  refine ⟨L, codes, hL, hc, ?_, hne, covered_of_perm hlt hp, hser⟩
  rw [← length_presentSymbols_countTable hlt, ← hp.length_eq, List.length_map]

/-- The size of the container of the input of `s` over the code lengths `L`: two bytes, two for each distinct byte and
the packed payload (45_composite.md R130). -/
def encodedSize (s : State) (L : Table Byte) : Nat :=
  2 + 2 * distinctCount (inputBytes s) + (((inputBytes s).map fun b => (tableAt L b).toNat).sum + 7) / 8

/-- The payload bits that ENCODE packs: the codewords of the input. -/
def encodedBits (s : State) (L : Table Byte) (codes : List Nat) : BitStr :=
  (inputBytes s).flatMap (wordOf (lenPairs L) (codeTableOf (lenPairs L) codes))

/-- What ENCODE commits where it completes OK. -/
def encoded (s : State) (L : Table Byte) (codes : List Nat) : State :=
  serialized (encodedBits s L codes) (encodedTables s L codes)

namespace HuffmanCode

variable {s : State} {L : Table Byte} {codes : List Nat} (h : HuffmanCode s L codes)

include h

theorem holdsCode : HoldsCode (encodedTables s L codes) (lenPairs L) codes :=
  holdsCode_encodedTables h.values h.nonempty

theorem alphabet : alphabet (encodedTables s L codes) = lenPairs L := alphabet_of_holdsCode h.holdsCode

theorem toNat_alphaN : (encodedTables s L codes).alphaN.toNat = distinctCount (inputBytes s) := by
  obtain ⟨-, -, -, hn, -⟩ := h.holdsCode
  exact hn.trans h.size

theorem encodeText_eq : encodeText (encodedTables s L codes) (inputBytes s) = encodedBits s L codes := by
  rw [Machine.encodeText_eq, h.alphabet]
  rfl

theorem length_encodedBits : (encodedBits s L codes).length = ((inputBytes s).map fun b => (tableAt L b).toNat).sum :=
  length_flatMap_wordOf (fun _ he => (mem_lenPairs.1 he).1) h.covered

theorem length_container : (containerBytes (lenPairs L) (encodedBits s L codes)).length = encodedSize s L := by
  rw [length_containerBytes, h.size, h.length_encodedBits, encodedSize]

theorem encodeBits_eq :
    encodeBits (Machine.alphabet (encodedTables s L codes)) (encodedTables s L codes).code
      (inputBytes (encodedTables s L codes)) = .ok (encodedBits s L codes) := by
  rw [h.alphabet]
  exact encodeBits_ok_iff.2 ⟨h.covered, rfl⟩

/-- A container over at most 128 symbols has a size below 2^32: a codeword has at most 255 bits. -/
theorem encodedSize_lt (hadm : bufBytesAdmitted s.bufBytes = true) (hin : s.inLen.toNat ≤ s.bufBytes)
    (hn : distinctCount (inputBytes s) ≤ 128) : encodedSize s L < 2 ^ 32 := by
  have hb := (bufBytesAdmitted_iff.1 hadm).2.2
  have hbits := length_encodeText_le (encodedTables s L codes) (inputBytes s)
  rw [h.encodeText_eq, h.length_encodedBits, length_inputBytes] at hbits
  rw [encodedSize]
  omega

/-- At most 128 distinct bytes and a container that fits: ENCODE completes OK. -/
theorem exec_encode_ok (hin : s.inLen.toNat ≤ s.bufBytes) (hn : distinctCount (inputBytes s) ≤ 128)
    (hfit : encodedSize s L ≤ s.bufBytes) : exec .encode s = .next (complete .ok 0 (encoded s L codes)) := by
  refine exec_encode_of_ok (h.stages.trans (serializeStage_ok_iff.2
    ⟨hin, h.toNat_alphaN.trans_le hn, _, h.encodeBits_eq, ?_, rfl⟩))
  rw [h.alphabet, h.length_container]
  exact hfit

/-- More than 128 distinct bytes: AlphabetTooLarge with their number. -/
theorem exec_encode_tooLarge (hin : s.inLen.toNat ≤ s.bufBytes) (hn : 128 < distinctCount (inputBytes s)) :
    ∃ w : Word, exec .encode s = .next (takeOutputError ⟨.alphabetTooLarge, w⟩ s) ∧
      w.toNat = distinctCount (inputBytes s) := by
  refine ⟨(encodedTables s L codes).alphaN.setWidth 32, exec_encode_of_error (h.stages.trans (serializeStage_error_iff.2
    (.inr (.inl ⟨hin, h.toNat_alphaN.symm ▸ hn, rfl⟩)))), ?_⟩
  rw [BitVec.toNat_setWidth_of_le (by decide), h.toNat_alphaN]

/-- A container that does not fit: OutputOverflow with its size. -/
theorem exec_encode_overflow (hin : s.inLen.toNat ≤ s.bufBytes) (hn : distinctCount (inputBytes s) ≤ 128)
    (hover : s.bufBytes < encodedSize s L) :
    exec .encode s = .next (takeOutputError ⟨.outputOverflow, BitVec.ofNat 32 (encodedSize s L)⟩ s) := by
  refine exec_encode_of_error (h.stages.trans (serializeStage_error_iff.2
    (.inr (.inr ⟨hin, h.toNat_alphaN.trans_le hn, .inr ⟨_, h.encodeBits_eq, ?_, ?_⟩⟩))))
  · rw [h.alphabet, h.length_container]
    exact hover
  · rw [h.alphabet, h.length_container]

/-- OUT_LEN counts a container that fits. -/
theorem toNat_outLen (hadm : bufBytesAdmitted s.bufBytes = true) (hfit : encodedSize s L ≤ s.bufBytes) :
    (encoded s L codes).outLen.toNat = encodedSize s L := by
  have hb := (bufBytesAdmitted_iff.1 hadm).2.2
  rw [encoded, serialized_outLen, h.alphabet, h.length_container, BitVec.toNat_ofNat, Nat.mod_eq_of_lt (by omega)]

/-- OBUF holds the container of the input. -/
theorem obuf_encoded :
    (encoded s L codes).obuf = Memory.ofBytes s.draws (containerBytes (lenPairs L) (encodedBits s L codes)) := by
  rw [encoded, serialized_obuf, h.alphabet]
  rfl

theorem toNat_pad :
    (encoded s L codes).pad.toNat = (8 - ((inputBytes s).map fun b => (tableAt L b).toNat).sum % 8) % 8 := by
  rw [encoded, serialized_pad, BitVec.toNat_ofNat, Nat.mod_eq_of_lt (paddingCount_lt _), h.length_encodedBits,
    paddingCount]

theorem bytes_encoded :
    (encoded s L codes).obuf.bytes 0 (encodedSize s L) = containerBytes (lenPairs L) (encodedBits s L codes) := by
  rw [h.obuf_encoded, ← h.length_container, Memory.bytes_ofBytes]

/-- DECODE of the container of the input stores the input. -/
theorem exec_decode_container {u : State} (hn : distinctCount (inputBytes s) ≤ 128) (hb : u.bufBytes ≤ 2 ^ 24)
    (hin : s.inLen.toNat ≤ u.bufBytes) (hsize : u.inLen.toNat = encodedSize s L) (hfit : encodedSize s L ≤ u.bufBytes)
    (hm : HoldsContainer u.ibuf (lenPairs L) (encodedBits s L codes)) :
    ∃ hd, exec .decode u =
      .next (complete .ok 0 (storeOutput (inputBytes s) (installContainer hd (lenPairs L) codes u))) := by
  obtain ⟨hd, hdec⟩ := decodeStages_container (h.size.trans_le hn) hb (canonicalAlphabet_lenPairs h.values) h.values
    h.covered ((length_inputBytes s).trans_le hin) (hsize.trans h.length_container.symm) (hsize.trans_le hfit) hm
  exact ⟨hd, exec_decode_of_ok hdec⟩

end HuffmanCode

theorem getElem_inputBytes {s : State} {a : Nat} (h : a < (inputBytes s).length) :
    (inputBytes s)[a] = s.ibuf.read a :=
  (Memory.getElem_bytes h).trans (by rw [Nat.zero_add])

/-- An output that is the input of `s` has its length and its bytes. -/
theorem storeOutput_inputBytes (s u : State) :
    (storeOutput (inputBytes s) u).outLen = s.inLen ∧
      ∀ a, a < s.inLen.toNat → (storeOutput (inputBytes s) u).obuf.read a = s.ibuf.read a := by
  refine ⟨by simp, fun a ha => ?_⟩
  have hlt : a < (inputBytes s).length := by rwa [length_inputBytes]
  rw [storeOutput_obuf, Memory.read_ofBytes_lt hlt, getElem_inputBytes]

/-- Settles O53: ENCODE has its three outcomes, and DECODE matches the codewords of the input in the container. -/
theorem decodeOfEncodeIsTheInput : Obligations.DecodeOfEncodeIsTheInput := by
  intro s t u hadm h1 hin hexec
  have hb := (bufBytesAdmitted_iff.1 hadm).2.2
  obtain ⟨L, codes, h⟩ := exists_huffmanCode hadm h1 hin
  rcases Nat.lt_or_ge 128 (distinctCount (inputBytes s)) with hlarge | hn
  · obtain ⟨w, hw, -⟩ := h.exec_encode_tooLarge hin hlarge
    obtain rfl := Host.Outcome.next.inj (hw.symm.trans hexec)
    exact ⟨.inr (.inl rfl), fun _ => hlarge, nofun⟩
  rcases Nat.lt_or_ge s.bufBytes (encodedSize s L) with hover | hfit
  · obtain rfl := Host.Outcome.next.inj ((h.exec_encode_overflow hin hn hover).symm.trans hexec)
    exact ⟨.inr (.inr rfl), nofun, nofun⟩
  obtain rfl := Host.Outcome.next.inj ((h.exec_encode_ok hin hn hfit).symm.trans hexec)
  refine ⟨.inl rfl, nofun, fun _ hbuf hlen hmem => ?_⟩
  have hout := h.toNat_outLen hadm hfit
  rw [complete_outLen, hout, complete_obuf, h.obuf_encoded] at hmem
  have hholds : HoldsContainer u.ibuf (lenPairs L) (encodedBits s L codes) :=
    (holdsContainer_ofBytes s.draws _ _).congr (by rwa [h.length_container])
  obtain ⟨hd, hdec⟩ := h.exec_decode_container hn (hbuf.trans_le hb) (hin.trans_eq hbuf.symm)
    ((congrArg BitVec.toNat hlen).trans hout) (hfit.trans_eq hbuf.symm) hholds
  exact ⟨_, hdec, rfl, storeOutput_inputBytes s _⟩

/-- ENCODE reports a failure whose ERR_INFO is the number `n`, and leaves no output and no table. -/
theorem exec_encode_reports {s : State} {c : Status} {w : Word} {n : Nat}
    (h : exec .encode s = .next (takeOutputError ⟨c, w⟩ s)) (hn : w.toNat = n) :
    ∃ t, exec .encode s = .next t ∧ t.statusCode = c ∧ t.errInfo.toNat = n ∧ t.outLen = 0 ∧ SameTables s t := by
  obtain ⟨hstatus, hinfo, hout, htables⟩ := takeOutputError_reports ⟨c, w⟩ s
  exact ⟨_, h, hstatus, (congrArg BitVec.toNat hinfo).trans hn, hout, htables⟩

/-- Settles O48: the three outcomes of SERIALIZE over the Huffman code of the input. -/
theorem encodeOfANonemptyInput : Obligations.EncodeOfANonemptyInput := by
  intro s hadm h1 hin
  obtain ⟨L, codes, h⟩ := exists_huffmanCode hadm h1 hin
  refine ⟨L, codes, h.lengths, h.values, h.size, fun hn hfit => ?_, fun hlarge => ?_, fun hn hover => ?_⟩
  · have htext : encodeText (complete .ok 0 (encoded s L codes)) (inputBytes s) = encodedBits s L codes :=
      h.encodeText_eq
    refine ⟨_, h.exec_encode_ok hin hn hfit, rfl, rfl, rfl, rfl, h.holdsCode, h.toNat_outLen hadm hfit, ?_,
      by simp [encoded, encodedTables], by simp [encoded, encodedTables], ?_, ?_⟩
    · rw [complete_pad]
      exact h.toNat_pad
    · rw [htext]
      exact h.bytes_encoded
    · rw [htext]
      exact h.length_encodedBits
  · obtain ⟨w, hexec, hw⟩ := h.exec_encode_tooLarge hin hlarge
    exact exec_encode_reports hexec hw
  · exact exec_encode_reports (h.exec_encode_overflow hin hn hover)
      ((BitVec.toNat_ofNat _ _).trans (Nat.mod_eq_of_lt (h.encodedSize_lt hadm hin hn)))

/-! ### Determinism -/

/-- Two outcomes of one stage: the same failure, or states that `R` relates. -/
def Agree (R : State → State → Prop) (p q : Except Failure State) : Prop :=
  (∃ f, p = .error f ∧ q = .error f) ∨ ∃ x y, p = .ok x ∧ q = .ok y ∧ R x y

/-- A stage that takes related states to agreeing outcomes keeps agreement. -/
theorem Agree.thenStage {R Q : State → State → Prop} {p q : Except Failure State} {stage : State → Except Failure State}
    (h : Agree R p q) (hstage : ∀ x y, R x y → Agree Q (stage x) (stage y)) :
    Agree Q (thenStage p stage) (thenStage q stage) := by
  rcases h with ⟨f, rfl, rfl⟩ | ⟨x, y, rfl, rfl, hxy⟩
  · exact .inl ⟨f, rfl, rfl⟩
  · exact hstage x y hxy

/-- The same buffer size and the same input. -/
structure SameInput (x y : State) : Prop where
  bufBytes : y.bufBytes = x.bufBytes
  inLen : y.inLen = x.inLen
  input : inputBytes y = inputBytes x

/-- The same input and frequencies. -/
structure SameCounts (x y : State) : Prop extends SameInput x y where
  freq : y.freq = x.freq

/-- The same input, frequencies and code lengths. -/
structure SameLengths (x y : State) : Prop extends SameCounts x y where
  len : y.len = x.len

/-- The same input, frequencies, code lengths and code. -/
structure SameCode (x y : State) : Prop extends SameLengths x y where
  alpha : y.alpha = x.alpha
  alphaN : y.alphaN = x.alphaN
  code : y.code = x.code
  maxLen : y.maxLen = x.maxLen

/-- The same tables that ENCODE writes, and the same output in OBUF. -/
structure SameResult (x y : State) : Prop where
  freq : y.freq = x.freq
  len : y.len = x.len
  alpha : y.alpha = x.alpha
  alphaN : y.alphaN = x.alphaN
  code : y.code = x.code
  maxLen : y.maxLen = x.maxLen
  pad : y.pad = x.pad
  outLen : y.outLen = x.outLen
  output : ∀ a, a < x.outLen.toNat → y.obuf.read a = x.obuf.read a

theorem SameInput.countStage {x y : State} (h : SameInput x y) : Agree SameCounts (countStage x) (countStage y) := by
  rcases Nat.lt_or_ge x.bufBytes x.inLen.toNat with hlt | hle
  · exact .inl ⟨_, countStage_error_iff.2 ⟨hlt, rfl⟩,
      countStage_error_iff.2 ⟨by rwa [h.bufBytes, h.inLen], by rw [h.inLen]⟩⟩
  · refine .inr ⟨_, _, countStage_ok_iff.2 ⟨hle, rfl⟩, countStage_ok_iff.2 ⟨by rwa [h.bufBytes, h.inLen], rfl⟩, ?_⟩
    exact ⟨⟨h.bufBytes, h.inLen, h.input⟩, congrArg countTable h.input⟩

theorem SameCounts.buildStage {x y : State} (h : SameCounts x y) : Agree SameLengths (buildStage x) (buildStage y) := by
  simp only [Machine.buildStage, h.freq]
  cases buildLengths x.freq with
  | error f => exact .inl ⟨f, rfl, rfl⟩
  | ok L => exact .inr ⟨_, _, rfl, rfl, ⟨⟨h.bufBytes, h.inLen, h.input⟩, h.freq⟩, rfl⟩

theorem SameLengths.assignStage {x y : State} (h : SameLengths x y) :
    Agree SameCode (assignStage x) (assignStage y) := by
  cases hx : Machine.assignStage x with
  | error f =>
    refine .inl ⟨f, rfl, ?_⟩
    rw [assignStage_error_iff] at hx ⊢
    rwa [h.len]
  | ok t =>
    obtain ⟨hne, codes, hc, rfl⟩ := assignStage_ok_iff.1 hx
    refine .inr ⟨_, installCode (lenPairs x.len) codes y, rfl, ?_, ?_⟩
    · exact assignStage_ok_iff.2 ⟨by rwa [h.len], codes, by rwa [h.len], by rw [h.len]⟩
    · exact ⟨⟨⟨⟨h.bufBytes, h.inLen, h.input⟩, h.freq⟩, h.len⟩, rfl, rfl, rfl, rfl⟩

theorem SameCounts.encodeTables {x y : State} (h : SameCounts x y) :
    Agree SameCode (encodeTables x) (encodeTables y) := by
  rw [Machine.encodeTables, Machine.encodeTables, h.inLen]
  split
  · exact .inr ⟨_, _, rfl, rfl, ⟨⟨⟨h.bufBytes, h.inLen, h.input⟩, h.freq⟩, rfl⟩, rfl, rfl, rfl, rfl⟩
  · exact h.buildStage.thenStage fun _ _ => SameLengths.assignStage

theorem SameCode.serializeStage {x y : State} (h : SameCode x y) :
    Agree SameResult (serializeStage x) (serializeStage y) := by
  have halpha := alphabet_congr h.alpha h.alphaN
  rcases serializeStage_congr h.bufBytes h.inLen h.alphaN halpha h.code h.input with ⟨f, hx, hy⟩ | ⟨bits, hx, hy⟩
  · exact .inl ⟨f, hx, hy⟩
  · refine .inr ⟨_, _, hx, hy, by simp [h.freq], by simp [h.len], by simp [h.alpha], by simp [h.alphaN],
      by simp [h.code], by simp [h.maxLen], by simp, by simp [halpha], fun a ha => ?_⟩
    have hlt : a < (containerBytes (alphabet x) bits).length := by
      rw [serialized_outLen, BitVec.toNat_ofNat] at ha
      exact ha.trans_le (Nat.mod_le _ _)
    rw [serialized_obuf, serialized_obuf, halpha, Memory.read_ofBytes_lt hlt, Memory.read_ofBytes_lt hlt]

/-- ENCODE reads only its input. -/
theorem SameInput.encodeStages {x y : State} (h : SameInput x y) :
    Agree SameResult (encodeStages x) (encodeStages y) :=
  (h.countStage.thenStage fun _ _ => SameCounts.encodeTables).thenStage fun _ _ => SameCode.serializeStage

/-- Settles O49: each stage of ENCODE keeps the agreement of what it reads. -/
theorem encodeDependsOnlyOnTheInput : Obligations.EncodeDependsOnlyOnTheInput := by
  intro s u t v hbuf hin hinput ht hv
  have hsame : SameInput s u := ⟨hbuf, hin, hinput⟩
  rcases hsame.encodeStages with ⟨f, hs, hu⟩ | ⟨x, y, hs, hu, h⟩
  · obtain rfl := Host.Outcome.next.inj ((exec_encode_of_error hs).symm.trans ht)
    obtain rfl := Host.Outcome.next.inj ((exec_encode_of_error hu).symm.trans hv)
    exact ⟨rfl, rfl, rfl, fun hok => absurd hok (stageOf_status_ne_ok (i := .encode) hs)⟩
  · obtain rfl := Host.Outcome.next.inj ((exec_encode_of_ok hs).symm.trans ht)
    obtain rfl := Host.Outcome.next.inj ((exec_encode_of_ok hu).symm.trans hv)
    exact ⟨rfl, rfl, h.outLen, fun _ => ⟨h.freq, h.len, h.alpha, h.alphaN, h.code, h.maxLen, h.pad, h.output⟩⟩

/-! ### DECODE -/

/-- MATCH after DESERIALIZE matches the payload of the container over its code. -/
theorem matchStage_installContainer {hd : Header} {ps : List AlphaEntry} {codes : List Nat} {s : State}
    {out : List Byte} (hl : ps.length ≤ 256) (h1 : 2 + 2 * hd.entries.length < 2 ^ 32)
    (h2 : 8 * hd.payloadBytes - hd.padding < 2 ^ 32)
    (h : matchAll ps (codeTableOf ps codes) (maxLenOf ps).toNat s.bufBytes
      ((List.range (8 * hd.payloadBytes - hd.padding)).map (payloadBit s.ibuf (2 + 2 * hd.entries.length))) = .ok out) :
    matchStage (installContainer hd ps codes s) = .ok (storeOutput out (installContainer hd ps codes s)) := by
  refine matchStage_ok_iff.2 ⟨out, ?_, rfl⟩
  rw [alphabet_installContainer hl, payloadBits_installContainer h1 h2]
  exact h

/-- DECODE of a container whose header, table and payload pass leaves what DESERIALIZE leaves, with the matched symbols
as the output. -/
theorem exec_decode_of_container {s : State} {hd : Header} {ps : List AlphaEntry} {codes : List Nat} {out : List Byte}
    (hb : s.bufBytes ≤ 2 ^ 24) (hin : s.inLen.toNat ≤ s.bufBytes) (hp : parseHeader s.ibuf s.inLen.toNat = .ok hd)
    (hc : checkTable hd.entries = .ok (ps, codes))
    (hm : matchAll ps (codeTableOf ps codes) (maxLenOf ps).toNat s.bufBytes
      ((List.range (8 * hd.payloadBytes - hd.padding)).map (payloadBit s.ibuf (2 + 2 * hd.entries.length))) = .ok out) :
    ∃ a, exec .deserialize s = .next a ∧ a.freq = s.freq ∧ a.draws = s.draws ∧
      exec .decode s = .next (complete .ok 0 (storeOutput out a)) := by
  have hw := payload_within hp
  have hdes := deserializeStage_ok_iff.2 ⟨hin, hd, ps, codes, hp, hc, rfl⟩
  obtain ⟨hgood, hsort, -⟩ := checkTable_ok_iff.1 hc
  have hl : ps.length ≤ 256 := length_le_of_nodup (hsort ▸ canonicalAlphabet_sortLS hgood).2.1
  have hdec := exec_decode_of_ok (thenStage_ok_iff.2
    ⟨_, hdes, matchStage_installContainer hl (by omega) (by omega) hm⟩)
  exact ⟨_, exec_deserialize_of_ok hdes, rfl, rfl, hdec⟩

/-- Settles O50: the tables are those that DESERIALIZE leaves, and MATCH adds the matched symbols. -/
theorem decodeWritesTablesAndText : Obligations.DecodeWritesTablesAndText := by
  rintro s _ ps codes _ _ _ out hadm hin h2 rfl rfl hp hn hsize hempty rfl hcheck rfl hmatch
  have hb := (bufBytesAdmitted_iff.1 hadm).2.2
  have hheader := parseHeader_ok_iff.2 ⟨h2, hp, hn, hsize, hempty, rfl⟩
  have hout := matchAll_length hmatch
  obtain ⟨a, hexec, hfreq, hdraws, hdec⟩ := exec_decode_of_container (out := out) hb hin hheader hcheck
    (by rw [length_containerEntries]; exact hmatch)
  obtain ⟨a', hexec', -, hpad, hoff, hbits, hcleared, hholds, -⟩ := deserializeRebuildsTheTables.1 s _ ps codes _ _ hadm
    hin h2 rfl rfl hp hn hsize hempty rfl hcheck
  obtain rfl := Host.Outcome.next.inj (hexec.symm.trans hexec')
  refine ⟨_, hdec, rfl, rfl, hfreq, hpad, hoff, ?_, hcleared, hholds, toNat_storeOutput_outLen (by omega) a,
    Memory.bytes_ofBytes _ _, fun b hb => hdraws ▸ Memory.read_ofBytes_ge hb⟩
  rw [List.length_map, List.length_range]
  exact hbits

/-! ### Staged and composite commands -/

/-- The stage neither reads nor writes what a completion sets: BUSY, DONE, CODE and ERR_INFO. -/
def IgnoresStatus (stage : State → Except Failure State) : Prop :=
  ∀ c w s, stage (complete c w s) = (stage s).map (complete c w)

theorem ignoresStatus_buildStage : IgnoresStatus buildStage := by
  intro c w s
  simp only [buildStage, complete_freq]
  cases buildLengths s.freq <;> rfl

theorem ignoresStatus_assignStage : IgnoresStatus assignStage := by
  intro c w s
  cases hs : assignStage s with
  | error f => exact (assignStage_error_iff (s := complete c w s)).2 (assignStage_error_iff (s := s).1 hs)
  | ok t =>
    obtain ⟨hne, codes, hc, rfl⟩ := assignStage_ok_iff.1 hs
    exact (assignStage_ok_iff (s := complete c w s)).2 ⟨hne, codes, hc, rfl⟩

theorem ignoresStatus_serializeStage : IgnoresStatus serializeStage := by
  intro c w s
  rcases serializeStage_congr (x := s) (y := complete c w s) rfl rfl rfl rfl rfl rfl with ⟨f, hs, hc⟩ | ⟨bits, hs, hc⟩
  · rw [hs, hc]
    rfl
  · rw [hs, hc]
    rfl

theorem ignoresStatus_matchStage : IgnoresStatus matchStage := by
  intro c w s
  rcases matchStage_congr (x := s) (y := complete c w s) rfl rfl rfl rfl rfl with ⟨f, hs, hc⟩ | ⟨out, hs, hc⟩
  · rw [hs, hc]
    rfl
  · rw [hs, hc]
    rfl

section Staged

variable {i : Instr} (hi : IgnoresStatus (stageOf i)) {u t : State} (h : exec i (complete .ok 0 u) = .next t)

include hi h

/-- A command that completes OK on a committed working copy would have succeeded on the working copy itself. -/
theorem IgnoresStatus.exec_ok (hok : t.statusCode = .ok) : ∃ v, stageOf i u = .ok v ∧ t = complete .ok 0 v := by
  obtain ⟨v', hv', rfl⟩ := Machine.exec_ok h hok
  rw [hi] at hv'
  cases hv : stageOf i u with
  | error f => simp [hv, Except.map] at hv'
  | ok v =>
    rw [hv] at hv'
    obtain rfl := Except.ok.inj hv'
    exact ⟨v, rfl, rfl⟩

/-- A command that fails on a committed working copy would have failed in the same way on the working copy itself. -/
theorem IgnoresStatus.exec_error (hne : t.statusCode ≠ .ok) :
    ∃ f, stageOf i u = .error f ∧ t.statusCode = f.status ∧ t.errInfo = f.info := by
  obtain ⟨f, hf, rfl⟩ := Machine.exec_error h hne
  rw [hi] at hf
  cases hv : stageOf i u with
  | error g =>
    rw [hv] at hf
    obtain rfl := Except.error.inj hf
    exact ⟨g, rfl, completion_statusCode_error _ _ _⟩
  | ok v => simp [hv, Except.map] at hf

end Staged

/-- DECODE reports the failure of its stages and leaves no output and no table. -/
theorem exec_decode_reports {s : State} {f : Failure} (h : decodeStages s = .error f) :
    ∃ t, exec .decode s = .next t ∧ t.statusCode = f.status ∧ t.errInfo = f.info ∧ SameTables s t ∧ t.outLen = 0 := by
  obtain ⟨hstatus, hinfo, hout, htables⟩ := takeOutputError_reports f s
  exact ⟨_, exec_decode_of_error h, hstatus, hinfo, htables, hout⟩

/-- Settles O51: a composite command runs its stages on the working copy, which differs from the state a completed
stage leaves in what no stage reads. -/
theorem stagedAndCompositeCommandsAgree : Obligations.StagedAndCompositeCommandsAgree := by
  refine ⟨fun s a b c d hne hcount ha hbuild hb hassign hc hser hd => ?_, fun s a b hdes ha hmatch hb => ?_,
    fun s a hdes ha => ?_, fun s a b hdes ha hmatch hb => ?_⟩
  · obtain ⟨u, hu, rfl⟩ := exec_ok hcount ha
    obtain ⟨v, hv, rfl⟩ := IgnoresStatus.exec_ok (i := .build) ignoresStatus_buildStage hbuild hb
    obtain ⟨w, hw, rfl⟩ := IgnoresStatus.exec_ok (i := .assign) ignoresStatus_assignStage hassign hc
    obtain ⟨x, hx, rfl⟩ := IgnoresStatus.exec_ok (i := .serialize) ignoresStatus_serializeStage hser hd
    have htables : encodeTables u = .ok w := by
      rw [encodeTables, (sameInputs_countStage hu).inLen, if_neg hne]
      exact thenStage_ok_iff.2 ⟨v, hv, hw⟩
    exact exec_encode_of_ok (thenStage_ok_iff.2 ⟨w, thenStage_ok_iff.2 ⟨u, hu, htables⟩, hx⟩)
  · obtain ⟨u, hu, rfl⟩ := exec_ok hdes ha
    obtain ⟨v, hv, rfl⟩ := IgnoresStatus.exec_ok (i := .matchBits) ignoresStatus_matchStage hmatch hb
    exact exec_decode_of_ok (thenStage_ok_iff.2 ⟨u, hu, hv⟩)
  · obtain ⟨f, hf, rfl⟩ := exec_error hdes ha
    exact exec_decode_reports (thenStage_error_iff.2 (.inl hf))
  · obtain ⟨u, hu, rfl⟩ := exec_ok hdes ha
    obtain ⟨f, hf, hstatus, hinfo⟩ := IgnoresStatus.exec_error (i := .matchBits) ignoresStatus_matchStage hmatch hb
    rw [hstatus, hinfo]
    exact exec_decode_reports (thenStage_error_iff.2 (.inr ⟨u, hu, hf⟩))

/-! ### One repeated byte -/

theorem inputBytes_eq_replicate {s : State} {b : Byte} (h : ∀ a, a < s.inLen.toNat → s.ibuf.read a = b) :
    inputBytes s = List.replicate s.inLen.toNat b := by
  refine List.eq_replicate_iff.2 ⟨length_inputBytes s, fun c hc => ?_⟩
  obtain ⟨a, ha, rfl⟩ := List.mem_iff_getElem.1 hc
  rw [getElem_inputBytes]
  exact h a (by rwa [length_inputBytes] at ha)

/-- The input of `s` is copies of the byte `b`, at least one. -/
def Repeats (s : State) (b : Byte) : Prop := s.inLen.toNat ≠ 0 ∧ inputBytes s = List.replicate s.inLen.toNat b

theorem Repeats.distinctCount {s : State} {b : Byte} (h : Repeats s b) : distinctCount (inputBytes s) = 1 := by
  rw [h.2, Machine.distinctCount, List.replicate_dedup h.1]
  rfl

namespace HuffmanCode

variable {s : State} {L : Table Byte} {codes : List Nat} {b : Byte} (h : HuffmanCode s L codes) (hr : Repeats s b)

include h hr

/-- The Huffman code of one repeated byte has one symbol, of length 1 (41_tree_builder.md R93). -/
theorem lenPairs_of_repeats : lenPairs L = [⟨b, 1⟩] := by
  obtain ⟨e, he⟩ := List.length_eq_one_iff.1 (h.size.trans hr.distinctCount)
  have hmem : e ∈ lenPairs L := he ▸ List.mem_singleton_self e
  have hsym : e.sym = b := by
    obtain ⟨f, hf, hfb⟩ := h.covered b (hr.2 ▸ List.mem_replicate.2 ⟨hr.1, rfl⟩)
    rw [he, List.mem_singleton] at hf
    exact hf ▸ hfb
  have hpresent : presentSymbols (countTable (inputBytes s)) = [b] := by
    have hp := perm_sym_lenPairs h.lengths
    rw [he, List.map_singleton, hsym] at hp
    exact (List.singleton_perm.1 hp).symm
  have hlen : e.len = 1 := by
    rw [(mem_lenPairs.1 hmem).1, hsym]
    exact (lengthsFormACompleteTree _ L h.lengths).2.1 b hpresent
  rw [he, ← hsym, ← hlen]

/-- Its codeword is "0" (45_composite.md R137). -/
theorem codes_of_repeats : codes = [0] := by
  have hc := h.values
  rw [h.lenPairs_of_repeats hr] at hc
  exact (Except.ok.inj hc).symm

theorem tableAt_code_of_repeats : tableAt (codeTableOf (lenPairs L) codes) b = 0 := by
  rw [h.lenPairs_of_repeats hr, h.codes_of_repeats hr]
  exact tableAt_codeTableOf (ps := [⟨b, 1⟩]) (p := (⟨b, 1⟩, 0)) (List.nodup_singleton b) (List.mem_singleton_self _)

theorem encodedBits_of_repeats : encodedBits s L codes = List.replicate s.inLen.toNat false := by
  have hword : wordOf (lenPairs L) (codeTableOf (lenPairs L) codes) b = [false] := by
    have hmem : (⟨b, 1⟩ : AlphaEntry) ∈ lenPairs L := h.lenPairs_of_repeats hr ▸ List.mem_singleton_self _
    rw [wordOf_mem (nodup_sym_lenPairs L) hmem, codewordOf, h.tableAt_code_of_repeats hr]
    show bin 1 0 = [false]
    decide
  rw [encodedBits, hr.2, List.flatMap_replicate, hword, List.flatten_replicate_singleton]

theorem encodedSize_of_repeats : encodedSize s L = 4 + (s.inLen.toNat + 7) / 8 := by
  rw [encodedSize, hr.distinctCount, ← h.length_encodedBits, h.encodedBits_of_repeats hr, List.length_replicate]

theorem container_of_repeats : containerBytes (lenPairs L) (encodedBits s L codes) =
    BitVec.ofNat 8 ((8 - s.inLen.toNat % 8) % 8) :: 1 :: 1 :: b :: List.replicate ((s.inLen.toNat + 7) / 8) 0 := by
  rw [h.lenPairs_of_repeats hr, h.encodedBits_of_repeats hr, containerBytes, packPayload_replicate_false,
    List.length_replicate]
  rfl

end HuffmanCode

/-- Settles O54: the Huffman code of the input is one codeword "0"; the way back is that of every container. -/
theorem singleSymbolRoundTrip : Obligations.SingleSymbolRoundTrip := by
  intro s b hadm h1 hin hread
  obtain ⟨-, hge, -⟩ := bufBytesAdmitted_iff.1 hadm
  have hr : Repeats s b := ⟨by omega, inputBytes_eq_replicate hread⟩
  obtain ⟨L, codes, h⟩ := exists_huffmanCode hadm h1 hin
  have hpairs := h.lenPairs_of_repeats hr
  have hsize := h.encodedSize_of_repeats hr
  have hn := hr.distinctCount
  have hexec := h.exec_encode_ok hin (by omega) (by omega)
  have hout : (complete .ok 0 (encoded s L codes)).outLen.toNat = encodedSize s L := h.toNat_outLen hadm (by omega)
  have hmem : ⟨b, 1⟩ ∈ lenPairs L := hpairs ▸ List.mem_singleton_self _
  refine ⟨_, hexec, rfl, ?_, ?_, h.tableAt_code_of_repeats hr, hout.trans hsize, ?_, fun u hbuf hinLen hmem => ?_⟩
  · simp [encoded, encodedTables, hpairs]
  · exact (mem_lenPairs.1 hmem).1.symm
  · rw [hout, ← h.container_of_repeats hr]
    exact h.bytes_encoded
  · obtain ⟨v, hdec, hok, hv, hobuf⟩ :=
      (decodeOfEncodeIsTheInput s _ u hadm h1 hin hexec).2.2 rfl hbuf hinLen hmem
    exact ⟨v, hdec, hok, hv, fun a ha => (hobuf a ha).trans (hread a ha)⟩

/-! ### An empty input -/

/-- The header and the payload of the empty container. -/
theorem deserializeStage_empty {u : State} (hb : 2 ≤ u.bufBytes) (hin : u.inLen = 2) (h0 : u.ibuf.read 0 = 0)
    (h1 : u.ibuf.read 1 = 0) : deserializeStage u = .ok (installContainer ⟨0, [], 0⟩ [] [] u) := by
  have hlen : u.inLen.toNat = 2 := by rw [hin]; rfl
  refine deserializeStage_container (es := []) (bits := []) (Nat.zero_le _) hlen (by omega) (fun a ha => ?_)
    ⟨.nil, .nil, nofun⟩ rfl
  obtain rfl | rfl : a = 0 ∨ a = 1 := by
    have : a < 2 := ha
    omega
  · exact h0
  · exact h1

/-- What ENCODE commits for an empty input (45_composite.md R131). -/
def encodedEmpty (s : State) : State :=
  serialized [] { clearCode { s with freq := countTable [] } with len := tableOf fun _ => 0 }

theorem exec_encode_empty {s : State} (hb : 2 ≤ s.bufBytes) (hin : s.inLen = 0) :
    exec .encode s = .next (complete .ok 0 (encodedEmpty s)) :=
  exec_encode_of_ok (encodeStages_empty hin hb)

theorem complete_encodedEmpty (s : State) :
    complete .ok 0 (encodedEmpty s) =
      { s with
        freq := countTable [], len := tableOf fun _ => 0, alpha := tableOf fun _ => ⟨0, 0⟩, alphaN := 0,
        code := tableOf fun _ => 0, maxLen := 0, pad := 0, outLen := 2, obuf := Memory.ofBytes s.draws [0, 0],
        draws := s.draws + 1, eng := .idle, done := true, statusCode := .ok, errInfo := 0 } := by
  cases s
  rfl

/-- Settles O47: an empty input has an empty alphabet and no payload bits. -/
theorem emptyInputRoundTrip : Obligations.EmptyInputRoundTrip := by
  refine ⟨fun s hadm hin => ?_, fun u hadm hin h0 h1 => ?_⟩
  · obtain ⟨-, hge, -⟩ := bufBytesAdmitted_iff.1 hadm
    have hexec := exec_encode_empty (by omega) hin
    rw [complete_encodedEmpty] at hexec
    exact ⟨_, hexec, rfl, fun b => tableAt_tableOf _ b, fun b => tableAt_tableOf _ b, fun k => tableAt_tableOf _ k,
      fun b => tableAt_tableOf _ b, rfl, rfl, fun a ha => Memory.read_ofBytes_ge ha⟩
  · obtain ⟨-, hge, -⟩ := bufBytesAdmitted_iff.1 hadm
    have hdes := deserializeStage_empty (by omega) hin h0 h1
    have hmatched := matchStage_installContainer (hd := ⟨0, [], 0⟩) (ps := []) (codes := []) (s := u) (out := [])
      (by decide) (by decide) (by decide) rfl
    exact ⟨_, exec_decode_of_ok (thenStage_ok_iff.2 ⟨_, hdes, hmatched⟩), rfl, rfl, rfl, rfl, rfl, rfl,
      codeCleared_of_empty (h := ⟨0, [], 0⟩) (codes := []) (s := u), fun b => tableAt_lenTableOf_none (ps := []) nofun,
      by simp⟩

/-! ### NOP and illegal words -/

/-- Settles O25. -/
theorem nopOnlyCompletes : Obligations.NopOnlyCompletes :=
  fun s => ⟨_, rfl, rfl, Bool.and_true s.ie⟩

/-- The STATUS word after a BadCommand with OVR 0 (60_exceptions.md R144). -/
theorem statusWord_badCommand {s : State} (hidle : s.eng = .idle) (hdone : s.done = true)
    (hcode : s.statusCode = .badCommand) (hovr : s.ovr = false) : statusWord s = 0x00000B06 := by
  rw [statusWord, statusBusy, statusErr, hidle, hdone, hcode, hovr]
  decide

/-- Settles O3. -/
theorem illegalWordCompletesWithBadCommand : Obligations.IllegalWordCompletesWithBadCommand := by
  refine ⟨fun w hw i h => ?_, fun s s' ha hd => ?_⟩
  · have := (exists_decode_iff w).1 ⟨i, h⟩
    omega
  · obtain ⟨sched, rfl⟩ := ha.environment
    exact ⟨_, step_illegal ha hd, rfl, Bool.and_true s.ie, fun hovr => statusWord_badCommand rfl rfl rfl hovr⟩

end Sys2Proof.Machine

/-! PROOFS. The family 60_exceptions.md. What the engine's turn and a host's write of CMD or IN_LEN do; the state that
every completion leaves, and the one that an error completion leaves; the length check before all others; and the
completion interrupt. -/

namespace Sys2Proof.Machine

/-! ### Steps and issue -/

theorem commandWordOf_32 (w : Nat) : commandWordOf 32 w = BitVec.ofNat 32 w :=
  BitVec.eq_of_toNat_eq (by rw [commandWordOf, BitVec.toNat_ofNat, BitVec.toNat_ofNat, Nat.mod_mod])

theorem decode_of_decodeTableWord {nbits w : Nat} {i : Instr} (h : decodeTableWord nbits w = some i) :
    decode (commandWordOf nbits w) = .ok i := by
  rw [decodeTableWord] at h
  split at h
  · next hd => exact hd.trans (congrArg Except.ok (Option.some.inj h))
  · simp at h

/-- The engine moves first after `withFetchWord`, on the state that the issue of the word leaves. -/
theorem engineActs_withFetchWord (s : State) (nbits w : Nat) :
    EngineActs (s.withFetchWord nbits w) (issue (commandWordOf nbits w) s) :=
  ⟨rfl, .inl ⟨s.sched, rfl, rfl⟩⟩

/-- Settles O4. -/
theorem stepRunsTheLatchedCommand : Obligations.StepRunsTheLatchedCommand :=
  ⟨fun _ _ _ => step_engine,
    fun s w _ h => commandWordOf_32 w ▸ step_engine (engineActs_withFetchWord s 32 w) (decode_of_decodeTableWord h),
    fun _ _ _ => step_host, fun _ => step_stutter, fun _ _ => step_engine_idle, fun _ _ => step_host_idle⟩

theorem writeCmd_idle {s : State} (he : s.eng = .idle) (v : Word) : writeCmd v s = issue v s := by
  rw [writeCmd, he]

theorem writeInLen_idle {s : State} (he : s.eng = .idle) (v : Word) : writeInLen v s = { s with inLen := v } := by
  rw [writeInLen, he]

section Issue
variable {s s' : State} {v : Word}

/-- A CMD write while IDLE issues the command (60_exceptions.md R142). -/
theorem step_stw_cmd_idle (h : HostActs s (.stw 0x0010 v) s') (he : s.eng = .idle) : step s = .next (issue v s') := by
  rw [step_stw h (by decide) (by decide), busWrite_cmd, writeCmd_idle (h.eng_eq.trans he)]

/-- An IN_LEN write while IDLE stores the word (10_state.md R34). -/
theorem step_stw_inLen_idle (h : HostActs s (.stw 0x0018 v) s') (he : s.eng = .idle) :
    step s = .next { s' with inLen := v } := by
  rw [step_stw h (by decide) (by decide), busWrite_inLen, writeInLen_idle (h.eng_eq.trans he)]

/-- While BUSY a write of CMD or IN_LEN is dropped (60_exceptions.md R142, 10_state.md R34). -/
theorem step_stw_operand_busy {off : Nat} (h : HostActs s (.stw off v) s') (he : s.eng = .busy)
    (ho : off = 0x0010 ∨ off = 0x0018) : step s = .next (dropWrite s') := by
  rw [step_stw h (by omega) (by omega), busWrite_busy (h.eng_eq.trans he) v (ho.imp_right .inl)]

end Issue

/-- Settles O5. -/
theorem cmdWriteIssuesOrIsDropped : Obligations.CmdWriteIssuesOrIsDropped := by
  refine ⟨fun s s' v h => ⟨fun he => ?_, fun he => step_stw_operand_busy h he (.inl rfl)⟩,
    fun s s' v h => ⟨step_stw_inLen_idle h, fun he => step_stw_operand_busy h he (.inr rfl)⟩⟩
  have hissue : step s = .next (issue v s') := step_stw_cmd_idle h he
  refine ⟨hissue, fun t ht => ?_⟩
  obtain rfl := Host.Outcome.next.inj (hissue.symm.trans ht)
  rfl

/-! ### Every completion -/

theorem completed_exec {i : Instr} {s t : State} (h : exec i s = .next t) : Completed s t :=
  exec_next h ▸ completed_completion i s

/-- Settles O14: the frame is that of every completion, and only an OK completion has CODE 0. -/
theorem everyCompletionSetsStatusAndKeepsInputs : Obligations.EveryCompletionSetsStatusAndKeepsInputs := by
  intro i s t h
  have hc := completed_exec h
  have hinfo : t.statusCode = .ok → t.errInfo = 0 := fun hok => by
    obtain ⟨u, -, rfl⟩ := exec_ok h hok
    rfl
  exact ⟨hc.eng, hc.done, hinfo, hc.inLen, hc.ibuf, hc.ie, hc.ovr, hc.lcmd, hc.bufBytes, hc.host, hc.reads, hc.sched⟩

/-- A step in which the engine acts is a completion, whether or not the word is legal (60_exceptions.md R143). -/
theorem EngineActs.completed {s s' t : State} (h : EngineActs s s') (ht : step s = .next t) : Completed s' t := by
  by_cases hd : ∃ i, decode s.lcmd = .ok i
  · obtain ⟨i, hi⟩ := hd
    exact completed_exec ((step_engine h hi).symm.trans ht)
  · obtain rfl := Host.Outcome.next.inj ((step_illegal h (not_exists.1 hd)).symm.trans ht)
    exact completed_complete _ _ (.refl s')

/-! ### Error completions -/

/-- The error of a command that is no output command changes no table and no output (60_exceptions.md R147). -/
theorem takeError_keeps (f : Failure) (s : State) :
    SameTables s (takeError f s) ∧ (takeError f s).outLen = s.outLen ∧ (takeError f s).obuf = s.obuf :=
  ⟨⟨rfl, rfl, rfl, rfl, rfl, rfl, rfl, rfl, rfl⟩, rfl, rfl⟩

/-- After an output command's error OBUF holds no specified byte; its free values come from a fresh draw. -/
theorem takeOutputError_obuf (f : Failure) (s : State) :
    (∀ a, (takeOutputError f s).obuf.read a = Config.freeByte s.draws a) ∧ s.draws < (takeOutputError f s).draws :=
  ⟨fun a => Memory.read_ofBytes_ge (Nat.zero_le a), Nat.lt_succ_self _⟩

/-- Settles O15: an error completion starts from the state before the command, and only an output command's error
changes more than the completion registers. -/
theorem errorCompletionDiscardsEverything : Obligations.ErrorCompletionDiscardsEverything := by
  intro i s t h hne
  obtain ⟨f, -, rfl⟩ := exec_error h hne
  cases ho : isOutputCommand i with
  | true =>
    rw [completion_error_output ho]
    obtain ⟨-, -, hout, htables⟩ := takeOutputError_reports f s
    obtain ⟨hobuf, hdraws⟩ := takeOutputError_obuf f s
    exact ⟨htables, fun _ => ⟨hout, hobuf, hdraws⟩, nofun⟩
  | false =>
    rw [completion_error ho]
    obtain ⟨htables, hkept⟩ := takeError_keeps f s
    exact ⟨htables, nofun, fun _ => hkept⟩

/-! ### The length check -/

/-- Every command that reads IN_LEN fails on a length beyond BUF_BYTES, whatever else is wrong (60_exceptions.md R145). -/
theorem stageOf_badLength {i : Instr} {s : State} (hi : readsInLen i = true) (h : s.bufBytes < s.inLen.toNat) :
    stageOf i s = .error ⟨.badLength, s.inLen⟩ := by
  cases i with
  | nop | build | assign | matchBits => simp [readsInLen] at hi
  | count => exact countStage_error_iff.2 ⟨h, rfl⟩
  | serialize => exact serializeStage_error_iff.2 (.inl ⟨h, rfl⟩)
  | deserialize => exact deserializeStage_error_iff.2 (.inl ⟨h, rfl⟩)
  | encode => exact thenStage_error_iff.2 (.inl (thenStage_error_iff.2 (.inl (countStage_error_iff.2 ⟨h, rfl⟩))))
  | decode => exact thenStage_error_iff.2 (.inl (deserializeStage_error_iff.2 (.inl ⟨h, rfl⟩)))

theorem badLength_mem_errorStatuses_iff (i : Instr) : .badLength ∈ errorStatuses i ↔ readsInLen i = true := by
  cases i <;> decide

/-- A command completes with BadLength only if it reads IN_LEN. -/
theorem readsInLen_of_badLength {i : Instr} {s t : State} (h : exec i s = .next t) (hc : t.statusCode = .badLength) :
    readsInLen i = true := by
  obtain ⟨f, hf, rfl⟩ := exec_error h (by simp [hc])
  have hstatus : f.status = .badLength := (completion_statusCode_error i s f).1.symm.trans hc
  exact (badLength_mem_errorStatuses_iff i).1 (hstatus ▸ stageOf_status hf)

/-- The state with another value in IN_LEN. -/
def setInLen (n : Word) (s : State) : State := { s with inLen := n }

/-- The pseudocode of a command that does not read IN_LEN (60_exceptions.md R145) does not depend on it. -/
theorem stageOf_setInLen {i : Instr} (hi : readsInLen i = false) (n : Word) (s : State) :
    stageOf i (setInLen n s) = (stageOf i s).map (setInLen n) := by
  cases i with
  | nop => rfl
  | build =>
    show buildStage (setInLen n s) = (buildStage s).map (setInLen n)
    cases hs : buildStage s with
    | error f => exact buildStage_error_iff.2 (buildStage_error_iff (s := s).1 hs)
    | ok t =>
      obtain ⟨L, hL, rfl⟩ := buildStage_ok_iff.1 hs
      exact buildStage_ok_iff.2 ⟨L, hL, rfl⟩
  | assign =>
    show assignStage (setInLen n s) = (assignStage s).map (setInLen n)
    cases hs : assignStage s with
    | error f => exact assignStage_error_iff.2 (assignStage_error_iff (s := s).1 hs)
    | ok t =>
      obtain ⟨hne, codes, hc, rfl⟩ := assignStage_ok_iff.1 hs
      exact assignStage_ok_iff.2 ⟨hne, codes, hc, rfl⟩
  | matchBits =>
    show matchStage (setInLen n s) = (matchStage s).map (setInLen n)
    cases hs : matchStage s with
    | error f => exact matchStage_error_iff.2 (matchStage_error_iff (s := s).1 hs)
    | ok t =>
      obtain ⟨out, hout, rfl⟩ := matchStage_ok_iff.1 hs
      exact matchStage_ok_iff.2 ⟨out, hout, rfl⟩
  | count | serialize | deserialize | encode | decode => simp [readsInLen] at hi

theorem completion_setInLen (i : Instr) (n : Word) (s : State) (r : Except Failure State) :
    completion i (setInLen n s) (r.map (setInLen n)) = setInLen n (completion i s r) := by
  unfold completion
  split <;> cases r <;> rfl

/-- MATCH completes only where its payload lies in IBUF. -/
theorem payloadInBuffer_of_exec {i : Instr} {s t : State} (h : exec i s = .next t) (hi : i = .matchBits) :
    payloadInBuffer s = true := by
  subst hi
  by_contra hp
  simp [exec_matchBits_of_outside (Bool.eq_false_iff.2 hp)] at h

theorem exec_setInLen {i : Instr} {s t : State} (hi : readsInLen i = false) (h : exec i s = .next t) (n : Word) :
    exec i (setInLen n s) = .next (setInLen n t) := by
  have hpayload : i = .matchBits → payloadInBuffer s = true := payloadInBuffer_of_exec h
  rw [exec_eq i (setInLen n s) hpayload, stageOf_setInLen hi, completion_setInLen, ← exec_next h]

/-- Settles O18: a length beyond BUF_BYTES is the first error of the commands that read it; no other command's
pseudocode depends on IN_LEN or fails with BadLength. -/
theorem lengthIsCheckedFirst : Obligations.LengthIsCheckedFirst := by
  refine ⟨fun i s hi hlen => ?_, fun i s t n hi h => ⟨exec_setInLen hi h n, fun hc => ?_⟩⟩
  · have hexec : exec i s = .next (completion i s (.error ⟨.badLength, s.inLen⟩)) := by
      rw [exec_eq i s (by rintro rfl; simp [readsInLen] at hi), stageOf_badLength hi hlen]
    obtain ⟨hstatus, hinfo⟩ := completion_statusCode_error i s ⟨.badLength, s.inLen⟩
    exact ⟨_, hexec, hstatus, hinfo, (errorCompletionDiscardsEverything i s _ hexec (by simp [hstatus])).1⟩
  · simp [readsInLen_of_badLength h hc] at hi

/-! ### The completion interrupt -/

theorem irq_of_done {s : State} (h : s.done = true) : irq s = s.ie := by
  rw [irq, h, Bool.and_true]

theorem irq_of_not_done {s : State} (h : s.done = false) : irq s = false := by
  rw [irq, h, Bool.and_false]

theorem irq_of_masked {s : State} (h : s.ie = false) : irq s = false := by
  rw [irq, h, Bool.false_and]

/-- A step that leaves DONE 0 leaves the interrupt cleared. -/
theorem exists_step_cleared {s t : State} (h : step s = .next t) (hd : t.done = false) :
    ∃ t, step s = .next t ∧ t.done = false ∧ irq t = false :=
  ⟨t, h, hd, irq_of_not_done hd⟩

/-- Settles O13: a completion sets DONE; a STATUS write of bit 1, an issue and both resets leave DONE 0; IE 0 masks. -/
theorem interruptFollowsCompletionAndEnable : Obligations.InterruptFollowsCompletionAndEnable := by
  refine ⟨fun _ => rfl, fun s s' t h ht => ?_, fun s s' v h hv => ?_, fun s s' v h he => ?_, fun s turns h => ?_,
    fun s s' v h hv => ?_, fun s s' v h hsrst hie => ?_⟩
  · have hc := h.completed ht
    have hie : s'.ie = s.ie := by
      obtain ⟨sched, rfl⟩ := h.environment
      rfl
    exact ⟨hc.done, (irq_of_done hc.done).trans (hc.ie.trans hie)⟩
  · exact exists_step_cleared (statusReadsAndClears.2.1 s s' v h) (by simp [hv])
  · exact exists_step_cleared (step_stw_cmd_idle h he) rfl
  · exact exists_step_cleared (step_reset h) rfl
  · obtain ⟨_, ht, rfl, -⟩ := (ctrlReadsAndWrites.2.1 s s' v h).2 hv
    exact exists_step_cleared ht rfl
  · refine ⟨_, (ctrlReadsAndWrites.2.1 s s' v h).1 hsrst, irq_of_masked hie, ?_⟩
    obtain ⟨host, sched, rfl⟩ := h.environment
    rfl

end Sys2Proof.Machine

/-! PROOFS. The family 70_reset_and_hazards.md. The two resets, field by field, and that they abandon a running command;
what host reads give while BUSY; and the two outcomes of CMD writes without a wait. -/

namespace Sys2Proof.Machine

/-! ### Reads while BUSY -/

/-- While BUSY the result registers, the tables and OBUF have no specified word (70_reset_and_hazards.md R167). -/
theorem readIsFree_eq_true {s : State} {off : Nat} (he : s.eng = .busy)
    (ho : (0x001C ≤ off ∧ off < 0x0038) ∨ (0x0400 ≤ off ∧ off < 0x2000) ∨
      (0x02000000 ≤ off ∧ off < 0x02000000 + s.bufBytes)) : readIsFree s off = true := by
  rw [readIsFree, volatileOffset, statusBusy, Bool.and_eq_true, decide_eq_true_eq, decide_eq_true_eq]
  exact ⟨he, ho⟩

/-- A free host read records a fresh free word and moves only the model's counter of them (log 6). -/
theorem step_ldw_free {s s' : State} {off : Nat} (h : HostActs s (.ldw off) s') (ha : off % 4 = 0)
    (hw : off < 0x04000000) (hf : readIsFree s off = true) :
    step s = .next { s' with reads := Config.freeWord s.draws :: s.reads, draws := s.draws + 1 } := by
  have hfree : readIsFree s' off = true := (h.readIsFree_eq off).trans hf
  rw [step_ldw h ha hw, afterRead, if_pos hfree, busRead, if_pos hfree, h.draws_eq, h.reads_eq]

/-- Settles O19: every offset of the first list is free while BUSY, every one of the second is exact at all times. -/
theorem busyReadsAreFreeOrExact : Obligations.BusyReadsAreFreeOrExact := by
  intro s s' off h he ha hb
  have hle := (bufBytesAdmitted_iff.1 hb).2.2
  constructor
  · intro ho
    exact step_ldw_free h ha (by omega) (readIsFree_eq_true he (by omega))
  · intro ho
    exact step_ldw_exact h ha (by omega) (readIsFree_eq_false (by omega) (by omega) (by omega))

/-! ### The two resets -/

/-- A CTRL write with bit 1 set is the soft reset (10_state.md R26), IDLE or BUSY. -/
theorem step_stw_srst {s s' : State} {v : Word} (h : HostActs s (.stw 0x000C v) s') (hv : v[1] = true) :
    step s = .next (softReset s') := by
  obtain ⟨t, ht, rfl, -⟩ := (ctrlReadsAndWrites.2.1 s s' v h).2 hv
  exact ht

/-- Settles O9. -/
theorem softResetKeepsOnlyIbuf : Obligations.SoftResetKeepsOnlyIbuf := by
  intro s s' v h hv
  refine ⟨softReset s', step_stw_srst h hv, rfl, rfl, rfl, rfl, rfl, rfl, rfl, rfl, rfl, rfl, rfl, rfl, rfl,
    tableAt_replicate _, tableAt_replicate _, tableAt_replicate _, tableAt_replicate _, h.ibuf_eq, fun a => ?_, ?_, ?_,
    h.bufBytes_eq, rfl, rfl, h.reads_eq, rfl⟩
  · rw [← h.draws_eq]
    rfl
  · rw [← h.draws_eq]
    rfl
  · rw [← h.draws_eq]
    exact Nat.lt_succ_self _

/-- Settles O10. -/
theorem hardResetFromAnyState : Obligations.HardResetFromAnyState := fun _ _ h =>
  ⟨_, step_reset h, rfl, rfl, rfl, rfl, rfl, rfl, rfl, rfl, rfl, rfl, rfl, rfl, rfl, tableAt_replicate _,
    tableAt_replicate _, tableAt_replicate _, tableAt_replicate _, fun _ => rfl, fun _ => rfl, rfl, Nat.lt_succ_self _,
    rfl, rfl, rfl, rfl, rfl⟩

/-- A step that is a reset, hard or soft, ends in the hard reset of some state but for IBUF
(70_reset_and_hazards.md R162, R163). -/
theorem exists_hardReset_of_step {s t : State}
    (hreset : (∃ turns, s.sched = .reset :: turns) ∨
      ∃ (s' : State) (v : Word), HostActs s (.stw 0x000C v) s' ∧ v[1] = true)
    (ht : step s = .next t) : ∃ u m, t = { hardReset u with ibuf := m } := by
  obtain ⟨turns, hq⟩ | ⟨s', v, h, hv⟩ := hreset
  · exact ⟨{ s with sched := turns }, ⟨[], s.draws⟩, (Host.Outcome.next.inj ((step_reset hq).symm.trans ht)).symm⟩
  · exact ⟨s', s'.ibuf, (Host.Outcome.next.inj ((step_stw_srst h hv).symm.trans ht)).symm⟩

/-- Settles O11: whatever was running, the registers and tables have the values of `State.reset`, and the engine is
IDLE, so that its next turn has nothing to complete. -/
theorem resetAbandonsTheCommand : Obligations.ResetAbandonsTheCommand := by
  intro s t _ hreset ht
  obtain ⟨u, m, rfl⟩ := exists_hardReset_of_step hreset ht
  exact ⟨statusWord_reset, rfl, ⟨rfl, rfl, rfl, rfl, rfl, rfl, rfl, rfl, rfl⟩, rfl, rfl, fun _ => step_engine_idle rfl⟩

/-! ### Two commands without a wait -/

theorem hostActs_of_sched {s : State} {op : HostOp} {rest : List HostOp} {turns : List Turn} (hh : s.host = op :: rest)
    (hq : s.sched = .host :: turns) : HostActs s op { s with host := rest, sched := turns } :=
  ⟨rest, hh, .inl ⟨turns, hq, rfl⟩⟩

/-- Settles O60: with the engine's turn between them the first command completes, so that the second write finds the
block IDLE; with none it finds it BUSY. -/
theorem doubleCommandRaceHasBothOutcomes : Obligations.DoubleCommandRaceHasBothOutcomes := by
  intro s v w hs he hh
  constructor
  · intro hq
    have hissue := step_stw_cmd_idle (hostActs_of_sched hh hq) he
    obtain ⟨t, hcomplete, hc⟩ := (everyStepKeepsTheInvariant s _ hs hissue).step_engine_completed
      ⟨rfl, .inl ⟨[.host], rfl, rfl⟩⟩
    have hreissue := step_stw_cmd_idle (hostActs_of_sched hc.host hc.sched) hc.eng
    exact ⟨_, (run_succ hissue).trans ((run_succ hcomplete).trans (run_succ hreissue)), rfl, rfl, hc.ovr⟩
  · intro hq
    have hissue := step_stw_cmd_idle (hostActs_of_sched hh hq) he
    have hdrop := step_stw_operand_busy (s := issue v { s with host := [.stw 0x0010 w], sched := [.host] })
      (hostActs_of_sched rfl rfl) rfl (.inl rfl)
    exact ⟨_, (run_succ hissue).trans (run_succ hdrop), rfl, rfl, rfl⟩

end Sys2Proof.Machine
